-- ==== Sys2Proof/Word.lean ====
section
/-! DEFINITION. The plain data every layer shares: bytes, byte strings, the bit-field widths the spec names
(00_scope.md R9-R11), and the two unit kinds (10_state.md R41). -/

namespace Sys2Proof

/-- `Bit_1` (R10). -/
abbrev Bit := BitVec 1

/-- `Bit_8` (R10). -/
abbrev Byte := BitVec 8

/-- `Bytes`, a finite list of bytes (R11). -/
abbrev Bytes := List Byte

/-- A packet identifier, 13 bits (R9). -/
abbrev Pid := BitVec 13

/-- A continuity counter, 4 bits (R9). -/
abbrev Counter := BitVec 4

/-- The command word, 32 bits (30_encoding.md R80). -/
abbrev CommandWord := BitVec 32

/-- Which unit a slot reassembles or SPLIT frames (10_state.md R41). -/
inductive Kind where
  | pes
  | psi
  deriving DecidableEq, Repr

end Sys2Proof
end

