-- ==== Sys2Proof/Config.lean ====
section
/-! DEFINITION. The three parameters of the block (00_scope.md R8), fixed when it is built. The spec gives no value
for any of them and says that a model takes them as arguments: they are a field of State which no step writes, so
a statement about every state is one about every parameter value (log 1). -/

namespace Sys2Proof

/-- The parameters of R8. -/
structure Params where
  /-- `NSLOTS`, the number of depacketizer slots. -/
  nslots : Nat
  /-- `QDEPTH`, the capacity of the completed-unit queue, in units. -/
  qdepth : Nat
  /-- `UNBOUNDED_PES_CAP`, the largest number of bytes an unbounded PES accumulation may hold. -/
  unboundedPesCap : Nat
  deriving DecidableEq, Repr

/-- The constraints of R8. -/
abbrev Params.legal (p : Params) : Prop :=
  1 ≤ p.nslots ∧ p.nslots ≤ 8192 ∧ 1 ≤ p.qdepth ∧ 9 ≤ p.unboundedPesCap

/-- DESIGN CHOICE (log 1), unsafe: the parameters of State.reset. The spec leaves them OPEN; these are the values
95_test_vectors.md section 0 takes for its vectors. -/
def Config.params : Params := ⟨4, 4, 65536⟩

end Sys2Proof
end

