-- ==== Sys2Proof/Syntax.lean ====
section
/-! DEFINITION. The 18 commands of MTSC-1 (30_encoding.md R83), one constructor per row of the opcode table, each
with the word fields its row uses (R81). IN operands are no part of the word (R82): they stand in State. -/

namespace Sys2Proof

/-- A command, as the decoder reads it from a legal word. -/
inductive Instr where
  /-- NOP (46_control.md R330). -/
  | nop
  /-- RESET (R331). -/
  | reset
  /-- DECODE_PACKET (40_ts_packet.md R141). -/
  | decodePacket
  /-- ENCODE_PACKET (R146). -/
  | encodePacket
  /-- CC_NEXT (41_continuity.md R170): `h` is H, the packet carries a payload. -/
  | ccNext (h : Bit) (pid : Pid)
  /-- CC_VALIDATE (R172): the received counter, discontinuity_indicator, H. -/
  | ccValidate (cc : Counter) (di : Bit) (h : Bit) (pid : Pid)
  /-- CRC32 (42_psi.md R190). -/
  | crc32
  /-- DECODE_SECTION (R193). -/
  | decodeSection
  /-- ENCODE_SECTION (R200). -/
  | encodeSection
  /-- DECODE_PES (43_pes.md R232). -/
  | decodePes
  /-- ENCODE_PES (R237). -/
  | encodePes
  /-- SPLIT (44_packetizer.md R260). -/
  | split (kind : Kind) (pid : Pid)
  /-- OPEN (45_depacketizer.md R281). -/
  | openPid (kind : Kind) (pid : Pid)
  /-- CLOSE (R282). -/
  | closePid (pid : Pid)
  /-- FEED (R284). -/
  | feed
  /-- FINISH (R296). -/
  | finish (pid : Pid)
  /-- TAKE_COMPLETED (R298). -/
  | takeCompleted
  /-- SLOT_STATE (R300). -/
  | slotState (pid : Pid)
  deriving DecidableEq, Repr

end Sys2Proof
end

