-- ==== Sys2Proof/Machine/Values.lean ====
section
/-! DEFINITION. The typed values commands take and return (10_state.md section 3, R29-R42, with the error kinds of
60_exceptions.md R351 and R352). Every `Bit_n` field is an n-bit vector, so a value outside its width cannot be
formed. -/

namespace Sys2Proof.Machine

/-- A PCR or OPCR (R32). -/
structure Pcr where
  base : BitVec 33
  ext : BitVec 9
  deriving DecidableEq, Repr

/-- The adaptation field of a packet value (R33). -/
structure AdaptationField where
  di : Bit
  rai : Bit
  espi : Bit
  pcr : Option Pcr
  opcr : Option Pcr
  spliceCountdown : Option Byte
  privateData : Option Bytes
  extension : Option Bytes
  deriving DecidableEq, Repr

/-- `AF_EMPTY` (R33): an adaptation field without content. -/
def AdaptationField.empty : AdaptationField :=
  { di := 0, rai := 0, espi := 0, pcr := none, opcr := none, spliceCountdown := none, privateData := none,
    extension := none }

/-- A TS packet value (R34). -/
structure TsPacket where
  tei : Bit
  pusi : Bit
  tp : Bit
  pid : Pid
  tsc : BitVec 2
  cc : Counter
  af : AdaptationField
  payload : Option Bytes
  deriving DecidableEq, Repr

/-- A descriptor (R35). -/
structure Descriptor where
  tag : Byte
  data : Bytes
  deriving DecidableEq, Repr

/-- The long-form header fields every section carries (R36). -/
structure SectionCommon where
  version : BitVec 5
  currentNext : Bit
  sectionNumber : Byte
  lastSectionNumber : Byte
  deriving DecidableEq, Repr

/-- One PAT entry (R37). -/
structure PatEntry where
  programNumber : BitVec 16
  pid : Pid
  deriving DecidableEq, Repr

/-- One elementary stream of a PMT (R37). -/
structure PmtStream where
  streamType : Byte
  elementaryPid : Pid
  esInfo : List Descriptor
  deriving DecidableEq, Repr

/-- A PSI section value, selected by table_id (R37). An `other` whose table_id is 0x00 or 0x02 can be written here
and is what ENCODE_SECTION answers with MalformedTable (42_psi.md R200; log 14). -/
inductive Section where
  | pat (transportStreamId : BitVec 16) (common : SectionCommon) (programs : List PatEntry)
  | pmt (programNumber : BitVec 16) (common : SectionCommon) (pcrPid : Pid) (programInfo : List Descriptor)
      (streams : List PmtStream)
  | other (tableId : Byte) (privateIndicator : Bit) (tableIdExtension : BitVec 16) (common : SectionCommon)
      (data : Bytes)
  deriving DecidableEq, Repr

/-- The optional PES header (R38). -/
structure PesHeader where
  scramblingControl : BitVec 2
  priority : Bit
  dataAlignmentIndicator : Bit
  copyright : Bit
  originalOrCopy : Bit
  pts : Option (BitVec 33)
  dts : Option (BitVec 33)
  deriving DecidableEq, Repr

/-- A PES packet value (R39). -/
structure PesPacket where
  streamId : Byte
  header : Option PesHeader
  unbounded : Bit
  payload : Bytes
  deriving DecidableEq, Repr

/-- The value of a completed unit (R31). -/
inductive UnitValue where
  | sec (s : Section)
  | pes (p : PesPacket)
  deriving DecidableEq, Repr

/-- A completed, decoded unit waiting in the queue (R31). -/
structure CompletedUnit where
  pid : Pid
  value : UnitValue
  deriving DecidableEq, Repr

/-- The continuity verdicts (R40). -/
inductive Verdict where
  | continuous
  | discontinuous
  | duplicate
  deriving DecidableEq, Repr

/-- The stored states of a slot (R27, 45_depacketizer.md R283). -/
inductive SlotPhase where
  | idle
  | accumulating
  | discarding
  deriving DecidableEq, Repr

/-- The declared total length of the unit in progress (R29). -/
inductive Target where
  | unknown
  | bounded (n : Nat)
  | unbounded
  deriving DecidableEq, Repr

/-- What SLOT_STATE returns (R300). `buffered` is as wide as the parameter needs (log 11). -/
structure SlotStatus where
  kind : Kind
  state : SlotPhase
  buffered : Nat
  target : Target
  lastCc : Option Counter
  deriving DecidableEq, Repr

/-- The error statuses a command can raise, each with its information (60_exceptions.md R351, R352). -/
inductive ErrorStatus where
  | syncByteMismatch (found : Byte)
  | invalidAdaptationFieldLength (len : Byte)
  | payloadTooLarge (size : Nat)
  | sectionTooLong (len : Nat)
  | crcMismatch (expected computed : BitVec 32)
  | invalidStartCode (streamId : Byte)
  | invalidTimestampMarker
  | incompletePayload (declared supplied : Nat)
  | reservedAdaptationFieldControl (afc : BitVec 2)
  | invalidSectionSyntax (byte1 : Byte)
  | malformedTable
  | malformedPesHeader
  | illegalCommand (word : CommandWord)
  | pidNotOpen
  | noFreeSlot
  | queueEmpty
  deriving DecidableEq, Repr

/-- The output operand of a response: one case per OUT type of 20_memory.md R61 and per information type of R352. -/
inductive Output where
  | none
  | tsPacket (p : TsPacket)
  | bytes (b : Bytes)
  | counter (c : Counter)
  | verdict (v : Verdict)
  | crc (c : BitVec 32)
  | sec (s : Section)
  | pes (p : PesPacket)
  | packets (l : List Bytes)
  | completedUnit (u : CompletedUnit)
  | slotStatus (s : SlotStatus)
  | byteInfo (b : Byte)
  | sizeInfo (n : Nat)
  | crcInfo (expected computed : BitVec 32)
  | lengthInfo (declared supplied : Nat)
  | afcInfo (afc : BitVec 2)
  | wordInfo (word : CommandWord)
  deriving DecidableEq, Repr

/-- One event of FEED or FINISH, `(kind : Bit_4, arg : Bit_8)` (60_exceptions.md R357). -/
structure Event where
  kind : BitVec 4
  arg : Byte
  deriving DecidableEq, Repr

/-- The response to a command (R42). -/
structure Response where
  status : Byte
  out : Output
  events : List Event
  deriving DecidableEq, Repr

/-- The IN operand the host supplies with a command (20_memory.md R61). A Packet188 operand is a byte string of
188 bytes (R11, R63). -/
inductive Operand where
  | none
  | bytes (b : Bytes)
  | tsPacket (p : TsPacket)
  | sec (s : Section)
  | pes (p : PesPacket)
  deriving DecidableEq, Repr

/-- A command as the host issues it: its word and its IN operand (30_encoding.md R80). -/
structure Command where
  word : CommandWord
  operand : Operand
  deriving DecidableEq, Repr

/-- What the host can do to the block: issue a command (R7) or drive the reset input (70_reset_and_hazards.md
R390). -/
inductive HostInput where
  | command (c : Command)
  | resetInput
  deriving DecidableEq, Repr

/-- private_data and extension are at most 255 bytes (10_state.md R33). -/
def AdaptationField.wellTyped (af : AdaptationField) : Bool :=
  (af.privateData.all fun d => decide (d.length ≤ 255)) && (af.extension.all fun d => decide (d.length ≤ 255))

/-- A packet value is well typed when its adaptation field is. Its payload is not bounded here: ENCODE_PACKET itself
answers a payload above 184 bytes, with PayloadTooLarge (R146; log 8). -/
def TsPacket.wellTyped (p : TsPacket) : Bool := p.af.wellTyped

/-- Descriptor data is at most 255 bytes (R35). -/
def Descriptor.wellTyped (d : Descriptor) : Bool := decide (d.data.length ≤ 255)

/-- Every descriptor of a section value is well typed. -/
def Section.wellTyped : Section → Bool
  | .pat _ _ _ => true
  | .pmt _ _ _ info streams => info.all Descriptor.wellTyped && streams.all fun st => st.esInfo.all Descriptor.wellTyped
  | .other _ _ _ _ _ => true

/-- A Packet188 operand is exactly 188 bytes (R63). -/
def isPacket188 (b : Bytes) : Bool := decide (b.length = 188)

end Sys2Proof.Machine
end

