-- ==== Sys2Proof/WellFormed.lean ====
section
/-! DEFINITION. Operand typing (46_control.md R334, 20_memory.md R61): which IN operands the block can receive for
a command. The word fields of an Instr have exact widths, so every Instr is well formed; what can be ill formed is
the operand the host supplies with it. -/

namespace Sys2Proof.Machine

/-- Whether the block can receive operand `o` with command `i`. A command without an IN operand ignores what the
host supplies (R334). -/
def operandTyped (i : Instr) (o : Operand) : Bool :=
  match i with
  | .nop | .reset | .ccNext _ _ | .ccValidate _ _ _ _ | .openPid _ _ | .closePid _ | .finish _ | .takeCompleted
  | .slotState _ => true
  | .decodePacket | .feed => match o with
    | .bytes b => isPacket188 b
    | _ => false
  | .encodePacket => match o with
    | .tsPacket p => p.wellTyped
    | _ => false
  | .crc32 | .decodeSection | .decodePes | .split _ _ => match o with
    | .bytes _ => true
    | _ => false
  | .encodeSection => match o with
    | .sec s => s.wellTyped
    | _ => false
  | .encodePes => match o with
    | .pes _ => true
    | _ => false

end Sys2Proof.Machine
end

