-- ==== Sys2Proof/Decode.lean ====
section
/-! DEFINITION. The command word (30_encoding.md Part A): the decoder, total on every 32-bit word and naming why a
word is illegal (R86), the encoder (R85), and the opcode table as rows of mask and match. -/

namespace Sys2Proof

/-- Why a word is illegal (R86). Each is answered with IllegalCommand. -/
inductive DecodeError where
  /-- OP is none of the 18 values of R83. -/
  | unassignedOpcode
  /-- RSV1 or RSV0 is not 0. -/
  | reservedBits
  /-- A field the opcode does not use is not 0. -/
  | unusedField
  deriving DecidableEq, Repr

/-- The fields of a command word (R80). -/
structure WordFields where
  op : Byte
  ccv : Counter
  di : Bit
  rsv1 : BitVec 3
  flag : Bit
  rsv0 : BitVec 2
  pid : Pid
  deriving DecidableEq, Repr

/-- The fields of a word at the places R80 gives them. -/
def wordFields (w : CommandWord) : WordFields :=
  { op := w.extractLsb' 24 8, ccv := w.extractLsb' 20 4, di := w.extractLsb' 19 1, rsv1 := w.extractLsb' 16 3,
    flag := w.extractLsb' 15 1, rsv0 := w.extractLsb' 13 2, pid := w.extractLsb' 0 13 }

/-- Word assembly (R85), the reserved fields 0. -/
def assemble (op : Byte) (ccv : Counter) (di : Bit) (flag : Bit) (pid : Pid) : CommandWord :=
  op ++ ccv ++ di ++ (0 : BitVec 3) ++ flag ++ (0 : BitVec 2) ++ pid

/-- K: 0 = PES, 1 = PSI (10_state.md R41). -/
def kindOfBit (k : Bit) : Kind := if k = 1 then .psi else .pes

/-- The K bit of a kind (R41). -/
def bitOfKind : Kind → Bit
  | .pes => 0
  | .psi => 1

/-- A word that may set no field. -/
def plainWord (f : WordFields) (i : Instr) : Except DecodeError Instr :=
  if f.ccv = 0 ∧ f.di = 0 ∧ f.flag = 0 ∧ f.pid = 0 then .ok i else .error .unusedField

/-- A word that may set PID only. -/
def pidWord (f : WordFields) (i : Pid → Instr) : Except DecodeError Instr :=
  if f.ccv = 0 ∧ f.di = 0 ∧ f.flag = 0 then .ok (i f.pid) else .error .unusedField

/-- A word that may set FLAG and PID. -/
def flagPidWord (f : WordFields) (i : Bit → Pid → Instr) : Except DecodeError Instr :=
  if f.ccv = 0 ∧ f.di = 0 then .ok (i f.flag f.pid) else .error .unusedField

/-- The opcode map (R83). -/
def decodeFields (f : WordFields) : Except DecodeError Instr :=
  if f.rsv1 ≠ 0 ∨ f.rsv0 ≠ 0 then .error .reservedBits
  else if f.op = 0x00 then plainWord f .nop
  else if f.op = 0x01 then plainWord f .reset
  else if f.op = 0x10 then plainWord f .decodePacket
  else if f.op = 0x11 then plainWord f .encodePacket
  else if f.op = 0x20 then flagPidWord f fun h pid => .ccNext h pid
  else if f.op = 0x21 then .ok (.ccValidate f.ccv f.di f.flag f.pid)
  else if f.op = 0x30 then plainWord f .crc32
  else if f.op = 0x31 then plainWord f .decodeSection
  else if f.op = 0x32 then plainWord f .encodeSection
  else if f.op = 0x40 then plainWord f .decodePes
  else if f.op = 0x41 then plainWord f .encodePes
  else if f.op = 0x50 then flagPidWord f fun k pid => .split (kindOfBit k) pid
  else if f.op = 0x60 then flagPidWord f fun k pid => .openPid (kindOfBit k) pid
  else if f.op = 0x61 then pidWord f .closePid
  else if f.op = 0x62 then plainWord f .feed
  else if f.op = 0x63 then pidWord f .finish
  else if f.op = 0x64 then plainWord f .takeCompleted
  else if f.op = 0x65 then pidWord f .slotState
  else .error .unassignedOpcode

/-- The decoder: a legal word to its command, an illegal word to the reason (R81, R83, R86). -/
def decode (w : CommandWord) : Except DecodeError Instr := decodeFields (wordFields w)

/-- The encoder (R83, R85). -/
def encode : Instr → CommandWord
  | .nop => assemble 0x00 0 0 0 0
  | .reset => assemble 0x01 0 0 0 0
  | .decodePacket => assemble 0x10 0 0 0 0
  | .encodePacket => assemble 0x11 0 0 0 0
  | .ccNext h pid => assemble 0x20 0 0 h pid
  | .ccValidate cc di h pid => assemble 0x21 cc di h pid
  | .crc32 => assemble 0x30 0 0 0 0
  | .decodeSection => assemble 0x31 0 0 0 0
  | .encodeSection => assemble 0x32 0 0 0 0
  | .decodePes => assemble 0x40 0 0 0 0
  | .encodePes => assemble 0x41 0 0 0 0
  | .split k pid => assemble 0x50 0 0 (bitOfKind k) pid
  | .openPid k pid => assemble 0x60 0 0 (bitOfKind k) pid
  | .closePid pid => assemble 0x61 0 0 0 pid
  | .feed => assemble 0x62 0 0 0 0
  | .finish pid => assemble 0x63 0 0 0 pid
  | .takeCompleted => assemble 0x64 0 0 0 0
  | .slotState pid => assemble 0x65 0 0 0 pid

/-- One row of spec/opcode_table.json. -/
structure OpcodeRow where
  mnemonic : String
  pattern : CommandWord
  mask : CommandWord
  deriving DecidableEq, Repr

/-- The opcode table as the spec prints it: `pattern` is its "match" column. -/
def opcodeTable : List OpcodeRow :=
  [ ⟨"NOP", 0x00000000, 0xFFFFFFFF⟩, ⟨"RESET", 0x01000000, 0xFFFFFFFF⟩,
    ⟨"DECODE_PACKET", 0x10000000, 0xFFFFFFFF⟩, ⟨"ENCODE_PACKET", 0x11000000, 0xFFFFFFFF⟩,
    ⟨"CC_NEXT", 0x20000000, 0xFFFF6000⟩, ⟨"CC_VALIDATE", 0x21000000, 0xFF076000⟩ ] ++
  [ ⟨"CRC32", 0x30000000, 0xFFFFFFFF⟩, ⟨"DECODE_SECTION", 0x31000000, 0xFFFFFFFF⟩,
    ⟨"ENCODE_SECTION", 0x32000000, 0xFFFFFFFF⟩, ⟨"DECODE_PES", 0x40000000, 0xFFFFFFFF⟩,
    ⟨"ENCODE_PES", 0x41000000, 0xFFFFFFFF⟩, ⟨"SPLIT", 0x50000000, 0xFFFF6000⟩ ] ++
  [ ⟨"OPEN", 0x60000000, 0xFFFF6000⟩, ⟨"CLOSE", 0x61000000, 0xFFFFE000⟩,
    ⟨"FEED", 0x62000000, 0xFFFFFFFF⟩, ⟨"FINISH", 0x63000000, 0xFFFFE000⟩,
    ⟨"TAKE_COMPLETED", 0x64000000, 0xFFFFFFFF⟩, ⟨"SLOT_STATE", 0x65000000, 0xFFFFE000⟩ ]

/-- The mnemonic of a command, as the table spells it. -/
def mnemonicOf : Instr → String
  | .nop => "NOP"
  | .reset => "RESET"
  | .decodePacket => "DECODE_PACKET"
  | .encodePacket => "ENCODE_PACKET"
  | .ccNext _ _ => "CC_NEXT"
  | .ccValidate _ _ _ _ => "CC_VALIDATE"
  | .crc32 => "CRC32"
  | .decodeSection => "DECODE_SECTION"
  | .encodeSection => "ENCODE_SECTION"
  | .decodePes => "DECODE_PES"
  | .encodePes => "ENCODE_PES"
  | .split _ _ => "SPLIT"
  | .openPid _ _ => "OPEN"
  | .closePid _ => "CLOSE"
  | .feed => "FEED"
  | .finish _ => "FINISH"
  | .takeCompleted => "TAKE_COMPLETED"
  | .slotState _ => "SLOT_STATE"

/-- R332: the word matches this row under its mask. -/
def OpcodeRow.admits (row : OpcodeRow) (w : CommandWord) : Bool := (w &&& row.mask) == row.pattern

/-- The command an instruction word is read as, the word given as the number whose bit 0 is the word's least
significant bit. Every row of the table is one 32-bit word that the host hands over whole (R80, R71; log 13), so bits
above `nbits` are 0 and a longer number is no command word. -/
def decodeTableWord (nbits w : Nat) : Option Instr :=
  if nbits ≤ 32 ∧ w < 2 ^ nbits then (decode (BitVec.ofNat 32 w)).toOption else none

end Sys2Proof
end

