-- ==== Sys2Proof/Machine/State.lean ====
section
/-! DEFINITION. The state of the block (10_state.md R20, R25-R31, R44) as plain data, with the model's own host
interface beside it (log 2), the reasons a step can stop, and the reset state. -/

namespace Sys2Proof.Machine

/-- The model never faults: the block has no fault, no stuck state and no hang (60_exceptions.md R370; log 12). -/
inductive Fault where
  deriving DecidableEq, Repr

/-- Why a step has no meaning. -/
inductive Refusal where
  /-- Raised by exec's arm of an instruction the model gives no meaning yet; no arm does. Safe. -/
  | notModelled (mnemonic : String)
  /-- Raised by a command whose IN operand is of a type or length the block cannot receive (46_control.md R334,
  60_exceptions.md R370, I23; log 9). Safe: the hardware has no response for it either. -/
  | illTypedOperand
  /-- Raised by step when the parameters break R8: no such block can be built (R370, I24; log 10). Safe. -/
  | illegalParameters
  deriving DecidableEq, Repr

/-- A valid slot (R27). A slot with `valid = 0` is `none` in `State.S`: its other fields are unspecified and no rule
reads them (R44; log 6). -/
structure Slot where
  pid : Pid
  kind : Kind
  state : SlotPhase
  buf : Bytes
  target : Target
  deriving DecidableEq, Repr

/-- The block `st = (W, R, S, Q)` of R20 with its parameters (R8) and the host's side of the command port. -/
structure State where
  /-- The parameters of R8, fixed when the block is built; no step writes them (log 1). -/
  params : Params
  /-- Writer counters (R25): the PIDs whose counter is not 0, keys rising (log 7). -/
  W : List (Nat × Counter)
  /-- Reader counters (R26): the PIDs whose entry is not None, keys rising (log 7). -/
  R : List (Nat × Counter)
  /-- The depacketizer slots (R27), NSLOTS entries; `none` is a slot with valid = 0 (log 6). -/
  S : List (Option Slot)
  /-- The completed-unit queue (R30), head first. -/
  Q : List CompletedUnit
  /-- What the host does next, the input at the port first (log 2). -/
  inputs : List HostInput
  /-- The responses given so far (R42, R404), oldest first (log 2). -/
  responses : List Response
  deriving DecidableEq, Repr

/-- The reset state (R44, 70_reset_and_hazards.md R390) of a block with parameters `p`, the host having issued
nothing. -/
def State.resetWith (p : Params) : State :=
  { params := p, W := [], R := [], S := List.replicate p.nslots none, Q := [], inputs := [], responses := [] }

/-- The machine right after reset (R44), with the parameters of log 1. -/
def State.reset : State := State.resetWith Config.params

end Sys2Proof.Machine
end

