-- ==== Sys2Proof/Machine/Bits.lean ====
section
/-! DEFINITION. Byte strings and bit fields (00_scope.md R10-R12): slices, big-endian reads (20_memory.md R64) and
fields. Every format's byte order is decided here, once. -/

namespace Sys2Proof.Machine

/-- `b[i]` (R11). No rule reads past the end; the default is never used. -/
def byteAt (b : Bytes) (i : Nat) : Byte := b.getD i 0

/-- `b[i..j)` (R11), empty when j <= i. -/
def slice (b : Bytes) (i j : Nat) : Bytes := (b.drop i).take (j - i)

/-- The big-endian number a byte string spells (R12, R64). -/
def beNat (b : Bytes) : Nat := b.foldl (fun acc x => acc * 256 + x.toNat) 0

/-- `MemRead(b, off, n)` (R12). -/
def memRead (b : Bytes) (off n : Nat) : Nat := beNat (slice b off (off + n))

/-- `Field(b, off, n, lo + w - 1, lo)` (R12): the `w` bits from bit `lo` of the `n` bytes at `off`. -/
def field (b : Bytes) (off n lo w : Nat) : BitVec w := BitVec.ofNat w (memRead b off n >>> lo)

/-- `v[lo + w - 1 : lo]` (R10). -/
def bits {n : Nat} (v : BitVec n) (lo w : Nat) : BitVec w := v.extractLsb' lo w

/-- The four bytes of a 32-bit value, most significant first (`MemWrite` of R12; 30_encoding.md R103). -/
def be32 (v : BitVec 32) : Bytes := [bits v 24 8, bits v 16 8, bits v 8 8, bits v 0 8]

/-- The two bytes of a 16-bit value, most significant first. -/
def be16 (v : BitVec 16) : Bytes := [bits v 8 8, bits v 0 8]

/-- `Some`-ness as a flag bit. -/
def presentBit {α : Type} (o : Option α) : Bit := if o.isSome then 1 else 0

end Sys2Proof.Machine
end

