-- ==== Sys2Proof/Machine/Flags.lean ====
section
/-! DEFINITION. The block has no flags and no condition-code register (10_state.md R23). What a command reports
instead is its status and its events: their codes (60_exceptions.md R351, R352, R357) and the codes of verdicts,
kinds and slot states (R40, R41, R27). -/

namespace Sys2Proof.Machine

/-- Status OK (R351). -/
def statusOk : Byte := 0x00

/-- The status code of an error (R351). -/
def ErrorStatus.code : ErrorStatus → Byte
  | .syncByteMismatch _ => 0x01
  | .invalidAdaptationFieldLength _ => 0x02
  | .payloadTooLarge _ => 0x03
  | .sectionTooLong _ => 0x04
  | .crcMismatch _ _ => 0x05
  | .invalidStartCode _ => 0x06
  | .invalidTimestampMarker => 0x07
  | .incompletePayload _ _ => 0x09
  | .reservedAdaptationFieldControl _ => 0x10
  | .invalidSectionSyntax _ => 0x11
  | .malformedTable => 0x12
  | .malformedPesHeader => 0x13
  | .illegalCommand _ => 0x14
  | .pidNotOpen => 0x15
  | .noFreeSlot => 0x16
  | .queueEmpty => 0x17

/-- The error information a raised status puts into `out` (R352). -/
def ErrorStatus.info : ErrorStatus → Output
  | .syncByteMismatch b => .byteInfo b
  | .invalidAdaptationFieldLength l => .byteInfo l
  | .payloadTooLarge n => .sizeInfo n
  | .sectionTooLong n => .sizeInfo n
  | .crcMismatch e c => .crcInfo e c
  | .invalidStartCode b => .byteInfo b
  | .invalidTimestampMarker => .none
  | .incompletePayload d n => .lengthInfo d n
  | .reservedAdaptationFieldControl a => .afcInfo a
  | .invalidSectionSyntax b => .byteInfo b
  | .malformedTable => .none
  | .malformedPesHeader => .none
  | .illegalCommand w => .wordInfo w
  | .pidNotOpen => .none
  | .noFreeSlot => .none
  | .queueEmpty => .none

/-- The response of a command that completes with status OK (R42, R357). -/
def okResponse (out : Output) (events : List Event) : Response := ⟨statusOk, out, events⟩

/-- The response of a command that raises: the code, the information, no events (R42, R353). -/
def errorResponse (e : ErrorStatus) : Response := ⟨e.code, e.info, []⟩

/-- The response that carries a codec's result. -/
def resultResponse {α : Type} (out : α → Output) : Except ErrorStatus α → Response
  | .ok v => okResponse (out v) []
  | .error e => errorResponse e

/-- Verdict codes (R40). -/
def Verdict.code : Verdict → BitVec 2
  | .continuous => 0
  | .discontinuous => 1
  | .duplicate => 2

/-- Slot state codes (R27, R300). -/
def SlotPhase.code : SlotPhase → BitVec 2
  | .idle => 0
  | .accumulating => 1
  | .discarding => 2

/-- Filtered(NullPid) (R357). -/
def evFilteredNullPid : Event := ⟨0, 0⟩
/-- Filtered(TransportError) (R357). -/
def evFilteredTransportError : Event := ⟨0, 1⟩
/-- NotOpen (R357). -/
def evNotOpen : Event := ⟨1, 0⟩
/-- Duplicate (R357). -/
def evDuplicate : Event := ⟨2, 0⟩
/-- Discontinuity (R357). -/
def evDiscontinuity : Event := ⟨3, 0⟩
/-- UnitDropped(Discontinuity) (R357). -/
def evDroppedDiscontinuity : Event := ⟨4, 0⟩
/-- UnitDropped(EarlyStart) (R357). -/
def evDroppedEarlyStart : Event := ⟨4, 1⟩
/-- UnitDropped(PointerOverrun) (R357). -/
def evDroppedPointerOverrun : Event := ⟨4, 2⟩
/-- UnitDropped(Overflow) (R357). -/
def evDroppedOverflow : Event := ⟨4, 3⟩
/-- UnitCompleted (R357). -/
def evCompleted : Event := ⟨5, 0⟩
/-- UnitRejected(E), its argument the status code of E (R357). -/
def evRejected (e : ErrorStatus) : Event := ⟨6, e.code⟩
/-- UnitRejected(IncompletePayload) (R296). -/
def evRejectedIncomplete : Event := ⟨6, 0x09⟩
/-- QueueOverflow (R357). -/
def evQueueOverflow : Event := ⟨7, 0⟩
/-- Ignored (R357). -/
def evIgnored : Event := ⟨8, 0⟩

end Sys2Proof.Machine
end

