-- ==== Sys2Proof/Machine/Ops.lean ====
section
/-! DEFINITION. The named operations over the block's state: the counter tables (10_state.md R25, R26), the slots
(R27, R28), answering a command (R42), raising a status (00_scope.md R13, 60_exceptions.md R353) and taking the next
host input (20_memory.md R72). -/

namespace Sys2Proof.Machine

/-! ### Counter tables -/

/-- The entry of key `k`, if one is listed. -/
def tableRead {α : Type} : List (Nat × α) → Nat → Option α
  | [], _ => none
  | (k', v) :: rest, k => if k' = k then some v else tableRead rest k

/-- The table with the entry of key `k` made `v`; `none` removes it. Keys stay strictly rising. -/
def tableWrite {α : Type} : List (Nat × α) → Nat → Option α → List (Nat × α)
  | [], k, v => (v.map fun x => (k, x)).toList
  | (k', y) :: rest, k, v =>
    if k < k' then (v.map fun x => (k, x)).toList ++ (k', y) :: rest
    else if k' = k then (v.map fun x => (k, x)).toList ++ rest
    else (k', y) :: tableWrite rest k v

/-- The canonical form of a counter table: keys strictly rising, each a PID (R25, R26; log 7). -/
abbrev tableWf {α : Type} (t : List (Nat × α)) : Prop :=
  t.Pairwise (fun a b => a.1 < b.1) ∧ ∀ e ∈ t, e.1 < 8192

/-- W's canonical form lists no entry equal to what an unlisted PID reads as. -/
abbrev noZero (t : List (Nat × Counter)) : Prop := ∀ e ∈ t, e.2 ≠ 0

/-- `W[pid]` (R25): 0 where none is listed (R44). -/
def State.readW (s : State) (pid : Pid) : Counter := (tableRead s.W pid.toNat).getD 0

/-- `W[pid] <- v` (R25). -/
def State.writeW (s : State) (pid : Pid) (v : Counter) : State :=
  { s with W := tableWrite s.W pid.toNat (if v = 0 then none else some v) }

/-- `R[pid]` (R26): None where none is listed (R44). -/
def State.readR (s : State) (pid : Pid) : Option Counter := tableRead s.R pid.toNat

/-- `R[pid] <- v` (R26). -/
def State.writeR (s : State) (pid : Pid) (v : Option Counter) : State :=
  { s with R := tableWrite s.R pid.toNat v }

/-! ### Slots -/

/-- Whether an entry of S is valid and holds `pid`. -/
def holdsPid (pid : Pid) : Option Slot → Bool
  | none => false
  | some sl => sl.pid == pid

/-- `slot(pid)` (R28). -/
def State.slot (s : State) (pid : Pid) : Option Slot := (s.S.find? (holdsPid pid)).join

/-- The entry of S that holds `pid` becomes `v`; S is unchanged where no entry holds it. -/
def State.putSlot (s : State) (pid : Pid) (v : Option Slot) : State :=
  { s with S := s.S.set (s.S.findIdx (holdsPid pid)) v }

/-- The lowest entry of S with valid = 0 becomes `v` (45_depacketizer.md R281); S is unchanged where there is
none. -/
def State.fillFree (s : State) (v : Slot) : State :=
  { s with S := s.S.set (s.S.findIdx Option.isNone) (some v) }

/-- Whether some entry of S has valid = 0 (R281). -/
def State.hasFree (s : State) : Bool := s.S.any Option.isNone

/-- The slot OPEN writes (R281). -/
def freshSlot (pid : Pid) (kind : Kind) : Slot :=
  { pid := pid, kind := kind, state := .idle, buf := [], target := .unknown }

/-! ### The queue -/

/-- `Q <- q` (R30). -/
def State.putQ (s : State) (q : List CompletedUnit) : State := { s with Q := q }

/-! ### Reset -/

/-- Every element of W, R, S and Q at its reset value (R44, R390); the parameters are not state (R391). -/
def State.clear (s : State) : State :=
  { s with W := [], R := [], S := List.replicate s.params.nslots none, Q := [] }

/-! ### The command port -/

/-- The command at the port is answered: its response is given and the host's next input is at the port (R42,
R72). -/
def State.answer (s : State) (r : Response) : State :=
  { s with inputs := s.inputs.tail, responses := s.responses ++ [r] }

/-- The host's input at the port is used up without a response. -/
def State.consume (s : State) : State := { s with inputs := s.inputs.tail }

/-- `return v` (00_scope.md R13): the command completes with status OK and output `out`. -/
def complete (s : State) (out : Output) : Host.Outcome State Fault Refusal := .next (s.answer (okResponse out []))

/-- `raise E(info)` (00_scope.md R13, 60_exceptions.md R353, R361): what taking an exception is on this block. The
command ends with status E and its information, no events, and no state of the block written; the next command is
taken as usual (R350). There is nothing to return from (R362). -/
def raise (e : ErrorStatus) (s : State) : Host.Outcome State Fault Refusal := .next (s.answer (errorResponse e))

/-- The IN operand supplied with the command at the port (20_memory.md R61). -/
def State.operand (s : State) : Operand :=
  match s.inputs with
  | .command c :: _ => c.operand
  | _ => .none

/-- What the block finds at its port. -/
inductive Fetched where
  /-- The parameters break R8. -/
  | notBuilt
  /-- No input is waiting. -/
  | idle
  /-- The reset input is driven (R390). -/
  | resetInput
  /-- The word matches no row of the opcode table (R332). -/
  | illegal (w : CommandWord)
  /-- A legal command. -/
  | run (i : Instr)
  deriving DecidableEq, Repr

/-- The legality check of the command at the port, before any operand is looked at (46_control.md R332, R333). -/
def fetch (s : State) : Fetched :=
  if s.params.legal then
    match s.inputs with
    | [] => .idle
    | .resetInput :: _ => .resetInput
    | .command c :: _ =>
      match decode c.word with
      | .ok i => .run i
      | .error _ => .illegal c.word
  else .notBuilt

end Sys2Proof.Machine
end

