-- ==== Sys2Proof/Machine/Operands.lean ====
section
/-! DEFINITION. The IN operand forms (20_memory.md R61) with their typing (46_control.md R334): each gives the typed
value, or `none` where the block cannot receive what the host supplied. -/

namespace Sys2Proof.Machine

/-- A `Packet188` operand (R63). -/
def State.inPacket188 (s : State) : Option Bytes :=
  match s.operand with
  | .bytes b => if isPacket188 b then some b else none
  | _ => none

/-- A `Bytes` operand of any length (R61). -/
def State.inBytes (s : State) : Option Bytes :=
  match s.operand with
  | .bytes b => some b
  | _ => none

/-- A `TsPacket` operand (10_state.md R34). -/
def State.inTsPacket (s : State) : Option TsPacket :=
  match s.operand with
  | .tsPacket p => if p.wellTyped then some p else none
  | _ => none

/-- A `Section` operand (R37). -/
def State.inSection (s : State) : Option Section :=
  match s.operand with
  | .sec v => if v.wellTyped then some v else none
  | _ => none

/-- A `PesPacket` operand (R39). -/
def State.inPes (s : State) : Option PesPacket :=
  match s.operand with
  | .pes p => some p
  | _ => none

/-- A command with an IN operand: its meaning on the typed operand, or the refusal of R334 and R370. -/
def withOperand {α : Type} (o : Option α) (k : α → Host.Outcome State Fault Refusal) :
    Host.Outcome State Fault Refusal :=
  match o with
  | some v => k v
  | none => .refused .illTypedOperand

/-- The well-typed operand of zeros for the command a word is read as, where it takes one (log 3). -/
def zeroOperand (w : CommandWord) : Operand :=
  match decode w with
  | .ok .decodePacket | .ok .feed => .bytes (List.replicate 188 0)
  | .ok .encodePacket => .tsPacket
      { tei := 0, pusi := 0, tp := 0, pid := 0, tsc := 0, cc := 0, af := AdaptationField.empty, payload := none }
  | .ok .crc32 | .ok .decodeSection | .ok .decodePes | .ok (.split _ _) => .bytes []
  | .ok .encodeSection => .sec (.pat 0 ⟨0, 0, 0, 0⟩ [])
  | .ok .encodePes => .pes { streamId := 0, header := none, unbounded := 0, payload := [] }
  | _ => .none

/-- The word put at the command port, before what the host had queued (log 3). -/
def State.placeWord (s : State) (w : CommandWord) : State :=
  { s with inputs := .command { word := w, operand := zeroOperand w } :: s.inputs }

end Sys2Proof.Machine
end

