-- ==== Sys2Proof/Machine/Continuity.lean ====
section
/-! DEFINITION. The continuity tracker (41_continuity.md): CC_NEXT, CC_VALIDATE and the validator FEED shares. -/

namespace Sys2Proof.Machine

/-- `cc_check` (R171) on the entry `R[pid]`: the verdict and the entry afterwards. Counters are 4-bit, so the
successor of 15 is 0 (R173). -/
def ccCheck (entry : Option Counter) (c : Counter) (h di : Bit) : Verdict × Option Counter :=
  match entry with
  | none => (.continuous, some c)
  | some last =>
    if di = 1 then (.continuous, some c)
    else if h = 0 then
      if c = last then (.continuous, some last) else (.discontinuous, some c)
    else if c = last + 1 then (.continuous, some c)
    else if c = last then (.duplicate, some last)
    else (.discontinuous, some c)

/-- CC_NEXT (R170). -/
def execCcNext (h : Bit) (pid : Pid) (s : State) : Host.Outcome State Fault Refusal :=
  if h = 1 then complete (s.writeW pid (s.readW pid + 1)) (.counter (s.readW pid))
  else complete s (.counter (s.readW pid + 15))

/-- CC_VALIDATE (R172). Discontinuous is an output value, not an error (R175). -/
def execCcValidate (cc : Counter) (di h : Bit) (pid : Pid) (s : State) : Host.Outcome State Fault Refusal :=
  complete (s.writeR pid (ccCheck (s.readR pid) cc h di).2) (.verdict (ccCheck (s.readR pid) cc h di).1)

end Sys2Proof.Machine
end

