-- ==== Sys2Proof/Machine/Control.lean ====
section
/-! DEFINITION. Control (46_control.md): NOP, RESET, the reset input and illegal command words. -/

namespace Sys2Proof.Machine

/-- NOP (R330). -/
def execNop (s : State) : Host.Outcome State Fault Refusal := complete s .none

/-- RESET (R331): the reset state; partial and queued units are discarded without events. -/
def execReset (s : State) : Host.Outcome State Fault Refusal := complete s.clear .none

/-- The reset input (70_reset_and_hazards.md R390): the same effect as RESET. It is no command, so it is not
answered (log 5). -/
def resetInput (s : State) : Host.Outcome State Fault Refusal := .next s.clear.consume

/-- An illegal command word (R332): IllegalCommand with the word, no state written. -/
def illegalCommand (w : CommandWord) (s : State) : Host.Outcome State Fault Refusal := raise (.illegalCommand w) s

end Sys2Proof.Machine
end

