-- ==== Sys2Proof/Machine/Pes.lean ====
section
/-! DEFINITION. The PES packet codec (43_pes.md; layouts 30_encoding.md R104-R107): DECODE_PES and ENCODE_PES. -/

namespace Sys2Proof.Machine

/-- `has_opt_header(sid)` for sid >= 0xBC (R230, R105). -/
def hasOptHeader (sid : Byte) : Bool := !([0xBC, 0xBE, 0xBF, 0xF0, 0xF1, 0xF2, 0xF8, 0xFF] : Bytes).contains sid

/-- `ts_parse` (R231, R107): a 5-byte timestamp field with the expected prefix nibble and its marker bits. -/
def tsParse (t : Bytes) (pfx : BitVec 4) : Except ErrorStatus (BitVec 33) :=
  if bits (byteAt t 0) 4 4 ≠ pfx ∨ bits (byteAt t 0) 0 1 ≠ 1 ∨ bits (byteAt t 2) 0 1 ≠ 1 ∨ bits (byteAt t 4) 0 1 ≠ 1
  then .error .invalidTimestampMarker
  else .ok (bits (byteAt t 0) 1 3 ++ byteAt t 1 ++ bits (byteAt t 2) 1 7 ++ byteAt t 3 ++ bits (byteAt t 4) 1 7)

/-- `ts_bytes` (R231, R107). -/
def tsBytes (pfx : BitVec 4) (v : BitVec 33) : Bytes :=
  [pfx ++ bits v 30 3 ++ (1 : BitVec 1), bits v 22 8, bits v 15 7 ++ (1 : BitVec 1), bits v 7 8,
   bits v 0 7 ++ (1 : BitVec 1)]

/-- The error of a body too short for its header (R235): IncompletePayload in an unbounded packet, MalformedPesHeader
in a bounded one. -/
def shortBody (unb : Bit) (declared supplied : Nat) : ErrorStatus :=
  if unb = 1 then .incompletePayload declared supplied else .malformedPesHeader

/-- The bytes the flagged timestamps need (R232). -/
def timestampNeed (f : BitVec 2) : Nat := if f = 0b00 then 0 else if f = 0b10 then 5 else 10

/-- The PTS and DTS of a body, by PTS_DTS_flags (R232, R106): PTS first, then DTS. -/
def parseTimestamps (f : BitVec 2) (body : Bytes) : Except ErrorStatus (Option (BitVec 33) × Option (BitVec 33)) :=
  if f = 0b10 then
    match tsParse (slice body 3 8) 0b0010 with
    | .error e => .error e
    | .ok pts => .ok (some pts, none)
  else if f = 0b11 then
    match tsParse (slice body 3 8) 0b0011 with
    | .error e => .error e
    | .ok pts =>
      match tsParse (slice body 8 13) 0b0001 with
      | .error e => .error e
      | .ok dts => .ok (some pts, some dts)
  else .ok (none, none)

/-- A PES body with an optional header (R232, R106). The other flags of body[1] and the fields they announce are
skipped within the H bytes. -/
def decodePesBody (sid : Byte) (unb : Bit) (body : Bytes) : Except ErrorStatus PesPacket :=
  if body.length < 3 then .error (shortBody unb 9 (6 + body.length))
  else if bits (byteAt body 0) 6 2 ≠ 0b10 then .error .malformedPesHeader
  else
    let f := bits (byteAt body 1) 6 2
    let h := (byteAt body 2).toNat
    if f = 0b01 then .error .malformedPesHeader
    else if h < timestampNeed f then .error .malformedPesHeader
    else if body.length < 3 + h then .error (shortBody unb (9 + h) (6 + body.length))
    else
      match parseTimestamps f body with
      | .error e => .error e
      | .ok (pts, dts) =>
        .ok { streamId := sid
              header := some
                { scramblingControl := bits (byteAt body 0) 4 2, priority := bits (byteAt body 0) 3 1,
                  dataAlignmentIndicator := bits (byteAt body 0) 2 1, copyright := bits (byteAt body 0) 1 1,
                  originalOrCopy := bits (byteAt body 0) 0 1, pts := pts, dts := dts }
              unbounded := unb
              payload := body.drop (3 + h) }

/-- The body of a PES packet by its stream id class (R232, R230). -/
def decodePesClass (sid : Byte) (unb : Bit) (body : Bytes) : Except ErrorStatus PesPacket :=
  if hasOptHeader sid then decodePesBody sid unb body
  else .ok { streamId := sid, header := none, unbounded := unb, payload := body }

/-- `decode_pes` (R232): the checks in its order; L = 0 runs to the end of the input (R234), otherwise the packet is
exactly 6 + L bytes (R233). -/
def decodePes (e : Bytes) : Except ErrorStatus PesPacket :=
  if e.length < 6 then .error (.incompletePayload 6 e.length)
  else if slice e 0 3 ≠ [0x00, 0x00, 0x01] ∨ (byteAt e 3).toNat < 0xBC then .error (.invalidStartCode (byteAt e 3))
  else
    let l := memRead e 4 2
    if l = 0 then decodePesClass (byteAt e 3) 1 (e.drop 6)
    else if e.length < 6 + l then .error (.incompletePayload (6 + l) e.length)
    else decodePesClass (byteAt e 3) 0 (slice e 6 (6 + l))

/-- DECODE_PES (R232). No state is written. -/
def execDecodePes (s : State) : Host.Outcome State Fault Refusal :=
  withOperand s.inBytes fun e => .next (s.answer (resultResponse .pes (decodePes e)))

/-! ### Encoding -/

/-- PTS_DTS_flags of a header (R237). -/
def timestampFlags (h : PesHeader) : BitVec 2 :=
  match h.pts, h.dts with
  | none, _ => 0b00
  | some _, none => 0b10
  | some _, some _ => 0b11

/-- The timestamp bytes of a header (R237). -/
def timestampBytes (h : PesHeader) : Bytes :=
  match h.pts, h.dts with
  | none, _ => []
  | some pts, none => tsBytes 0b0010 pts
  | some pts, some dts => tsBytes 0b0011 pts ++ tsBytes 0b0001 dts

/-- The optional header (R237, R106): no ancillary fields and no stuffing. -/
def pesHeaderBytes (h : PesHeader) : Bytes :=
  [(0b10 : BitVec 2) ++ h.scramblingControl ++ h.priority ++ h.dataAlignmentIndicator ++ h.copyright ++ h.originalOrCopy,
   timestampFlags h ++ (0 : BitVec 6), BitVec.ofNat 8 (timestampBytes h).length] ++ timestampBytes h

/-- The bytes after byte 5 (R237). -/
def pesBody (p : PesPacket) : Bytes := (p.header.map pesHeaderBytes).getD [] ++ p.payload

/-- A PES packet with PES_packet_length `l` (R104, R237). -/
def pesBytes (p : PesPacket) (l : Nat) : Bytes :=
  [0x00, 0x00, 0x01, p.streamId] ++ be16 (BitVec.ofNat 16 l) ++ pesBody p

/-- Whether a header has a DTS and no PTS (R237). -/
def dtsWithoutPts (p : PesPacket) : Bool :=
  match p.header with
  | some h => h.dts.isSome && h.pts.isNone
  | none => false

/-- `encode_pes` (R237): the checks in its order; PES_packet_length counts the bytes after byte 5, or is 0 when
unbounded (R238). -/
def encodePes (p : PesPacket) : Except ErrorStatus Bytes :=
  if p.streamId.toNat < 0xBC then .error (.invalidStartCode p.streamId)
  else if hasOptHeader p.streamId ≠ p.header.isSome then .error .malformedPesHeader
  else if dtsWithoutPts p then .error .malformedPesHeader
  else if p.unbounded = 1 then .ok (pesBytes p 0)
  else if (pesBody p).length > 65535 then .error (.payloadTooLarge (pesBody p).length)
  else if (pesBody p).length = 0 then .error .malformedPesHeader
  else .ok (pesBytes p (pesBody p).length)

/-- ENCODE_PES (R237). No state is written. -/
def execEncodePes (s : State) : Host.Outcome State Fault Refusal :=
  withOperand s.inPes fun p => .next (s.answer (resultResponse .bytes (encodePes p)))

end Sys2Proof.Machine
end

