-- ==== Sys2Proof/Machine/Psi.lean ====
section
/-! DEFINITION. The CRC-32 checker and the PSI section codec (42_psi.md; layouts 30_encoding.md R98-R103): CRC32,
DECODE_SECTION, ENCODE_SECTION. -/

namespace Sys2Proof.Machine

/-! ### The checker -/

/-- One step of the CRC register (R190). -/
def crcShift (c : BitVec 32) : BitVec 32 := if c.msb then (c <<< 1) ^^^ 0x04C11DB7 else c <<< 1

/-- `n` steps of the register. -/
def crcShifts : Nat → BitVec 32 → BitVec 32
  | 0, c => c
  | n + 1, c => crcShifts n (crcShift c)

/-- One byte into the register (R190). -/
def crcByte (c : BitVec 32) (x : Byte) : BitVec 32 := crcShifts 8 (c ^^^ (x.setWidth 32 <<< 24))

/-- CRC-32/MPEG-2 (R190, R103): initial value all ones, no final XOR, no reflection. -/
def crc32 (x : Bytes) : BitVec 32 := x.foldl crcByte 0xFFFFFFFF

/-- CRC32 (R190). No state is written. -/
def execCrc32 (s : State) : Host.Outcome State Fault Refusal :=
  withOperand s.inBytes fun x => complete s (.crc (crc32 x))

/-! ### Decoding -/

/-- `parse_pat` (R197, R100): 4-byte entries in encounter order, MalformedTable where the length is no multiple
of 4. -/
def parsePat : Bytes → Except ErrorStatus (List PatEntry)
  | [] => .ok []
  | a :: b :: c :: d :: rest =>
    match parsePat rest with
    | .error e => .error e
    | .ok es => .ok ({ programNumber := field [a, b] 0 2 0 16, pid := field [c, d] 0 2 0 13 } :: es)
  | _ => .error .malformedTable

/-- `parse_desc` (R199, R102) with fuel; a loop of length P takes at most P turns. -/
def parseDescFuel : Nat → Bytes → Except ErrorStatus (List Descriptor)
  | _, [] => .ok []
  | 0, _ => .error .malformedTable
  | _, [_] => .error .malformedTable
  | fuel + 1, tag :: n :: rest =>
    if rest.length < n.toNat then .error .malformedTable
    else
      match parseDescFuel fuel (rest.drop n.toNat) with
      | .error e => .error e
      | .ok ds => .ok ({ tag := tag, data := rest.take n.toNat } :: ds)

/-- `parse_desc` (R199): the descriptors, which must consume x exactly. -/
def parseDesc (x : Bytes) : Except ErrorStatus (List Descriptor) := parseDescFuel x.length x

/-- The stream loop of `parse_pmt` (R198, R101) with fuel. -/
def parseStreamsFuel : Nat → Bytes → Except ErrorStatus (List PmtStream)
  | _, [] => .ok []
  | 0, _ => .error .malformedTable
  | fuel + 1, d =>
    if d.length < 5 then .error .malformedTable
    else
      let e := (field d 3 2 0 12).toNat
      if d.length < 5 + e then .error .malformedTable
      else
        match parseDesc (slice d 5 (5 + e)) with
        | .error err => .error err
        | .ok info =>
          match parseStreamsFuel fuel (d.drop (5 + e)) with
          | .error err => .error err
          | .ok sts =>
            .ok ({ streamType := byteAt d 0, elementaryPid := field d 1 2 0 13, esInfo := info } :: sts)

/-- The stream loop of `parse_pmt` (R198). -/
def parseStreams (d : Bytes) : Except ErrorStatus (List PmtStream) := parseStreamsFuel d.length d

/-- `parse_pmt` (R198): PCR_PID, program_info, streams. -/
def parsePmt (d : Bytes) : Except ErrorStatus (Pid × List Descriptor × List PmtStream) :=
  if d.length < 4 then .error .malformedTable
  else
    let p := (field d 2 2 0 12).toNat
    if d.length < 4 + p then .error .malformedTable
    else
      match parseDesc (slice d 4 (4 + p)) with
      | .error e => .error e
      | .ok info =>
        match parseStreams (d.drop (4 + p)) with
        | .error e => .error e
        | .ok sts => .ok (field d 0 2 0 13, info, sts)

/-- The long-form header fields of a section (R193, R98). -/
def commonOf (s : Bytes) : SectionCommon :=
  { version := bits (byteAt s 5) 1 5, currentNext := bits (byteAt s 5) 0 1, sectionNumber := byteAt s 6,
    lastSectionNumber := byteAt s 7 }

/-- Table dispatch (R196) of a section whose CRC has passed: `ext` is the table_id_extension, `data` the table
data. -/
def dispatchTable (s : Bytes) (data : Bytes) : Except ErrorStatus Section :=
  let ext := field s 3 2 0 16
  if byteAt s 0 = 0x00 then
    match parsePat data with
    | .error e => .error e
    | .ok programs => .ok (.pat ext (commonOf s) programs)
  else if byteAt s 0 = 0x02 then
    match parsePmt data with
    | .error e => .error e
    | .ok (pcrPid, info, streams) => .ok (.pmt ext (commonOf s) pcrPid info streams)
  else .ok (.other (byteAt s 0) (bits (byteAt s 1) 6 1) ext (commonOf s) data)

/-- section_length (R98). -/
def sectionLength (s : Bytes) : Nat := (field s 1 2 0 12).toNat

/-- The stored CRC_32 of a section with section_length `sl` (R98). -/
def storedCrc (s : Bytes) (sl : Nat) : BitVec 32 := field s (3 + sl - 4) 4 0 32

/-- `decode_section` (R193): the header checks of R191 in order, the CRC gate (R192), then the table. -/
def decodeSection (s : Bytes) : Except ErrorStatus Section :=
  if s.length < 3 then .error (.incompletePayload 3 s.length)
  else if bits (byteAt s 1) 7 1 = 0 then .error (.invalidSectionSyntax (byteAt s 1))
  else
    let sl := sectionLength s
    if sl > 1021 then .error (.sectionTooLong sl)
    else if s.length < 3 + sl then .error (.incompletePayload (3 + sl) s.length)
    else if sl < 9 then .error .malformedTable
    else if storedCrc s sl ≠ crc32 (slice s 0 (3 + sl - 4)) then
      .error (.crcMismatch (storedCrc s sl) (crc32 (slice s 0 (3 + sl - 4))))
    else dispatchTable s (slice s 8 (3 + sl - 4))

/-- DECODE_SECTION (R193). No state is written. -/
def execDecodeSection (s : State) : Host.Outcome State Fault Refusal :=
  withOperand s.inBytes fun x => .next (s.answer (resultResponse .sec (decodeSection x)))

/-! ### Encoding -/

/-- `desc_bytes` (R201). -/
def descBytes (ds : List Descriptor) : Bytes := ds.flatMap fun d => d.tag :: BitVec.ofNat 8 d.data.length :: d.data

/-- A 13-bit PID behind three reserved bits, written as ones (R100, R101). -/
def pidField (pid : Pid) : Bytes := [(0b111 : BitVec 3) ++ bits pid 8 5, bits pid 0 8]

/-- A 12-bit length behind four reserved bits, written as ones (R101). -/
def lengthField (n : Nat) : Bytes :=
  [(0b1111 : BitVec 4) ++ bits (BitVec.ofNat 12 n) 8 4, bits (BitVec.ofNat 12 n) 0 8]

/-- PAT table data (R200, R100). -/
def patData (programs : List PatEntry) : Bytes := programs.flatMap fun e => be16 e.programNumber ++ pidField e.pid

/-- PMT table data (R200, R101). -/
def pmtData (pcrPid : Pid) (info : List Descriptor) (streams : List PmtStream) : Bytes :=
  pidField pcrPid ++ lengthField (descBytes info).length ++ descBytes info ++
    streams.flatMap fun st =>
      st.streamType :: (pidField st.elementaryPid ++ lengthField (descBytes st.esInfo).length ++ descBytes st.esInfo)

/-- The section bytes for a table_id, private_indicator, table_id_extension, common fields and table data (R200),
with SectionTooLong above section_length 1021 (R194). -/
def sectionBytes (tid : Byte) (pi : Bit) (ext : BitVec 16) (c : SectionCommon) (data : Bytes) :
    Except ErrorStatus Bytes :=
  let sl := 9 + data.length
  if sl > 1021 then .error (.sectionTooLong sl)
  else
    let body : Bytes :=
      [tid, (1 : BitVec 1) ++ pi ++ (0b11 : BitVec 2) ++ bits (BitVec.ofNat 12 sl) 8 4, bits (BitVec.ofNat 12 sl) 0 8] ++
        be16 ext ++ [(0b11 : BitVec 2) ++ c.version ++ c.currentNext, c.sectionNumber, c.lastSectionNumber] ++ data
    .ok (body ++ be32 (crc32 body))

/-- `encode_section` (R200). -/
def encodeSection : Section → Except ErrorStatus Bytes
  | .pat ext c programs => sectionBytes 0x00 0 ext c (patData programs)
  | .pmt ext c pcrPid info streams => sectionBytes 0x02 0 ext c (pmtData pcrPid info streams)
  | .other tid pi ext c data =>
    if tid = 0x00 ∨ tid = 0x02 then .error .malformedTable else sectionBytes tid pi ext c data

/-- ENCODE_SECTION (R200). No state is written. -/
def execEncodeSection (s : State) : Host.Outcome State Fault Refusal :=
  withOperand s.inSection fun v => .next (s.answer (resultResponse .bytes (encodeSection v)))

end Sys2Proof.Machine
end

