-- ==== Sys2Proof/Machine/TsCodec.lean ====
section
/-! DEFINITION. The TS packet codec (40_ts_packet.md; layouts 30_encoding.md R90-R96): DECODE_PACKET and
ENCODE_PACKET. -/

namespace Sys2Proof.Machine

/-! ### Decoding -/

/-- `pcr_of` (R142, R95). The 6 reserved bits are not read. -/
def pcrOf (x : Bytes) : Pcr := { base := field x 0 5 7 33, ext := field x 4 2 0 9 }

/-- A PCR or OPCR, read when its flag is 1 (R142). `rest` is what the adaptation field still holds, `len` the
adaptation_field_length the error carries (R143). -/
def takePcr (len : Byte) (flag : Bit) (rest : Bytes) : Except ErrorStatus (Option Pcr × Bytes) :=
  if flag = 1 then
    if rest.length < 6 then .error (.invalidAdaptationFieldLength len)
    else .ok (some (pcrOf (rest.take 6)), rest.drop 6)
  else .ok (none, rest)

/-- splice_countdown, read when its flag is 1 (R142, R143). -/
def takeSplice (len : Byte) (flag : Bit) (rest : Bytes) : Except ErrorStatus (Option Byte × Bytes) :=
  if flag = 1 then
    match rest with
    | [] => .error (.invalidAdaptationFieldLength len)
    | x :: rest' => .ok (some x, rest')
  else .ok (none, rest)

/-- A length byte and that many bytes, read when the flag is 1 (R142, R143). -/
def takeCounted (len : Byte) (flag : Bit) (rest : Bytes) : Except ErrorStatus (Option Bytes × Bytes) :=
  if flag = 1 then
    match rest with
    | [] => .error (.invalidAdaptationFieldLength len)
    | n :: rest' =>
      if rest'.length < n.toNat then .error (.invalidAdaptationFieldLength len)
      else .ok (some (rest'.take n.toNat), rest'.drop n.toNat)
  else .ok (none, rest)

/-- `decode_af` (R142) on the adaptation field body, bytes 5 to 4 + L: no flags byte when L = 0 (R93), then the
flagged fields in the order of R94. What is left is stuffing and is not read. -/
def decodeAf (len : Byte) (body : Bytes) : Except ErrorStatus AdaptationField :=
  match body with
  | [] => .ok AdaptationField.empty
  | f :: r0 => do
    let (pcr, r1) ← takePcr len (bits f 4 1) r0
    let (opcr, r2) ← takePcr len (bits f 3 1) r1
    let (splice, r3) ← takeSplice len (bits f 2 1) r2
    let (priv, r4) ← takeCounted len (bits f 1 1) r3
    let (ext, _) ← takeCounted len (bits f 0 1) r4
    pure { di := bits f 7 1, rai := bits f 6 1, espi := bits f 5 1, pcr := pcr, opcr := opcr,
           spliceCountdown := splice, privateData := priv, extension := ext }

/-- The packet value of the header at bytes 0 to 3 (R90), an adaptation field and the payload from byte `pos`,
present when afc bit 0 is 1 (R91, R92). -/
def packetOf (b : Bytes) (af : AdaptationField) (pos : Nat) : TsPacket :=
  { tei := bits (byteAt b 1) 7 1, pusi := bits (byteAt b 1) 6 1, tp := bits (byteAt b 1) 5 1,
    pid := field b 1 2 0 13, tsc := bits (byteAt b 3) 6 2, cc := bits (byteAt b 3) 0 4, af := af,
    payload := if bits (byteAt b 3) 4 1 = 1 then some (slice b pos 188) else none }

/-- `decode_packet` (R141): the checks in its order, SyncByteMismatch first (R140). -/
def decodePacket (b : Bytes) : Except ErrorStatus TsPacket :=
  if byteAt b 0 ≠ 0x47 then .error (.syncByteMismatch (byteAt b 0))
  else if bits (byteAt b 3) 4 2 = 0 then .error (.reservedAdaptationFieldControl (bits (byteAt b 3) 4 2))
  else if bits (byteAt b 3) 5 1 = 1 then
    if 5 + (byteAt b 4).toNat > 188 then .error (.invalidAdaptationFieldLength (byteAt b 4))
    else
      match decodeAf (byteAt b 4) (slice b 5 (5 + (byteAt b 4).toNat)) with
      | .error e => .error e
      | .ok af => .ok (packetOf b af (5 + (byteAt b 4).toNat))
  else .ok (packetOf b AdaptationField.empty 4)

/-- DECODE_PACKET (R141). No state is written. -/
def execDecodePacket (s : State) : Host.Outcome State Fault Refusal :=
  withOperand s.inPacket188 fun b => .next (s.answer (resultResponse .tsPacket (decodePacket b)))

/-! ### Encoding -/

/-- `pcr_bytes` (R147, R95): the 6 reserved bits are written as ones. -/
def pcrBytes (x : Pcr) : Bytes :=
  [bits x.base 25 8, bits x.base 17 8, bits x.base 9 8, bits x.base 1 8,
   bits x.base 0 1 ++ (0b111111 : BitVec 6) ++ bits x.ext 8 1, bits x.ext 0 8]

/-- A length byte and the bytes (R94). -/
def countedBytes (d : Bytes) : Bytes := BitVec.ofNat 8 d.length :: d

/-- The flags byte (R93, R147). -/
def afFlags (af : AdaptationField) : Byte :=
  af.di ++ af.rai ++ af.espi ++ presentBit af.pcr ++ presentBit af.opcr ++ presentBit af.spliceCountdown ++
    presentBit af.privateData ++ presentBit af.extension

/-- `af_content` (R147): the adaptation field body without stuffing, empty exactly for AF_EMPTY (R33). -/
def afContent (af : AdaptationField) : Bytes :=
  if af = AdaptationField.empty then []
  else
    afFlags af :: ((af.pcr.map pcrBytes).getD [] ++ (af.opcr.map pcrBytes).getD [] ++ af.spliceCountdown.toList ++
      (af.privateData.map countedBytes).getD [] ++ (af.extension.map countedBytes).getD [])

/-- `need` (R146): the bytes the packet would take with no stuffing. -/
def packetNeed (p : TsPacket) : Nat :=
  4 + (p.payload.getD []).length + (if (afContent p.af).length > 0 then 1 + (afContent p.af).length else 0)

/-- The adaptation field, length byte included, that fills `s` bytes with the content `c` (R146, R148). -/
def afBytes (c : Bytes) (s : Nat) : Bytes :=
  let len := s - 1
  let body :=
    if len = 0 then []
    else if c = [] then 0x00 :: List.replicate (len - 1) 0xFF
    else c ++ List.replicate (len - c.length) 0xFF
  BitVec.ofNat 8 len :: body

/-- The TS header (R90) with the adaptation_field_control `afc` (R91). -/
def headerBytes (p : TsPacket) (afc : BitVec 2) : Bytes :=
  [0x47, p.tei ++ p.pusi ++ p.tp ++ bits p.pid 8 5, bits p.pid 0 8, p.tsc ++ afc ++ p.cc]

/-- Whether a packet value carries a full 184-byte payload, which leaves no adaptation field (R146). -/
def fullPayload (p : TsPacket) : Bool := (p.payload.getD []).length == 184

/-- The 188 bytes of a packet value that fits (R146). -/
def framePacket (p : TsPacket) : Bytes :=
  if fullPayload p then headerBytes p 0b01 ++ p.payload.getD []
  else
    headerBytes p ((1 : BitVec 1) ++ presentBit p.payload) ++
      afBytes (afContent p.af) (184 - (p.payload.getD []).length) ++ p.payload.getD []

/-- `encode_packet` (R146): PayloadTooLarge where header, adaptation field and payload cannot fit. -/
def encodePacket (p : TsPacket) : Except ErrorStatus Bytes :=
  if (p.payload.getD []).length > 184 then .error (.payloadTooLarge (packetNeed p))
  else if fullPayload p then
    if (afContent p.af).length > 0 then .error (.payloadTooLarge (packetNeed p)) else .ok (framePacket p)
  else if 1 + (afContent p.af).length > 184 - (p.payload.getD []).length then
    .error (.payloadTooLarge (packetNeed p))
  else .ok (framePacket p)

/-- ENCODE_PACKET (R146). No state is written. -/
def execEncodePacket (s : State) : Host.Outcome State Fault Refusal :=
  withOperand s.inTsPacket fun p => .next (s.answer (resultResponse .bytes (encodePacket p)))

end Sys2Proof.Machine
end

