-- ==== Sys2Proof/Machine/Depacketizer.lean ====
section
/-! DEFINITION. The depacketizer (45_depacketizer.md): OPEN, CLOSE, FEED, FINISH, TAKE_COMPLETED, SLOT_STATE and the
reassembly machine of a slot. -/

namespace Sys2Proof.Machine

/-! ### Slot lifecycle -/

/-- OPEN (R281): re-open in place, else the lowest free slot, else NoFreeSlot with nothing written. -/
def execOpen (kind : Kind) (pid : Pid) (s : State) : Host.Outcome State Fault Refusal :=
  if (s.slot pid).isSome then
    complete ((s.putSlot pid (some (freshSlot pid kind))).writeR pid none) .none
  else if s.hasFree then
    complete ((s.fillFree (freshSlot pid kind)).writeR pid none) .none
  else raise .noFreeSlot s

/-- CLOSE (R282). Units of the PID already in Q stay there. -/
def execClose (pid : Pid) (s : State) : Host.Outcome State Fault Refusal :=
  match s.slot pid with
  | none => raise .pidNotOpen s
  | some _ => complete ((s.putSlot pid none).writeR pid none) .none

/-! ### The reassembly machine -/

/-- What one FEED or FINISH works on: the slot of the PID, the queue, and the events emitted so far. -/
structure Reassembly where
  slot : Slot
  queue : List CompletedUnit
  events : List Event
  deriving DecidableEq, Repr

/-- `emit ev` (00_scope.md R13). -/
def Reassembly.emit (x : Reassembly) (e : Event) : Reassembly := { x with events := x.events ++ [e] }

/-- A slot in state `ph` with nothing accumulated. -/
def Slot.emptied (sl : Slot) (ph : SlotPhase) : Slot := { sl with state := ph, buf := [], target := .unknown }

/-- `drop(s)` (R284). -/
def Reassembly.drop (x : Reassembly) : Reassembly := { x with slot := x.slot.emptied .discarding }

/-- Complete (R291): the slot resets to Idle. -/
def Reassembly.toIdle (x : Reassembly) : Reassembly := { x with slot := x.slot.emptied .idle }

/-- The codec of a slot's kind on a whole unit (R291). -/
def decodeUnit (kind : Kind) (u : Bytes) : Except ErrorStatus UnitValue :=
  match kind with
  | .psi => (decodeSection u).map .sec
  | .pes => (decodePes u).map .pes

/-- `deliver(s, u)` (R284, R291, R294): UnitRejected, QueueOverflow, or the unit at the tail of Q. -/
def Reassembly.deliver (p : Params) (u : Bytes) (x : Reassembly) : Reassembly :=
  match decodeUnit x.slot.kind u with
  | .error e => x.emit (evRejected e)
  | .ok v =>
    if x.queue.length = p.qdepth then x.emit evQueueOverflow
    else ({ x with queue := x.queue ++ [{ pid := x.slot.pid, value := v }] } : Reassembly).emit evCompleted

/-- The target the length field in `buf` declares, once it is there (R288). -/
def declaredTarget (kind : Kind) (buf : Bytes) : Target :=
  match kind with
  | .psi => if buf.length ≥ 3 then .bounded (3 + (field buf 1 2 0 12).toNat) else .unknown
  | .pes =>
    if buf.length ≥ 6 then (if memRead buf 4 2 = 0 then .unbounded else .bounded (6 + memRead buf 4 2)) else .unknown

/-- The target of a slot, set when still Unknown (R284, R288). -/
def Slot.withTarget (sl : Slot) : Slot :=
  if sl.target = .unknown then { sl with target := declaredTarget sl.kind sl.buf } else sl

/-- `progress(s)` after its target is set (R284): Overflow (R293), completion (R291), or nothing. -/
def Reassembly.advance (p : Params) (x : Reassembly) : Reassembly :=
  match x.slot.target with
  | .unknown => x
  | .unbounded => if x.slot.buf.length > p.unboundedPesCap then (x.emit evDroppedOverflow).drop else x
  | .bounded n => if x.slot.buf.length ≥ n then x.toIdle.deliver p (x.slot.buf.take n) else x

/-- `progress(s)` (R284). -/
def Reassembly.progress (p : Params) (x : Reassembly) : Reassembly :=
  ({ x with slot := x.slot.withTarget }).advance p

/-- `s.buf <- s.buf ++ d` and `progress(s)`. -/
def Reassembly.append (p : Params) (d : Bytes) (x : Reassembly) : Reassembly :=
  ({ x with slot := { x.slot with buf := x.slot.buf ++ d } }).progress p

/-- A new unit starts (R284, R286): EarlyStart for an unfinished one, then `data` is accumulated. -/
def Reassembly.start (p : Params) (data : Bytes) (x : Reassembly) : Reassembly :=
  let y := if x.slot.state = .accumulating then (x.emit evDroppedEarlyStart).drop else x
  ({ y with slot := { y.slot with state := .accumulating, buf := data, target := .unknown } }).progress p

/-- A payload with pusi = 1 in a PSI slot (R287): the pointer field, its tail, the new section. -/
def Reassembly.startPsi (p : Params) (pay : Bytes) (x : Reassembly) : Reassembly :=
  match pay with
  | [] => (x.emit evDroppedPointerOverrun).drop
  | ptr :: rest =>
    if ptr.toNat > rest.length then (x.emit evDroppedPointerOverrun).drop
    else
      let y := if x.slot.state = .accumulating then x.append p (rest.take ptr.toNat) else x
      y.start p (rest.drop ptr.toNat)

/-- A payload with pusi = 1 (R284). -/
def Reassembly.startUnit (p : Params) (pay : Bytes) (x : Reassembly) : Reassembly :=
  match x.slot.kind with
  | .psi => x.startPsi p pay
  | .pes => x.start p pay

/-- A payload with pusi = 0 (R284, R295). -/
def Reassembly.continueUnit (p : Params) (pay : Bytes) (x : Reassembly) : Reassembly :=
  if x.slot.state = .accumulating then x.append p pay else x.emit evIgnored

/-- The loss of the in-flight unit on a Discontinuous verdict (R286). -/
def Reassembly.lose (x : Reassembly) : Reassembly :=
  let y := x.emit evDiscontinuity
  (if x.slot.state = .accumulating then y.emit evDroppedDiscontinuity else y).drop

/-- The payload stage of FEED (R284, R290). -/
def Reassembly.takePayload (p : Params) (pkt : TsPacket) (x : Reassembly) : Reassembly :=
  match pkt.payload with
  | none => x
  | some pay => if pkt.pusi = 1 then x.startUnit p pay else x.continueUnit p pay

/-- The state machine after the tracker's verdict (R284, R289, R305). -/
def Reassembly.run (p : Params) (pkt : TsPacket) (v : Verdict) (x : Reassembly) : Reassembly :=
  match v with
  | .duplicate => x.emit evDuplicate
  | .discontinuous => x.lose.takePayload p pkt
  | .continuous => x.takePayload p pkt

/-- A decoded packet on an open PID: the tracker and the state machine (R284, R285). -/
def feedSlot (p : TsPacket) (sl : Slot) (s : State) : State :=
  let check := ccCheck (s.readR p.pid) p.cc (presentBit p.payload) p.af.di
  let x := Reassembly.run s.params p check.1 { slot := sl, queue := s.Q, events := [] }
  (((s.writeR p.pid check.2).putSlot p.pid (some x.slot)).putQ x.queue).answer (okResponse .none x.events)

/-- A decoded packet: the filters and the open check (R285), then the slot. -/
def feedPacket (p : TsPacket) (s : State) : State :=
  if p.pid = 0x1FFF then s.answer (okResponse .none [evFilteredNullPid])
  else if p.tei = 1 then s.answer (okResponse .none [evFilteredTransportError])
  else
    match s.slot p.pid with
    | none => s.answer (okResponse .none [evNotOpen])
    | some sl => feedSlot p sl s

/-- FEED (R284): a packet that does not decode is raised and changes nothing. -/
def execFeed (s : State) : Host.Outcome State Fault Refusal :=
  withOperand s.inPacket188 fun b =>
    match decodePacket b with
    | .error e => raise e s
    | .ok p => .next (feedPacket p s)

/-! ### Ending a stream, reading results -/

/-- The unit in progress when FINISH arrives (R296). -/
def Reassembly.finish (p : Params) (x : Reassembly) : Reassembly :=
  (if x.slot.state = .accumulating then
    if x.slot.target = .unbounded then x.toIdle.deliver p x.slot.buf else x.emit evRejectedIncomplete
  else x).toIdle

/-- FINISH (R296). R is not touched. -/
def execFinish (pid : Pid) (s : State) : Host.Outcome State Fault Refusal :=
  match s.slot pid with
  | none => raise .pidNotOpen s
  | some sl =>
    let x := Reassembly.finish s.params { slot := sl, queue := s.Q, events := [] }
    .next (((s.putSlot pid (some x.slot)).putQ x.queue).answer (okResponse .none x.events))

/-- TAKE_COMPLETED (R298). -/
def execTakeCompleted (s : State) : Host.Outcome State Fault Refusal :=
  match s.Q with
  | [] => raise .queueEmpty s
  | u :: rest => complete (s.putQ rest) (.completedUnit u)

/-- The status SLOT_STATE reports (R300). -/
def slotStatusOf (sl : Slot) (last : Option Counter) : SlotStatus :=
  { kind := sl.kind, state := sl.state, buffered := sl.buf.length, target := sl.target, lastCc := last }

/-- SLOT_STATE (R300). No state is written. -/
def execSlotState (pid : Pid) (s : State) : Host.Outcome State Fault Refusal :=
  match s.slot pid with
  | none => raise .pidNotOpen s
  | some sl => complete s (.slotStatus (slotStatusOf sl (s.readR pid)))

end Sys2Proof.Machine
end

