-- ==== Sys2Proof/Machine/Packetizer.lean ====
section
/-! DEFINITION. The packetizer (44_packetizer.md): SPLIT. -/

namespace Sys2Proof.Machine

/-- The byte string SPLIT cuts: behind a pointer_field of 0 for PSI (R262), as it is for PES. -/
def splitStream (kind : Kind) (x : Bytes) : Bytes :=
  match kind with
  | .psi => 0x00 :: x
  | .pes => x

/-- The packet count `n` (R260, R265): 0 for an empty input (R267). -/
def splitCount (kind : Kind) (x : Bytes) : Nat := if x = [] then 0 else ((splitStream kind x).length + 183) / 184

/-- The payload of packet `i` (R260): 184 bytes of the stream; a short PSI chunk is filled with 0xFF (R263). -/
def splitChunk (kind : Kind) (x : Bytes) (i : Nat) : Bytes :=
  let ch := slice (splitStream kind x) (184 * i) (184 * (i + 1))
  match kind with
  | .psi => ch ++ List.replicate (184 - ch.length) 0xFF
  | .pes => ch

/-- The packet value `i` of a split whose first packet is stamped `w` (R260, R261, R264, R266). -/
def splitPacket (kind : Kind) (pid : Pid) (w : Counter) (x : Bytes) (i : Nat) : TsPacket :=
  { tei := 0, pusi := if i = 0 then 1 else 0, tp := 0, pid := pid, tsc := 0, cc := w + BitVec.ofNat 4 i,
    af := AdaptationField.empty, payload := some (splitChunk kind x i) }

/-- The packets of a split, in stream order (R260). Each payload is at most 184 bytes and its adaptation field is
empty, so encode_packet cannot raise (R260); Laws/Packetizer.lean proves it. -/
def splitPackets (kind : Kind) (pid : Pid) (w : Counter) (x : Bytes) : List Bytes :=
  (List.range (splitCount kind x)).map fun i => framePacket (splitPacket kind pid w x i)

/-- SPLIT (R260): the packets, and one write of `W[PID]` when there is a packet (R266, R267). -/
def execSplit (kind : Kind) (pid : Pid) (s : State) : Host.Outcome State Fault Refusal :=
  withOperand s.inBytes fun x =>
    complete (s.writeW pid (s.readW pid + BitVec.ofNat 4 (splitCount kind x)))
      (.packets (splitPackets kind pid (s.readW pid) x))

end Sys2Proof.Machine
end

