-- ==== Sys2Proof/Machine/Dispatch.lean ====
section
/-! DEFINITION. One arm per command: its meaning. -/

namespace Sys2Proof.Machine

def exec (i : Instr) (s : State) : Host.Outcome State Fault Refusal :=
  match i with
  | .nop => Sys2Proof.Machine.execNop s
  | .reset => Sys2Proof.Machine.execReset s
  | .decodePacket => Sys2Proof.Machine.execDecodePacket s
  | .encodePacket => Sys2Proof.Machine.execEncodePacket s
  | .ccNext h pid => Sys2Proof.Machine.execCcNext h pid s
  | .ccValidate cc di h pid => Sys2Proof.Machine.execCcValidate cc di h pid s
  | .crc32 => Sys2Proof.Machine.execCrc32 s
  | .decodeSection => Sys2Proof.Machine.execDecodeSection s
  | .encodeSection => Sys2Proof.Machine.execEncodeSection s
  | .decodePes => Sys2Proof.Machine.execDecodePes s
  | .encodePes => Sys2Proof.Machine.execEncodePes s
  | .split kind pid => Sys2Proof.Machine.execSplit kind pid s
  | .openPid kind pid => Sys2Proof.Machine.execOpen kind pid s
  | .closePid pid => Sys2Proof.Machine.execClose pid s
  | .feed => Sys2Proof.Machine.execFeed s
  | .finish pid => Sys2Proof.Machine.execFinish pid s
  | .takeCompleted => Sys2Proof.Machine.execTakeCompleted s
  | .slotState pid => Sys2Proof.Machine.execSlotState pid s

end Sys2Proof.Machine
end

