-- ==== Sys2Proof/Machine/Step.lean ====
section
/-! DEFINITION. One step: the input at the port is taken (00_scope.md R7, 46_control.md R333). -/

namespace Sys2Proof.Machine

/-- One step of the block. With no input waiting it is idle, without effect (60_exceptions.md R369; log 4). -/
def step (s : State) : Host.Outcome State Fault Refusal :=
  match fetch s with
  | .notBuilt => .refused .illegalParameters
  | .idle => .next s
  | .resetInput => resetInput s
  | .illegal w => illegalCommand w s
  | .run i => exec i s

/-- `s` with the word put at the command port, and with it the operand of zeros its command takes (log 3). -/
def State.withFetchWord (s : State) (_nbits w : Nat) : State := s.placeWord (BitVec.ofNat 32 w)

end Sys2Proof.Machine
end

