-- ==== Sys2Proof/Safety.lean ====
section
/-! DEFINITION. What counts as a good state of the block, and the relations between a state and its successor that
claims are stated in. -/

namespace Sys2Proof.Machine

/-- The buffer is short of its target, or within UNBOUNDED_PES_CAP (45_depacketizer.md R292, R293). -/
def Slot.withinTarget (p : Params) (sl : Slot) : Bool :=
  match sl.target with
  | .unknown => true
  | .bounded n => decide (sl.buf.length < n)
  | .unbounded => decide (sl.buf.length ≤ p.unboundedPesCap)

/-- A slot between commands (10_state.md R27): its buffer is empty and its target Unknown unless it is
Accumulating; then the target is what the length field in the buffer declares (R288) and the buffer is short of
it. -/
abbrev Slot.wf (p : Params) (sl : Slot) : Prop :=
  if sl.state = .accumulating then sl.target = declaredTarget sl.kind sl.buf ∧ sl.withinTarget p = true
  else sl.buf = [] ∧ sl.target = .unknown

/-- Two entries of S do not hold the same PID (R28). -/
def slotsApart : Option Slot → Option Slot → Bool
  | some a, some b => a.pid != b.pid
  | _, _ => true

/-- An entry of S is invalid or a good slot. -/
def entryWf (p : Params) : Option Slot → Bool
  | none => true
  | some sl => decide (sl.wf p)

/-- A section value of its type (R37): well typed, and no Other carries the table_id of a PAT or PMT. -/
def Section.inType (v : Section) : Bool :=
  v.wellTyped && match v with
    | .other tid _ _ _ _ => tid != 0x00 && tid != 0x02
    | _ => true

/-- A queued unit holds a value of its type (R31). -/
def CompletedUnit.inType (u : CompletedUnit) : Bool :=
  match u.value with
  | .sec v => v.inType
  | .pes _ => true

/-- The invariant of the block between commands: legal parameters (R8); canonical counter tables (R25, R26); NSLOTS
slots (R20), no PID twice (R28), each good (R27); at most QDEPTH units (R30), each of its type (R31). -/
abbrev State.Inv (s : State) : Prop :=
  s.params.legal ∧ tableWf s.W ∧ noZero s.W ∧ tableWf s.R ∧ s.S.length = s.params.nslots ∧
    s.S.Pairwise (fun a b => slotsApart a b = true) ∧ (∀ o ∈ s.S, entryWf s.params o = true) ∧
    s.Q.length ≤ s.params.qdepth ∧ ∀ u ∈ s.Q, u.inType = true

/-- No element of W, R, S or Q is written (00_scope.md R13), nor a parameter (R391). -/
abbrev BlockKept (s t : State) : Prop :=
  t.params = s.params ∧ t.W = s.W ∧ t.R = s.R ∧ t.S = s.S ∧ t.Q = s.Q

/-- The command at the port was answered with `r` (10_state.md R42, R404). -/
abbrev Answered (s t : State) (r : Response) : Prop :=
  t.inputs = s.inputs.tail ∧ t.responses = s.responses ++ [r]

/-- Every PID but `pid` keeps its reader entry and its slot (45_depacketizer.md R303). -/
abbrev OtherPidsKept (s t : State) (pid : Pid) : Prop :=
  ∀ q : Pid, q ≠ pid → t.readR q = s.readR q ∧ t.slot q = s.slot q

/-- Every PID but `pid` keeps its writer counter. -/
abbrev OtherWritersKept (s t : State) (pid : Pid) : Prop := ∀ q : Pid, q ≠ pid → t.readW q = s.readW q

/-- The words read as `i` are exactly the one whose number is `n` (30_encoding.md R80, R83). -/
abbrev WordIs (i : Instr) (n : Nat) : Prop := ∀ w : CommandWord, decode w = .ok i ↔ w.toNat = n

/-- `i` is answered with `r` and writes no state. -/
abbrev AnswersOnly (i : Instr) (s : State) (r : Response) : Prop :=
  ∃ t, exec i s = .next t ∧ BlockKept s t ∧ Answered s t r

/-- `n` steps, each from the state the one before left. -/
def run : Nat → State → Host.Outcome State Fault Refusal
  | 0, s => .next s
  | n + 1, s =>
    match step s with
    | .next t => run n t
    | stopped => stopped

/-! ### What FEED is judged by -/

/-- The PID is on slot `sl`, and the IN operand is a packet of 188 bytes that decodes to `p` and passes the filters
(45_depacketizer.md R285, stages 1 to 3). -/
abbrev FeedsOpen (s : State) (p : TsPacket) (sl : Slot) : Prop :=
  (∃ b, s.operand = .bytes b ∧ b.length = 188 ∧ decodePacket b = .ok p) ∧ p.pid ≠ 0x1FFF ∧ p.tei = 0 ∧
    s.slot p.pid = some sl

/-- The counter is the one the tracker expects (41_continuity.md R173, R176-R178): `h` is 1 where the packet carries
a payload. -/
abbrev InSequence (entry : Option Counter) (c : Counter) (h di : Bit) : Prop :=
  ∀ last ∈ entry, di = 1 ∨ (h = 0 ∧ c = last) ∨ (h = 1 ∧ c.toNat = (last.toNat + 1) % 16)

/-- The counter is repeated by a packet with a payload and no discontinuity_indicator (R174, R177, R178). -/
abbrev Repeated (entry : Option Counter) (c : Counter) (h di : Bit) : Prop := entry = some c ∧ h = 1 ∧ di = 0

/-- FEED ends with `r` in the packet's reader entry, `sl` in its slot, `q` in the queue and the events `ev`, and
writes nothing else. -/
abbrev FeedEnds (s : State) (pid : Pid) (r : Option Counter) (sl : Slot) (q : List CompletedUnit)
    (ev : List Event) : Prop :=
  ∃ t, exec .feed s = .next t ∧ t.readR pid = r ∧ t.slot pid = some sl ∧ OtherPidsKept s t pid ∧
    t.S.length = s.S.length ∧ t.W = s.W ∧ t.params = s.params ∧ t.Q = q ∧ Answered s t ⟨0x00, .none, ev⟩

/-- The codec a slot of kind `kind` hands its unit to (R291). -/
def unitCodec : Kind → Instr
  | .psi => .decodeSection
  | .pes => .decodePes

/-- The value of a unit as its codec answers it (10_state.md R31). -/
def UnitValue.output : UnitValue → Output
  | .sec v => .sec v
  | .pes v => .pes v

/-- What `deliver` leaves of the queue and what it emits, for the unit `u` of a slot of kind `kind` (R291, R294), by
the answer `r` that DECODE_SECTION or DECODE_PES gives to `u`. -/
abbrev Delivered (p : Params) (pid : Pid) (kind : Kind) (u : Bytes) (q q' : List CompletedUnit)
    (ev : List Event) : Prop :=
  ∃ r : Response, (∀ s : State, s.operand = .bytes u → AnswersOnly (unitCodec kind) s r) ∧
    if r.status ≠ 0x00 then q' = q ∧ ev = [⟨6, r.status⟩]
    else if q.length = p.qdepth then q' = q ∧ ev = [⟨7, 0⟩]
    else ∃ v : UnitValue, r.out = v.output ∧ q' = q ++ [⟨pid, v⟩] ∧ ev = [⟨5, 0⟩]

/-- What a slot, the queue and the events are once `buf` is accumulated (R288, R291-R294): the unit goes on, is
delivered, or overflows. -/
abbrev Accumulated (p : Params) (pid : Pid) (kind : Kind) (buf : Bytes) (q : List CompletedUnit) (sl : Slot)
    (q' : List CompletedUnit) (ev : List Event) : Prop :=
  match declaredTarget kind buf with
  | .unknown => sl = ⟨pid, kind, .accumulating, buf, .unknown⟩ ∧ q' = q ∧ ev = []
  | .bounded n =>
    if buf.length < n then sl = ⟨pid, kind, .accumulating, buf, .bounded n⟩ ∧ q' = q ∧ ev = []
    else sl = ⟨pid, kind, .idle, [], .unknown⟩ ∧ Delivered p pid kind (buf.take n) q q' ev
  | .unbounded =>
    if buf.length ≤ p.unboundedPesCap then sl = ⟨pid, kind, .accumulating, buf, .unbounded⟩ ∧ q' = q ∧ ev = []
    else sl = ⟨pid, kind, .discarding, [], .unknown⟩ ∧ q' = q ∧ ev = [⟨4, 3⟩]

/-- The command that feeds one packet. -/
def feedCommand (b : Bytes) : HostInput := .command { word := 0x62000000, operand := .bytes b }

/-! ### Values written out as numbers -/

/-- The bits of a byte, bit 7 first (20_memory.md R64). -/
def bitsMsbFirst (x : Byte) : List Bool := [7, 6, 5, 4, 3, 2, 1, 0].map fun i => x.getLsbD i

/-- One bit into the remainder register of the polynomial 0x04C11DB7 (42_psi.md R190, bit by bit). -/
def crcBit (c : BitVec 32) (b : Bool) : BitVec 32 := if c.msb != b then (c <<< 1) ^^^ 0x04C11DB7 else c <<< 1

/-- A byte string closed by its CRC, as a section is (30_encoding.md R98, R103). -/
def withCrc (x : Bytes) : Bytes := x ++ be32 (crc32 x)

/-- A bit of a byte string flipped: bit `j` of byte `k`. -/
def flipBit (x : Bytes) (k j : Nat) : Bytes := x.set k (byteAt x k ^^^ BitVec.ofNat 8 (2 ^ j))

/-! ### Layouts with their reserved bits anything -/

/-- The six bytes of a PCR or OPCR with the reserved bits `r`, as one number; no bytes where there is none
(30_encoding.md R94, R95). -/
abbrev ClockBytes (r : BitVec 6) (v : Option Pcr) (x : Bytes) : Prop :=
  match v with
  | none => x = []
  | some c => ∃ p0 p1 p2 p3 p4 p5 : Byte, x = [p0, p1, p2, p3, p4, p5] ∧
      p0.toNat * 2 ^ 40 + p1.toNat * 2 ^ 32 + p2.toNat * 2 ^ 24 + p3.toNat * 2 ^ 16 + p4.toNat * 2 ^ 8 + p5.toNat =
        c.base.toNat * 2 ^ 15 + r.toNat * 2 ^ 9 + c.ext.toNat

/-- A length byte and that many bytes; no bytes where there are none (R94). -/
abbrev CountedBytes (v : Option Bytes) (x : Bytes) : Prop :=
  match v with
  | none => x = []
  | some d => ∃ n : Byte, x = n :: d ∧ n.toNat = d.length

/-- `f` is the flags byte of `af` and `x` the fields it announces, in their order (R93, R94); `r` and `r'` are the
reserved bits of the PCR and the OPCR. -/
abbrev FlagsAndFields (r r' : BitVec 6) (af : AdaptationField) (f : Byte) (x : Bytes) : Prop :=
  f.toNat = af.di.toNat * 128 + af.rai.toNat * 64 + af.espi.toNat * 32 + (if af.pcr.isSome then 16 else 0) +
      (if af.opcr.isSome then 8 else 0) + (if af.spliceCountdown.isSome then 4 else 0) +
      (if af.privateData.isSome then 2 else 0) + (if af.extension.isSome then 1 else 0) ∧
    ∃ pcr opcr priv ext : Bytes, x = pcr ++ opcr ++ af.spliceCountdown.toList ++ priv ++ ext ∧
      ClockBytes r af.pcr pcr ∧ ClockBytes r' af.opcr opcr ∧ CountedBytes af.privateData priv ∧
      CountedBytes af.extension ext

/-- `x` is the descriptor loop of `ds`: tag, length and data of each, and nothing else (30_encoding.md R102). -/
abbrev DescriptorLoop (ds : List Descriptor) (x : Bytes) : Prop :=
  (∀ d ∈ ds, d.data.length < 256) ∧ x = ds.flatMap fun d => d.tag :: BitVec.ofNat 8 d.data.length :: d.data

/-- `x` is a 13-bit PID, a 12-bit length and a descriptor loop of that length, the reserved bits of the two anything
(30_encoding.md R101). -/
abbrev PidAndLoop (pid : Pid) (ds : List Descriptor) (x : Bytes) : Prop :=
  ∃ (a1 a0 l1 l0 : Byte) (y : Bytes), x = a1 :: a0 :: l1 :: l0 :: y ∧ a1.toNat % 32 * 256 + a0.toNat = pid.toNat ∧
    l1.toNat % 16 * 256 + l0.toNat = y.length ∧ DescriptorLoop ds y

/-- `x` is the table data of a PMT (R101): PCR_PID and program_info, then the streams in order, and nothing else. -/
abbrev PmtTableData (pcrPid : Pid) (info : List Descriptor) (streams : List PmtStream) (x : Bytes) : Prop :=
  ∃ (head : Bytes) (rows : List (PmtStream × Bytes)),
    x = head ++ (rows.flatMap fun e => e.1.streamType :: e.2) ∧ PidAndLoop pcrPid info head ∧
    (∀ e ∈ rows, PidAndLoop e.1.elementaryPid e.1.esInfo e.2) ∧ streams = rows.map Prod.fst

end Sys2Proof.Machine
end

