-- ==== Sys2Proof/Certificates/Slice0/Obligations.lean ====
section
/-! DEFINITION. The statements for the provers, one `def Obligations.<Name> : Prop` each, listed in OBLIGATIONS.json.
They are written over exec and step, with results given as numbers or through reads of the state. A statement about
the counter tables or the slots after a write assumes State.Inv, which every step keeps (StepKeepsInvariant) and which
holds after reset (ResetMeetsInvariant). -/

open Sys2Proof Sys2Proof.Machine

/-! ### The command port and the command word -/

/-- 46_control.md R333, 20_memory.md R72: the command at the port whose word decodes to `i` is run, with nothing
around it; an idle block and illegal parameters are other statements. -/
def Obligations.StepRunsDecodedCommand : Prop :=
  ∀ (s : State) (c : Command) (rest : List HostInput) (i : Instr),
    s.params.legal → s.inputs = .command c :: rest → decode c.word = .ok i → step s = exec i s

/-- 10_state.md R42, 60_exceptions.md R353, 00_scope.md R13, 70_reset_and_hazards.md R391: every command that completes
is answered exactly once, the next input comes to the port and no parameter changes; a command answered with a status
other than OK wrote no state and emitted no events. -/
def Obligations.EveryCommandIsAnsweredOnce : Prop :=
  ∀ (i : Instr) (s t : State), exec i s = .next t →
    t.params = s.params ∧ ∃ r, Answered s t r ∧ (r.status ≠ 0x00 → BlockKept s t ∧ r.events = [])

/-- 46_control.md R332, whole: the mask-and-match rule decides which words are run, and every other word is answered
with IllegalCommand whatever its operand is, no state written. -/
def Obligations.IllegalWordsAreAnswered : Prop :=
  ∀ (s : State) (c : Command) (rest : List HostInput), s.params.legal → s.inputs = .command c :: rest →
    ((∃ row ∈ opcodeTable, c.word &&& row.mask = row.pattern) →
      ∃ i, decode c.word = .ok i ∧ step s = exec i s) ∧
    ((∀ row ∈ opcodeTable, c.word &&& row.mask ≠ row.pattern) →
      ∃ t, step s = .next t ∧ BlockKept s t ∧ t.inputs = rest ∧
        t.responses = s.responses ++ [⟨0x14, .wordInfo c.word, []⟩])

/-- Sanity: some words written out from the encodings of R80, R83 and the rules' own examples (R260, R281, R282). -/
def Obligations.SampleWordsDecode : Prop :=
  decode 0x00000000 = .ok .nop ∧ decode 0x20008100 = .ok (.ccNext 1 0x100) ∧
  decode 0x21508021 = .ok (.ccValidate 5 0 1 0x21) ∧ decode 0x50008000 = .ok (.split .psi 0) ∧
  decode 0x60008100 = .ok (.openPid .psi 0x100) ∧ decode 0x61000044 = .ok (.closePid 0x44) ∧
  decode 0x62000000 = .ok .feed ∧ decode 0x65001FFF = .ok (.slotState 0x1FFF) ∧
  decode 0x00000001 = .error .unusedField ∧ decode 0x65002000 = .error .reservedBits

/-- R83, R85: the word of a command decodes to the command, every field at every value, and a legal word is the word of
the command it decodes to: no two legal words mean the same command. -/
def Obligations.DecodeAndEncodeAgree : Prop := ∀ (w : CommandWord) (i : Instr), decode w = .ok i ↔ encode i = w

/-! ### Reset, the invariant, and the whole machine -/

/-- 10_state.md R44: the reset state, for every parameter value; State.reset is one of these states. -/
def Obligations.ResetStateValues : Prop :=
  (∀ p : Params,
    (∀ pid : Pid, (State.resetWith p).readW pid = 0 ∧ (State.resetWith p).readR pid = none) ∧
    (State.resetWith p).S.length = p.nslots ∧ (∀ o ∈ (State.resetWith p).S, o = none) ∧ (State.resetWith p).Q = []) ∧
  State.reset = State.resetWith State.reset.params

/-- The invariant holds at reset, whatever legal parameters the block is built with (R8, R44). -/
def Obligations.ResetMeetsInvariant : Prop :=
  State.reset.Inv ∧ ∀ p : Params, p.legal → (State.resetWith p).Inv

/-- Every step keeps the invariant: canonical counter tables over 13-bit PIDs, NSLOTS slots, no PID in two slots,
every slot short of its target, at most QDEPTH units, each a value of its type (R20, R25-R31, R292, R293). -/
def Obligations.StepKeepsInvariant : Prop := ∀ s t : State, s.Inv → step s = .next t → t.Inv

/-- 46_control.md R331, whole. -/
def Obligations.ResetCommandClears : Prop :=
  WordIs .reset (0x01 * 2 ^ 24) ∧
  ∀ s : State, ∃ t, exec .reset s = .next t ∧
    (∀ pid : Pid, t.readW pid = 0 ∧ t.readR pid = none ∧ t.slot pid = none) ∧ (∀ o ∈ t.S, o = none) ∧
    t.S.length = s.params.nslots ∧ t.Q = [] ∧ t.params = s.params ∧ Answered s t ⟨0x00, .none, []⟩

/-- 70_reset_and_hazards.md R390: the reset input has the effect of RESET on W, R, S and Q. That it is not answered
is the model's reading (log 5); so is the step with nothing at the port, which changes nothing (60_exceptions.md R369;
log 4). -/
def Obligations.PortWithoutCommand : Prop :=
  ∀ s : State, s.params.legal →
    (s.inputs = [] → step s = .next s) ∧
    (∀ rest, s.inputs = .resetInput :: rest →
      ∃ t u, step s = .next t ∧ exec .reset s = .next u ∧ BlockKept u t ∧
        (∀ pid : Pid, t.readW pid = 0 ∧ t.readR pid = none ∧ t.slot pid = none) ∧ t.Q = [] ∧ t.inputs = rest ∧
        t.responses = s.responses)

/-- 46_control.md R334, 60_exceptions.md R370: exec answers every command whose operand has the type of 20_memory.md
R61, and refuses every other one by name. That the model refuses is log 9. -/
def Obligations.TypedOperandsAreAnswered : Prop :=
  ∀ (i : Instr) (s : State),
    if operandTyped i s.operand = true then ∃ t, exec i s = .next t
    else exec i s = .refused .illTypedOperand

/-- 60_exceptions.md R351, R352, R355: the status codes a step can answer with, 0x08 not among them, and the type of
the information each error carries. -/
def Obligations.StatusesAndTheirInformation : Prop :=
  ∀ (s t : State) (r : Response), step s = .next t → t.responses = s.responses ++ [r] →
    r.status = 0x00 ∨
    ((r.status = 0x01 ∨ r.status = 0x02 ∨ r.status = 0x06 ∨ r.status = 0x11) ∧ ∃ b, r.out = .byteInfo b) ∨
    ((r.status = 0x03 ∨ r.status = 0x04) ∧ ∃ n, r.out = .sizeInfo n) ∨
    (r.status = 0x05 ∧ ∃ e c, e ≠ c ∧ r.out = .crcInfo e c) ∨
    (r.status = 0x09 ∧ ∃ d n, n < d ∧ r.out = .lengthInfo d n) ∨
    (r.status = 0x10 ∧ r.out = .afcInfo 0) ∨
    (r.status = 0x14 ∧ ∃ w, r.out = .wordInfo w) ∨
    ((r.status = 0x07 ∨ r.status = 0x12 ∨ r.status = 0x13 ∨ r.status = 0x15 ∨ r.status = 0x16 ∨ r.status = 0x17) ∧
      r.out = .none)

/-- Who writes what (R25, R26, R30, 20_memory.md R69): a step of a command that changes W, R, S or Q is one of the
commands named. -/
def Obligations.OnlyNamedCommandsWrite : Prop :=
  ∀ (i : Instr) (s t : State), exec i s = .next t →
    (t.W ≠ s.W → i = .reset ∨ (∃ pid, i = .ccNext 1 pid) ∨ ∃ k pid, i = .split k pid) ∧
    (t.R ≠ s.R → i = .reset ∨ i = .feed ∨ (∃ cc di h pid, i = .ccValidate cc di h pid) ∨
      (∃ k pid, i = .openPid k pid) ∨ ∃ pid, i = .closePid pid) ∧
    (t.S ≠ s.S → i = .reset ∨ i = .feed ∨ (∃ k pid, i = .openPid k pid) ∨ (∃ pid, i = .closePid pid) ∨
      ∃ pid, i = .finish pid) ∧
    (t.Q ≠ s.Q → i = .reset ∨ i = .feed ∨ i = .takeCompleted ∨ ∃ pid, i = .finish pid)

/-- 46_control.md R330, whole. -/
def Obligations.NopDoesNothing : Prop :=
  WordIs .nop 0 ∧ ∀ s : State, AnswersOnly .nop s ⟨0x00, .none, []⟩

/-! ### The TS packet codec -/

/-- 40_ts_packet.md R140, R141, R145, 60_exceptions.md R359: the checks of DECODE_PACKET in their order. `b3` is the
fourth header byte, `l` the byte after it, the adaptation_field_length where there is one. -/
def Obligations.PacketChecksInOrder : Prop :=
  ∀ (s : State) (b0 b1 b2 b3 l : Byte) (rest : Bytes),
    s.operand = .bytes (b0 :: b1 :: b2 :: b3 :: l :: rest) → rest.length = 183 →
    if b0 ≠ 0x47 then AnswersOnly .decodePacket s ⟨0x01, .byteInfo b0, []⟩
    else if b3.toNat / 16 % 4 = 0 then AnswersOnly .decodePacket s ⟨0x10, .afcInfo 0, []⟩
    else if 2 ≤ b3.toNat / 16 % 4 ∧ 183 < l.toNat then AnswersOnly .decodePacket s ⟨0x02, .byteInfo l, []⟩
    else AnswersOnly .decodePacket s ⟨0x02, .byteInfo l, []⟩ ∧ 2 ≤ b3.toNat / 16 % 4 ∨
      ∃ p, AnswersOnly .decodePacket s ⟨0x00, .tsPacket p, []⟩

/-- R141, 30_encoding.md R90-R92: a packet with afc = 01, every header bit at its place. -/
def Obligations.PayloadOnlyPacketDecodes : Prop :=
  ∀ (s : State) (b1 b2 b3 : Byte) (pay : Bytes),
    s.operand = .bytes (0x47 :: b1 :: b2 :: b3 :: pay) → pay.length = 184 → b3.toNat / 16 % 4 = 1 →
    ∃ p : TsPacket, AnswersOnly .decodePacket s ⟨0x00, .tsPacket p, []⟩ ∧
      p.tei.toNat = b1.toNat / 128 ∧ p.pusi.toNat = b1.toNat / 64 % 2 ∧ p.tp.toNat = b1.toNat / 32 % 2 ∧
      p.pid.toNat = b1.toNat % 32 * 256 + b2.toNat ∧ p.tsc.toNat = b3.toNat / 64 ∧ p.cc.toNat = b3.toNat % 16 ∧
      p.af = AdaptationField.empty ∧ p.payload = some pay

/-- R142, R145, 30_encoding.md R90-R96: a packet with an adaptation field, which is empty (L = 0) or a flags byte, the
fields it announces and any stuffing: every header bit at its place, the field's value whatever its clocks' reserved
bits are, and the payload after the field. -/
def Obligations.AdaptationFieldDecodes : Prop :=
  ∀ (s : State) (b1 b2 b3 l : Byte) (af : AdaptationField) (field pay : Bytes),
    s.operand = .bytes (0x47 :: b1 :: b2 :: b3 :: l :: (field ++ pay)) →
    ((field = [] ∧ af = AdaptationField.empty) ∨
      ∃ (r r' : BitVec 6) (f : Byte) (x stuffing : Bytes), field = f :: (x ++ stuffing) ∧ FlagsAndFields r r' af f x) →
    l.toNat = field.length → l.toNat + pay.length = 183 → 2 ≤ b3.toNat / 16 % 4 →
    ∃ p : TsPacket, AnswersOnly .decodePacket s ⟨0x00, .tsPacket p, []⟩ ∧
      p.tei.toNat = b1.toNat / 128 ∧ p.pusi.toNat = b1.toNat / 64 % 2 ∧ p.tp.toNat = b1.toNat / 32 % 2 ∧
      p.pid.toNat = b1.toNat % 32 * 256 + b2.toNat ∧ p.tsc.toNat = b3.toNat / 64 ∧ p.cc.toNat = b3.toNat % 16 ∧
      p.af = af ∧ p.payload = (if b3.toNat / 16 % 4 = 3 then some pay else none)

/-- R143: an adaptation field that ends inside the fields its flags byte announces is InvalidAdaptationFieldLength(L),
whatever follows it. -/
def Obligations.AdaptationFieldOverrun : Prop :=
  ∀ (s : State) (b1 b2 b3 l f : Byte) (r r' : BitVec 6) (af : AdaptationField) (x rest : Bytes) (cut : Nat),
    s.operand = .bytes (0x47 :: b1 :: b2 :: b3 :: l :: f :: (x.take cut ++ rest)) → FlagsAndFields r r' af f x →
    cut < x.length → l.toNat = 1 + cut → 1 + cut + rest.length = 183 → 2 ≤ b3.toNat / 16 % 4 →
    AnswersOnly .decodePacket s ⟨0x02, .byteInfo l, []⟩

/-- R147, 30_encoding.md R93-R95: the adaptation field body of every value, its bytes as numbers: no bytes for
AF_EMPTY, otherwise the flags byte and the fields that are there, the clocks' reserved bits ones. -/
def Obligations.AdaptationFieldBytes : Prop :=
  ∀ af : AdaptationField, af.wellTyped = true →
    if af = AdaptationField.empty then afContent af = []
    else ∃ (f : Byte) (x : Bytes), afContent af = f :: x ∧ FlagsAndFields 63 63 af f x

/-- R146, R149: ENCODE_PACKET answers PayloadTooLarge(need) exactly where header, adaptation field and payload exceed 188
bytes, `need` being their size without stuffing; otherwise the packet, byte by byte (R148: the stuffing stands in the
adaptation field), 188 bytes in all. -/
def Obligations.EncodePacketResult : Prop :=
  WordIs .encodePacket (0x11 * 2 ^ 24) ∧
  ∀ (s : State) (p : TsPacket), s.operand = .tsPacket p → p.wellTyped = true →
    let pay := p.payload.getD []
    let c := afContent p.af
    let need := 4 + pay.length + (if c = [] then 0 else 1 + c.length)
    if need > 188 then AnswersOnly .encodePacket s ⟨0x03, .sizeInfo need, []⟩
    else
      ∃ (h1 h2 h3 : Byte) (field : Bytes),
        AnswersOnly .encodePacket s ⟨0x00, .bytes (0x47 :: h1 :: h2 :: h3 :: (field ++ pay)), []⟩ ∧
        h1.toNat = p.tei.toNat * 128 + p.pusi.toNat * 64 + p.tp.toNat * 32 + p.pid.toNat / 256 ∧
        h2.toNat = p.pid.toNat % 256 ∧
        h3.toNat = p.tsc.toNat * 64 + (if field = [] then 1 else if p.payload = none then 2 else 3) * 16 +
          p.cc.toNat ∧
        field.length + pay.length = 184 ∧
        (field ≠ [] → ∃ (l : Byte) (n : Nat), l.toNat = 183 - pay.length ∧
          field = l :: ((if c = [] ∧ l ≠ 0 then [0x00] else c) ++ List.replicate n 0xFF))

/-- R150: DECODE_PACKET gives back the packet value ENCODE_PACKET was given, PCR and OPCR bit for bit. -/
def Obligations.PacketRoundTrip : Prop :=
  ∀ (s t s' : State) (p : TsPacket) (b : Bytes), s.operand = .tsPacket p → exec .encodePacket s = .next t →
    t.responses = s.responses ++ [⟨0x00, .bytes b, []⟩] → s'.operand = .bytes b →
    AnswersOnly .decodePacket s' ⟨0x00, .tsPacket p, []⟩

/-! ### The continuity tracker -/

/-- 41_continuity.md R170, whole, with the frame. -/
def Obligations.CcNextResult : Prop :=
  (∀ h pid, WordIs (.ccNext h pid) (0x20 * 2 ^ 24 + h.toNat * 2 ^ 15 + pid.toNat)) ∧
  ∀ (s : State) (h : Bit) (pid : Pid), s.Inv →
    ∃ (t : State) (c : Counter), exec (.ccNext h pid) s = .next t ∧ Answered s t ⟨0x00, .counter c, []⟩ ∧
      (h = 1 → c = s.readW pid ∧ (t.readW pid).toNat = ((s.readW pid).toNat + 1) % 16) ∧
      (h = 0 → c.toNat = ((s.readW pid).toNat + 15) % 16 ∧ t.W = s.W) ∧
      OtherWritersKept s t pid ∧ t.R = s.R ∧ t.S = s.S ∧ t.Q = s.Q ∧ t.params = s.params

/-- R171, R172, with the verdict codes and the frame: the verdict and the reader entry afterwards, which is the
received counter in every case. -/
def Obligations.CcValidateResult : Prop :=
  (∀ cc di h pid, WordIs (.ccValidate cc di h pid)
    (0x21 * 2 ^ 24 + cc.toNat * 2 ^ 20 + di.toNat * 2 ^ 19 + h.toNat * 2 ^ 15 + pid.toNat)) ∧
  (Verdict.continuous.code = 0 ∧ Verdict.discontinuous.code = 1 ∧ Verdict.duplicate.code = 2) ∧
  ∀ (s : State) (cc : Counter) (di h : Bit) (pid : Pid), s.Inv →
    ∃ (t : State) (v : Verdict), exec (.ccValidate cc di h pid) s = .next t ∧
      Answered s t ⟨0x00, .verdict v, []⟩ ∧ t.readR pid = some cc ∧
      (InSequence (s.readR pid) cc h di → v = .continuous) ∧
      (Repeated (s.readR pid) cc h di → v = .duplicate ∧ t.R = s.R) ∧
      (¬ InSequence (s.readR pid) cc h di → ¬ Repeated (s.readR pid) cc h di → v = .discontinuous) ∧
      (∀ q, q ≠ pid → t.readR q = s.readR q) ∧ t.W = s.W ∧ t.S = s.S ∧ t.Q = s.Q ∧ t.params = s.params

/-! ### The CRC checker and the PSI section codec -/

/-- 42_psi.md R190: CRC32 is the remainder register run over the message bits, bit 7 of each byte first, from all
ones. -/
def Obligations.CrcIsBitSerialRemainder : Prop :=
  WordIs .crc32 (0x30 * 2 ^ 24) ∧
  ∀ (s : State) (x : Bytes), s.operand = .bytes x →
    AnswersOnly .crc32 s ⟨0x00, .crc ((x.flatMap bitsMsbFirst).foldl crcBit 0xFFFFFFFF), []⟩

/-- R191, R192: the header checks in their order, then the CRC gate; what passes both is answered with OK or
MalformedTable. -/
def Obligations.SectionChecksInOrder : Prop :=
  ∀ (s : State) (x : Bytes), s.operand = .bytes x →
    let sl := (byteAt x 1).toNat % 16 * 256 + (byteAt x 2).toNat
    let stored : BitVec 32 := byteAt x (sl - 1) ++ byteAt x sl ++ byteAt x (sl + 1) ++ byteAt x (sl + 2)
    let computed := crc32 (x.take (sl - 1))
    if x.length < 3 then AnswersOnly .decodeSection s ⟨0x09, .lengthInfo 3 x.length, []⟩
    else if (byteAt x 1).toNat < 128 then AnswersOnly .decodeSection s ⟨0x11, .byteInfo (byteAt x 1), []⟩
    else if 1021 < sl then AnswersOnly .decodeSection s ⟨0x04, .sizeInfo sl, []⟩
    else if x.length < 3 + sl then AnswersOnly .decodeSection s ⟨0x09, .lengthInfo (3 + sl) x.length, []⟩
    else if sl < 9 then AnswersOnly .decodeSection s ⟨0x12, .none, []⟩
    else if stored ≠ computed then AnswersOnly .decodeSection s ⟨0x05, .crcInfo stored computed, []⟩
    else AnswersOnly .decodeSection s ⟨0x12, .none, []⟩ ∨
      ∃ v, AnswersOnly .decodeSection s ⟨0x00, .sec v, []⟩

/-- R193, R195, R196, 30_encoding.md R98: a section with a table_id other than 0x00 and 0x02 and a good CRC, every
field at its bits, the reserved bits and the bytes after the section ignored. -/
def Obligations.OtherSectionDecodes : Prop :=
  ∀ (s : State) (tid b1 b2 e1 e2 b5 sn lsn : Byte) (data trailing : Bytes),
    s.operand = .bytes (withCrc (tid :: b1 :: b2 :: e1 :: e2 :: b5 :: sn :: lsn :: data) ++ trailing) →
    128 ≤ b1.toNat → b1.toNat % 16 * 256 + b2.toNat = 9 + data.length → data.length ≤ 1012 →
    tid ≠ 0x00 → tid ≠ 0x02 →
    ∃ (pi : Bit) (ext : BitVec 16) (c : SectionCommon),
      AnswersOnly .decodeSection s ⟨0x00, .sec (.other tid pi ext c data), []⟩ ∧
      pi.toNat = b1.toNat / 64 % 2 ∧ ext.toNat = e1.toNat * 256 + e2.toNat ∧
      c.version.toNat = b5.toNat / 2 % 32 ∧ c.currentNext.toNat = b5.toNat % 2 ∧ c.sectionNumber = sn ∧
      c.lastSectionNumber = lsn

/-- R197, R204: the programs of a PAT in encounter order, from entries whose three reserved bits `r` are anything;
table data that is no multiple of 4 bytes is MalformedTable. -/
def Obligations.PatSectionDecodes : Prop :=
  ∀ (s : State) (b1 b2 e1 e2 b5 sn lsn : Byte) (rows : List (BitVec 3 × PatEntry)) (more trailing : Bytes),
    let data := (rows.flatMap fun e => [bits e.2.programNumber 8 8, bits e.2.programNumber 0 8,
      e.1 ++ bits e.2.pid 8 5, bits e.2.pid 0 8]) ++ more
    s.operand = .bytes (withCrc (0x00 :: b1 :: b2 :: e1 :: e2 :: b5 :: sn :: lsn :: data) ++ trailing) →
    128 ≤ b1.toNat → b1.toNat % 16 * 256 + b2.toNat = 9 + data.length → data.length ≤ 1012 → more.length < 4 →
    if more = [] then
      ∃ (ext : BitVec 16) (c : SectionCommon),
        AnswersOnly .decodeSection s ⟨0x00, .sec (.pat ext c (rows.map Prod.snd)), []⟩ ∧
        ext.toNat = e1.toNat * 256 + e2.toNat ∧ c.version.toNat = b5.toNat / 2 % 32 ∧
        c.currentNext.toNat = b5.toNat % 2 ∧ c.sectionNumber = sn ∧ c.lastSectionNumber = lsn
    else AnswersOnly .decodeSection s ⟨0x12, .none, []⟩

/-- R198, R199, R204: the table data of a PMT, whatever its reserved bits are, decodes to its PCR_PID, descriptors and
streams in encounter order; table data that is too short for its header, whose program_info_length runs past it, or
that is no PMT table data at all (a stream header cut short, an ES_info_length that runs past it, a descriptor loop
that its descriptors do not fill exactly) is MalformedTable. -/
def Obligations.PmtHeaderOverrun : Prop :=
  ∀ (s : State) (b1 b2 e1 e2 b5 sn lsn : Byte) (data trailing : Bytes),
    s.operand = .bytes (withCrc (0x02 :: b1 :: b2 :: e1 :: e2 :: b5 :: sn :: lsn :: data) ++ trailing) →
    128 ≤ b1.toNat → b1.toNat % 16 * 256 + b2.toNat = 9 + data.length → data.length ≤ 1012 →
    (∀ pcrPid info streams, PmtTableData pcrPid info streams data →
      ∃ (pn : BitVec 16) (c : SectionCommon),
        AnswersOnly .decodeSection s ⟨0x00, .sec (.pmt pn c pcrPid info streams), []⟩ ∧
        pn.toNat = e1.toNat * 256 + e2.toNat ∧ c.version.toNat = b5.toNat / 2 % 32 ∧
        c.currentNext.toNat = b5.toNat % 2 ∧ c.sectionNumber = sn ∧ c.lastSectionNumber = lsn) ∧
    ((data.length < 4 ∨ data.length < 4 + ((byteAt data 2).toNat % 16 * 256 + (byteAt data 3).toNat)) →
      AnswersOnly .decodeSection s ⟨0x12, .none, []⟩) ∧
    ((¬ ∃ pcrPid info streams, PmtTableData pcrPid info streams data) →
      AnswersOnly .decodeSection s ⟨0x12, .none, []⟩)

/-- R200, R201: the bytes of every section value, or its error. `tid`, `pi`, `ext` and `data` are the case's table_id,
private_indicator, table_id_extension and table data. -/
def Obligations.EncodeSectionResult : Prop :=
  WordIs .encodeSection (0x32 * 2 ^ 24) ∧
  ∀ (s : State) (v : Section), s.operand = .sec v → v.wellTyped = true →
    let pidBytes : Pid → Bytes := fun p => [BitVec.ofNat 8 (224 + p.toNat / 256), BitVec.ofNat 8 (p.toNat % 256)]
    let loop : List Descriptor → Bytes := fun ds =>
      let x := ds.flatMap fun d => [d.tag, BitVec.ofNat 8 d.data.length] ++ d.data
      [BitVec.ofNat 8 (240 + x.length / 256), BitVec.ofNat 8 (x.length % 256)] ++ x
    let written : Byte → Bit → BitVec 16 → SectionCommon → Bytes → Prop := fun tid pi ext c data =>
      let sl := 9 + data.length
      if sl > 1021 then AnswersOnly .encodeSection s ⟨0x04, .sizeInfo sl, []⟩
      else
        let body := [tid, BitVec.ofNat 8 (128 + pi.toNat * 64 + 48 + sl / 256), BitVec.ofNat 8 (sl % 256),
          BitVec.ofNat 8 (ext.toNat / 256), BitVec.ofNat 8 (ext.toNat % 256),
          BitVec.ofNat 8 (192 + c.version.toNat * 2 + c.currentNext.toNat), c.sectionNumber, c.lastSectionNumber] ++ data
        AnswersOnly .encodeSection s ⟨0x00, .bytes (withCrc body), []⟩ ∧ (withCrc body).length = 3 + sl
    match v with
    | .pat tsid c programs => written 0x00 0 tsid c
        (programs.flatMap fun e => [BitVec.ofNat 8 (e.programNumber.toNat / 256),
          BitVec.ofNat 8 (e.programNumber.toNat % 256)] ++ pidBytes e.pid)
    | .pmt pn c pcrPid info streams => written 0x02 0 pn c
        (pidBytes pcrPid ++ loop info ++ streams.flatMap fun st =>
          [st.streamType] ++ pidBytes st.elementaryPid ++ loop st.esInfo)
    | .other tid pi ext c data =>
        if tid = 0x00 ∨ tid = 0x02 then AnswersOnly .encodeSection s ⟨0x12, .none, []⟩
        else written tid pi ext c data

/-- R202, with the trailing bytes of R195: DECODE_SECTION gives back the section value ENCODE_SECTION was given. -/
def Obligations.SectionRoundTrip : Prop :=
  ∀ (s t s' : State) (v : Section) (x trailing : Bytes), s.operand = .sec v → exec .encodeSection s = .next t →
    t.responses = s.responses ++ [⟨0x00, .bytes x, []⟩] → s'.operand = .bytes (x ++ trailing) →
    AnswersOnly .decodeSection s' ⟨0x00, .sec v, []⟩

/-- R203: one bit flipped in a section that DECODE_SECTION accepts, outside the section_syntax_indicator and
section_length, is CrcMismatch; the section_syntax_indicator flipped is InvalidSectionSyntax. -/
def Obligations.CrcGateCatchesBitFlips : Prop :=
  ∀ (s t s' : State) (x : Bytes) (v : Section) (k j : Nat), s.operand = .bytes x →
    exec .decodeSection s = .next t → t.responses = s.responses ++ [⟨0x00, .sec v, []⟩] →
    x.length = 3 + ((byteAt x 1).toNat % 16 * 256 + (byteAt x 2).toNat) → k < x.length → j < 8 →
    s'.operand = .bytes (flipBit x k j) →
    ((k ≠ 1 ∨ j ≠ 7) → (k ≠ 1 ∨ 4 ≤ j) → k ≠ 2 →
      ∃ stored computed, AnswersOnly .decodeSection s' ⟨0x05, .crcInfo stored computed, []⟩) ∧
    (k = 1 → j = 7 → AnswersOnly .decodeSection s' ⟨0x11, .byteInfo (byteAt x 1 - 128), []⟩)

/-! ### The PES codec -/

/-- 43_pes.md R230, R232, R233: the packet checks in their order, then a packet whose stream id has no optional
header. `l` is PES_packet_length. -/
def Obligations.PesChecksInOrder : Prop :=
  ∀ (s : State) (e : Bytes), s.operand = .bytes e →
    let sid := byteAt e 3
    let l := (byteAt e 4).toNat * 256 + (byteAt e 5).toNat
    if e.length < 6 then AnswersOnly .decodePes s ⟨0x09, .lengthInfo 6 e.length, []⟩
    else if byteAt e 0 ≠ 0 ∨ byteAt e 1 ≠ 0 ∨ byteAt e 2 ≠ 1 ∨ sid.toNat < 0xBC then
      AnswersOnly .decodePes s ⟨0x06, .byteInfo sid, []⟩
    else if l ≠ 0 ∧ e.length < 6 + l then AnswersOnly .decodePes s ⟨0x09, .lengthInfo (6 + l) e.length, []⟩
    else if sid ∈ ([0xBC, 0xBE, 0xBF, 0xF0, 0xF1, 0xF2, 0xF8, 0xFF] : Bytes) then
      AnswersOnly .decodePes s
        ⟨0x00, .pes ⟨sid, none, if l = 0 then 1 else 0, (if l = 0 then e else e.take (6 + l)).drop 6⟩, []⟩
    else ∃ r, AnswersOnly .decodePes s r

/-- R231, R232, R235, R359: the header errors of a stream id with an optional header, in their order. `body` is the
packet after byte 5; `h` is PES_header_data_length, `f` PTS_DTS_flags. -/
def Obligations.PesHeaderErrorsInOrder : Prop :=
  ∀ (s : State) (sid l1 l0 : Byte) (body : Bytes), s.operand = .bytes (0x00 :: 0x00 :: 0x01 :: sid :: l1 :: l0 :: body) →
    0xBC ≤ sid.toNat → sid ∉ ([0xBC, 0xBE, 0xBF, 0xF0, 0xF1, 0xF2, 0xF8, 0xFF] : Bytes) →
    (l1.toNat * 256 + l0.toNat = 0 ∨ l1.toNat * 256 + l0.toNat = body.length) →
    let short : Nat → Response := fun declared =>
      if l1 = 0 ∧ l0 = 0 then ⟨0x09, .lengthInfo declared (6 + body.length), []⟩ else ⟨0x13, .none, []⟩
    let f := (byteAt body 1).toNat / 64
    let h := (byteAt body 2).toNat
    if body.length < 3 then AnswersOnly .decodePes s (short 9)
    else if (byteAt body 0).toNat / 64 ≠ 2 ∨ f = 1 ∨ h < (if f = 0 then 0 else if f = 2 then 5 else 10) then
      AnswersOnly .decodePes s ⟨0x13, .none, []⟩
    else if body.length < 3 + h then AnswersOnly .decodePes s (short (9 + h))
    else if f ≠ 0 ∧ ((byteAt body 3).toNat / 16 ≠ f ∨ (byteAt body 3).toNat % 2 = 0 ∨ (byteAt body 5).toNat % 2 = 0 ∨
        (byteAt body 7).toNat % 2 = 0) then AnswersOnly .decodePes s ⟨0x07, .none, []⟩
    else if f = 3 ∧ ((byteAt body 8).toNat / 16 ≠ 1 ∨ (byteAt body 8).toNat % 2 = 0 ∨ (byteAt body 10).toNat % 2 = 0 ∨
        (byteAt body 12).toNat % 2 = 0) then AnswersOnly .decodePes s ⟨0x07, .none, []⟩
    else ∃ p, AnswersOnly .decodePes s ⟨0x00, .pes p, []⟩

/-- R231, 30_encoding.md R107: the five bytes of a timestamp as numbers. -/
def Obligations.TimestampBytes : Prop :=
  ∀ (pfx : BitVec 4) (v : BitVec 33), ∃ t0 t1 t2 t3 t4 : Byte, tsBytes pfx v = [t0, t1, t2, t3, t4] ∧
    t0.toNat = pfx.toNat * 16 + v.toNat / 2 ^ 30 * 2 + 1 ∧ t1.toNat = v.toNat / 2 ^ 22 % 2 ^ 8 ∧
    t2.toNat = v.toNat / 2 ^ 15 % 2 ^ 7 * 2 + 1 ∧ t3.toNat = v.toNat / 2 ^ 7 % 2 ^ 8 ∧
    t4.toNat = v.toNat % 2 ^ 7 * 2 + 1

/-- R232, R233, R234, R239, 30_encoding.md R106: a packet with an optional header, timestamps as flagged, the other
flags `anc` anything and `skipped` bytes of the header passed over; the bytes after a bounded packet are ignored. -/
def Obligations.PesHeaderDecodes : Prop :=
  ∀ (s : State) (sid l1 l0 m : Byte) (anc : BitVec 6) (stamps : Option (BitVec 33 × Option (BitVec 33)))
    (skipped pay trailing : Bytes),
    let opt := (match stamps with
      | none => []
      | some (pts, none) => tsBytes 2 pts
      | some (pts, some dts) => tsBytes 3 pts ++ tsBytes 1 dts) ++ skipped
    let flags : BitVec 2 := match stamps with
      | none => 0
      | some (_, none) => 2
      | some (_, some _) => 3
    s.operand = .bytes (0x00 :: 0x00 :: 0x01 :: sid :: l1 :: l0 :: m :: (flags ++ anc) :: BitVec.ofNat 8 opt.length ::
      (opt ++ pay ++ trailing)) →
    0xBC ≤ sid.toNat → sid ∉ ([0xBC, 0xBE, 0xBF, 0xF0, 0xF1, 0xF2, 0xF8, 0xFF] : Bytes) → m.toNat / 64 = 2 →
    opt.length ≤ 255 →
    (l1.toNat * 256 + l0.toNat = 3 + opt.length + pay.length ∨ (l1 = 0 ∧ l0 = 0 ∧ trailing = [])) →
    ∃ hd : PesHeader,
      AnswersOnly .decodePes s ⟨0x00, .pes ⟨sid, some hd, if l1 = 0 ∧ l0 = 0 then 1 else 0, pay⟩, []⟩ ∧
      hd.scramblingControl.toNat = m.toNat / 16 % 4 ∧ hd.priority.toNat = m.toNat / 8 % 2 ∧
      hd.dataAlignmentIndicator.toNat = m.toNat / 4 % 2 ∧ hd.copyright.toNat = m.toNat / 2 % 2 ∧
      hd.originalOrCopy.toNat = m.toNat % 2 ∧ hd.pts = stamps.map Prod.fst ∧ hd.dts = stamps.bind Prod.snd

/-- R237, R238: the bytes of every PES value, or its error, the checks in their order. -/
def Obligations.EncodePesResult : Prop :=
  WordIs .encodePes (0x41 * 2 ^ 24) ∧
  ∀ (s : State) (p : PesPacket), s.operand = .pes p →
    let opt : PesHeader → Bytes := fun h =>
      match h.pts, h.dts with
      | some pts, none => tsBytes 2 pts
      | some pts, some dts => tsBytes 3 pts ++ tsBytes 1 dts
      | none, _ => []
    let flags : PesHeader → Nat := fun h =>
      if h.pts = none then 0 else if h.dts = none then 2 else 3
    let body : Bytes := (match p.header with
      | none => []
      | some h => [BitVec.ofNat 8 (128 + h.scramblingControl.toNat * 16 + h.priority.toNat * 8 +
          h.dataAlignmentIndicator.toNat * 4 + h.copyright.toNat * 2 + h.originalOrCopy.toNat),
          BitVec.ofNat 8 (flags h * 64), BitVec.ofNat 8 (opt h).length] ++ opt h) ++ p.payload
    let l := if p.unbounded = 1 then 0 else body.length
    if p.streamId.toNat < 0xBC then AnswersOnly .encodePes s ⟨0x06, .byteInfo p.streamId, []⟩
    else if (p.streamId ∈ ([0xBC, 0xBE, 0xBF, 0xF0, 0xF1, 0xF2, 0xF8, 0xFF] : Bytes) ↔ p.header.isSome) ∨
        (∃ h, p.header = some h ∧ h.pts = none ∧ h.dts ≠ none) then AnswersOnly .encodePes s ⟨0x13, .none, []⟩
    else if 65535 < l then AnswersOnly .encodePes s ⟨0x03, .sizeInfo l, []⟩
    else if p.unbounded = 0 ∧ l = 0 then AnswersOnly .encodePes s ⟨0x13, .none, []⟩
    else AnswersOnly .encodePes s ⟨0x00, .bytes ([0x00, 0x00, 0x01, p.streamId, BitVec.ofNat 8 (l / 256),
      BitVec.ofNat 8 (l % 256)] ++ body), []⟩

/-- R240: DECODE_PES gives back the PES value ENCODE_PES was given; behind a bounded packet other bytes may stand
(R233). -/
def Obligations.PesRoundTrip : Prop :=
  ∀ (s t s' : State) (p : PesPacket) (e trailing : Bytes), s.operand = .pes p → exec .encodePes s = .next t →
    t.responses = s.responses ++ [⟨0x00, .bytes e, []⟩] → (p.unbounded = 1 → trailing = []) →
    s'.operand = .bytes (e ++ trailing) → AnswersOnly .decodePes s' ⟨0x00, .pes p, []⟩

/-! ### The packetizer -/

/-- 44_packetizer.md R265, R266, R267, with the word (R260) and the frame: how many packets, each of 188 bytes, and
the one write of W. -/
def Obligations.SplitResult : Prop :=
  (∀ pid, WordIs (.split .pes pid) (0x50 * 2 ^ 24 + pid.toNat) ∧
    WordIs (.split .psi pid) (0x50 * 2 ^ 24 + 2 ^ 15 + pid.toNat)) ∧
  ∀ (s : State) (kind : Kind) (pid : Pid) (x : Bytes), s.Inv → s.operand = .bytes x →
    ∃ (t : State) (l : List Bytes), exec (.split kind pid) s = .next t ∧ Answered s t ⟨0x00, .packets l, []⟩ ∧
      (x = [] → l = [] ∧ t.W = s.W) ∧
      (x ≠ [] → kind = .psi → 184 * (l.length - 1) < x.length + 1 ∧ x.length + 1 ≤ 184 * l.length) ∧
      (x ≠ [] → kind = .pes → 184 * (l.length - 1) < x.length ∧ x.length ≤ 184 * l.length) ∧
      (∀ b ∈ l, b.length = 188) ∧ (t.readW pid).toNat = ((s.readW pid).toNat + l.length) % 16 ∧
      OtherWritersKept s t pid ∧ t.R = s.R ∧ t.S = s.S ∧ t.Q = s.Q ∧ t.params = s.params

/-- R260 to R264, R266: every packet of a split is ENCODE_PACKET's answer to a packet value that DECODE_PACKET gives
back, on the PID, in counter order, the first with pusi = 1; their payloads, one after the other, are a pointer_field of 0 before a section, the input, and
0xFF filling a section's last packet. -/
def Obligations.SplitPacketsCarryTheInput : Prop :=
  ∀ (s t : State) (kind : Kind) (pid : Pid) (x : Bytes) (l : List Bytes), s.operand = .bytes x → x ≠ [] →
    exec (.split kind pid) s = .next t → t.responses = s.responses ++ [⟨0x00, .packets l, []⟩] →
    ∃ (ps : List TsPacket) (fill : Nat), l.map decodePacket = ps.map .ok ∧ ps.map encodePacket = l.map .ok ∧
      (∀ (i : Nat) (p : TsPacket) (b : Bytes) (s' : State), ps[i]? = some p → l[i]? = some b →
        s'.operand = .tsPacket p → AnswersOnly .encodePacket s' ⟨0x00, .bytes b, []⟩) ∧
      (∀ (i : Nat) (p : TsPacket), ps[i]? = some p →
        p.tei = 0 ∧ p.tp = 0 ∧ p.tsc = 0 ∧ p.pid = pid ∧ p.af = AdaptationField.empty ∧ p.payload.isSome ∧
        p.pusi = (if i = 0 then 1 else 0) ∧ p.cc.toNat = ((s.readW pid).toNat + i) % 16 ∧
        (i + 1 < ps.length → (p.payload.getD []).length = 184)) ∧
      (ps.flatMap fun p => p.payload.getD []) =
        (if kind = .psi then [0x00] else []) ++ x ++ List.replicate fill 0xFF ∧
      (if kind = .pes then fill = 0 else fill < 184 ∧ x.length + 1 + fill = 184 * l.length)

/-! ### The depacketizer: slots -/

/-- 45_depacketizer.md R281, whole, with the frame. -/
def Obligations.OpenResult : Prop :=
  (∀ pid, WordIs (.openPid .pes pid) (0x60 * 2 ^ 24 + pid.toNat) ∧
    WordIs (.openPid .psi pid) (0x60 * 2 ^ 24 + 2 ^ 15 + pid.toNat)) ∧
  ∀ (s : State) (kind : Kind) (pid : Pid), s.Inv →
    (s.slot pid = none → none ∉ s.S → AnswersOnly (.openPid kind pid) s ⟨0x16, .none, []⟩) ∧
    (s.slot pid ≠ none ∨ none ∈ s.S →
      ∃ (t : State) (j : Nat), exec (.openPid kind pid) s = .next t ∧ j < s.S.length ∧
        t.S = s.S.set j (some ⟨pid, kind, .idle, [], .unknown⟩) ∧
        (s.slot pid ≠ none → s.S[j]? = some (s.slot pid)) ∧
        (s.slot pid = none → s.S[j]? = some none ∧ ∀ k < j, s.S[k]? ≠ some none) ∧
        t.slot pid = some ⟨pid, kind, .idle, [], .unknown⟩ ∧ t.readR pid = none ∧ OtherPidsKept s t pid ∧
        t.W = s.W ∧ t.Q = s.Q ∧ t.params = s.params ∧ Answered s t ⟨0x00, .none, []⟩)

/-- R282, whole, with the frame. -/
def Obligations.CloseResult : Prop :=
  (∀ pid, WordIs (.closePid pid) (0x61 * 2 ^ 24 + pid.toNat)) ∧
  ∀ (s : State) (pid : Pid), s.Inv →
    (s.slot pid = none → AnswersOnly (.closePid pid) s ⟨0x15, .none, []⟩) ∧
    (s.slot pid ≠ none →
      ∃ t : State, exec (.closePid pid) s = .next t ∧ t.slot pid = none ∧ t.readR pid = none ∧
        OtherPidsKept s t pid ∧ t.S.length = s.S.length ∧ t.W = s.W ∧ t.Q = s.Q ∧ t.params = s.params ∧
        Answered s t ⟨0x00, .none, []⟩)

/-- R300, whole: the five fields, with no state written. -/
def Obligations.SlotStateResult : Prop :=
  (∀ pid, WordIs (.slotState pid) (0x65 * 2 ^ 24 + pid.toNat)) ∧
  (SlotPhase.idle.code = 0 ∧ SlotPhase.accumulating.code = 1 ∧ SlotPhase.discarding.code = 2) ∧
  ∀ (s : State) (pid : Pid),
    (s.slot pid = none → AnswersOnly (.slotState pid) s ⟨0x15, .none, []⟩) ∧
    (∀ sl, s.slot pid = some sl →
      ∃ r, AnswersOnly (.slotState pid) s ⟨0x00, .slotStatus r, []⟩ ∧ r.kind = sl.kind ∧ r.state = sl.state ∧
        r.buffered = sl.buf.length ∧ r.target = sl.target ∧ r.lastCc = s.readR pid)

/-- R298, whole, with the frame. -/
def Obligations.TakeCompletedResult : Prop :=
  WordIs .takeCompleted (0x64 * 2 ^ 24) ∧
  ∀ s : State,
    (s.Q = [] → AnswersOnly .takeCompleted s ⟨0x17, .none, []⟩) ∧
    (∀ u rest, s.Q = u :: rest →
      ∃ t : State, exec .takeCompleted s = .next t ∧ t.Q = rest ∧ t.W = s.W ∧ t.R = s.R ∧ t.S = s.S ∧
        t.params = s.params ∧ Answered s t ⟨0x00, .completedUnit u, []⟩)

/-- R296, whole, with the frame: FINISH delivers an unbounded PES unit, rejects any other unit in progress, and
leaves the slot Idle. -/
def Obligations.FinishResult : Prop :=
  (∀ pid, WordIs (.finish pid) (0x63 * 2 ^ 24 + pid.toNat)) ∧
  ∀ (s : State) (pid : Pid),
    (s.slot pid = none → AnswersOnly (.finish pid) s ⟨0x15, .none, []⟩) ∧
    (∀ sl, s.slot pid = some sl →
      ∃ (t : State) (ev : List Event), exec (.finish pid) s = .next t ∧ Answered s t ⟨0x00, .none, ev⟩ ∧
        t.slot pid = some ⟨pid, sl.kind, .idle, [], .unknown⟩ ∧ OtherPidsKept s t pid ∧ t.R = s.R ∧
        t.S.length = s.S.length ∧ t.W = s.W ∧ t.params = s.params ∧
        (sl.state ≠ .accumulating → t.Q = s.Q ∧ ev = []) ∧
        (sl.state = .accumulating → sl.target ≠ .unbounded → t.Q = s.Q ∧ ev = [⟨6, 0x09⟩]) ∧
        (sl.state = .accumulating → sl.target = .unbounded →
          Delivered s.params pid sl.kind sl.buf s.Q t.Q ev))

/-! ### The depacketizer: FEED -/

/-- R284, R285, stages 1 to 3: what FEED does before the tracker, with what DECODE_PACKET answers to the packet. -/
def Obligations.FeedChecksAndFilters : Prop :=
  WordIs .feed (0x62 * 2 ^ 24) ∧
  ∀ (s : State) (b : Bytes), s.operand = .bytes b → b.length = 188 →
    match decodePacket b with
    | .error e => e.code ≠ 0x00 ∧ AnswersOnly .feed s ⟨e.code, e.info, []⟩ ∧
        AnswersOnly .decodePacket s ⟨e.code, e.info, []⟩
    | .ok p => AnswersOnly .decodePacket s ⟨0x00, .tsPacket p, []⟩ ∧
      if p.pid = 0x1FFF then AnswersOnly .feed s ⟨0x00, .none, [⟨0, 0⟩]⟩
      else if p.tei = 1 then AnswersOnly .feed s ⟨0x00, .none, [⟨0, 1⟩]⟩
      else s.slot p.pid = none → AnswersOnly .feed s ⟨0x00, .none, [⟨1, 0⟩]⟩

/-- R289, whole (with R174): a Duplicate is reported and nothing is written. -/
def Obligations.FeedDuplicate : Prop :=
  ∀ (s : State) (p : TsPacket) (sl : Slot), s.Inv → FeedsOpen s p sl → p.payload.isSome →
    Repeated (s.readR p.pid) p.cc 1 p.af.di → AnswersOnly .feed s ⟨0x00, .none, [⟨2, 0⟩]⟩

/-- R290 (with R177, R178, R286): a packet without a payload goes through the tracker only; out of sequence it drops
the unit in progress. -/
def Obligations.FeedWithoutPayload : Prop :=
  ∀ (s : State) (p : TsPacket) (sl : Slot), s.Inv → FeedsOpen s p sl → p.payload = none →
    (InSequence (s.readR p.pid) p.cc 0 p.af.di → FeedEnds s p.pid (some p.cc) sl s.Q []) ∧
    (¬ InSequence (s.readR p.pid) p.cc 0 p.af.di →
      FeedEnds s p.pid (some p.cc) ⟨p.pid, sl.kind, .discarding, [], .unknown⟩ s.Q
        (if sl.state = .accumulating then [⟨3, 0⟩, ⟨4, 0⟩] else [⟨3, 0⟩]))

/-- R286, R295, R305: a continuation payload that is not accumulated, in the four rows of R305's table that end in
Ignored or the loss of the unit. -/
def Obligations.FeedIgnoresContinuation : Prop :=
  ∀ (s : State) (p : TsPacket) (sl : Slot), s.Inv → FeedsOpen s p sl → p.payload.isSome → p.pusi = 0 →
    (sl.state ≠ .accumulating → InSequence (s.readR p.pid) p.cc 1 p.af.di →
      FeedEnds s p.pid (some p.cc) sl s.Q [⟨8, 0⟩]) ∧
    (¬ InSequence (s.readR p.pid) p.cc 1 p.af.di → ¬ Repeated (s.readR p.pid) p.cc 1 p.af.di →
      FeedEnds s p.pid (some p.cc) ⟨p.pid, sl.kind, .discarding, [], .unknown⟩ s.Q
        (if sl.state = .accumulating then [⟨3, 0⟩, ⟨4, 0⟩, ⟨8, 0⟩] else [⟨3, 0⟩, ⟨8, 0⟩]))

/-- R284, R288, R291 to R294: a continuation payload in sequence is appended to the unit in progress, which goes on,
is delivered, or overflows. -/
def Obligations.FeedAppends : Prop :=
  ∀ (s : State) (p : TsPacket) (sl : Slot) (pay : Bytes), s.Inv → FeedsOpen s p sl → p.payload = some pay →
    p.pusi = 0 → sl.state = .accumulating → InSequence (s.readR p.pid) p.cc 1 p.af.di →
    ∃ sl' q' ev, FeedEnds s p.pid (some p.cc) sl' q' ev ∧
      Accumulated s.params p.pid sl.kind (sl.buf ++ pay) s.Q sl' q' ev

/-- R284, R286, R288: a payload with pusi = 1 starts a unit in a PES slot, whatever was in progress. -/
def Obligations.FeedStartsPes : Prop :=
  ∀ (s : State) (p : TsPacket) (sl : Slot) (pay : Bytes), s.Inv → FeedsOpen s p sl → p.payload = some pay →
    p.pusi = 1 → sl.kind = .pes → ¬ Repeated (s.readR p.pid) p.cc 1 p.af.di →
    let lost : List Event :=
      if InSequence (s.readR p.pid) p.cc 1 p.af.di then (if sl.state = .accumulating then [⟨4, 1⟩] else [])
      else [⟨3, 0⟩] ++ (if sl.state = .accumulating then [⟨4, 0⟩] else [])
    ∃ sl' q' ev, FeedEnds s p.pid (some p.cc) sl' q' (lost ++ ev) ∧
      Accumulated s.params p.pid .pes pay s.Q sl' q' ev

/-- R287: in a PSI slot the pointer_field `n` is checked first; then its bytes are skipped where no unit is in
progress, and the section after them starts. -/
def Obligations.FeedStartsSection : Prop :=
  ∀ (s : State) (p : TsPacket) (sl : Slot) (pay : Bytes), s.Inv → FeedsOpen s p sl → p.payload = some pay →
    p.pusi = 1 → sl.kind = .psi → ¬ Repeated (s.readR p.pid) p.cc 1 p.af.di →
    (sl.state = .accumulating → ¬ InSequence (s.readR p.pid) p.cc 1 p.af.di) →
    let lost : List Event :=
      if InSequence (s.readR p.pid) p.cc 1 p.af.di then []
      else [⟨3, 0⟩] ++ (if sl.state = .accumulating then [⟨4, 0⟩] else [])
    let n := (byteAt pay 0).toNat
    if pay = [] ∨ pay.length < 1 + n then
      FeedEnds s p.pid (some p.cc) ⟨p.pid, .psi, .discarding, [], .unknown⟩ s.Q (lost ++ [⟨4, 2⟩])
    else
      ∃ sl' q' ev, FeedEnds s p.pid (some p.cc) sl' q' (lost ++ ev) ∧
        Accumulated s.params p.pid .psi (pay.drop (1 + n)) s.Q sl' q' ev

/-- R286, R287, R299: in a PSI slot with a section in progress and no discontinuity, the pointer_field's bytes are
that section's tail; if it is still short it is dropped as EarlyStart, and then the next section starts. -/
def Obligations.FeedPointerTail : Prop :=
  ∀ (s : State) (p : TsPacket) (sl : Slot) (pay : Bytes), s.Inv → FeedsOpen s p sl → p.payload = some pay →
    p.pusi = 1 → sl.kind = .psi → sl.state = .accumulating → InSequence (s.readR p.pid) p.cc 1 p.af.di →
    let n := (byteAt pay 0).toNat
    if pay = [] ∨ pay.length < 1 + n then
      FeedEnds s p.pid (some p.cc) ⟨p.pid, .psi, .discarding, [], .unknown⟩ s.Q [⟨4, 2⟩]
    else
      ∃ sl₁ q₁ ev₁ sl₂ q₂ ev₂,
        Accumulated s.params p.pid .psi (sl.buf ++ (pay.drop 1).take n) s.Q sl₁ q₁ ev₁ ∧
        Accumulated s.params p.pid .psi (pay.drop (1 + n)) q₁ sl₂ q₂ ev₂ ∧
        FeedEnds s p.pid (some p.cc) sl₂ q₂ (ev₁ ++ (if sl₁.state = .accumulating then [⟨4, 1⟩] else []) ++ ev₂)

/-- R288: the target as the length field in the buffer declares it. -/
def Obligations.TargetFromLengthField : Prop :=
  ∀ b : Bytes,
    declaredTarget .psi b = (if b.length < 3 then .unknown
      else .bounded (3 + ((byteAt b 1).toNat % 16 * 256 + (byteAt b 2).toNat))) ∧
    declaredTarget .pes b = (if b.length < 6 then .unknown
      else if byteAt b 4 = 0 ∧ byteAt b 5 = 0 then .unbounded
      else .bounded (6 + ((byteAt b 4).toNat * 256 + (byteAt b 5).toNat)))

/-- R303: what one FEED does to its PID, its events and the units it appends depend only on that PID's reader entry
and slot and on how many units Q holds. -/
def Obligations.FeedReadsOnlyItsPid : Prop :=
  ∀ (s s' t t' : State) (b : Bytes) (p : TsPacket), s.Inv → s'.Inv → s.operand = .bytes b → s'.operand = .bytes b →
    decodePacket b = .ok p → s.params = s'.params → s.readR p.pid = s'.readR p.pid → s.slot p.pid = s'.slot p.pid →
    s.Q.length = s'.Q.length → exec .feed s = .next t → exec .feed s' = .next t' →
    t.readR p.pid = t'.readR p.pid ∧ t.slot p.pid = t'.slot p.pid ∧
      ∃ r l, t.Q = s.Q ++ l ∧ t'.Q = s'.Q ++ l ∧ t.responses = s.responses ++ [r] ∧ t'.responses = s'.responses ++ [r]

/-- R303, R31: a FEED writes only its packet's reader entry and slot and the tail of Q, with at most two units of that
PID, sections from a PSI slot and PES packets from a PES slot. -/
def Obligations.FeedWritesOnlyItsPid : Prop :=
  ∀ (s t : State) (b : Bytes) (p : TsPacket), s.operand = .bytes b → decodePacket b = .ok p →
    exec .feed s = .next t →
    OtherPidsKept s t p.pid ∧ t.W = s.W ∧
      ∃ l, t.Q = s.Q ++ l ∧ l.length ≤ 2 ∧ ∀ u ∈ l, u.pid = p.pid ∧ ∃ sl, s.slot p.pid = some sl ∧
        (if sl.kind = .psi then ∃ v, u.value = .sec v else ∃ v, u.value = .pes v)

/-- R357: one FEED emits at most three events, two of them UnitCompleted at most; one FINISH at most one; every other
command none. -/
def Obligations.EventBounds : Prop :=
  ∀ (i : Instr) (s t : State) (r : Response), exec i s = .next t → t.responses = s.responses ++ [r] →
    r.events.length ≤ 3 ∧ (r.events.filter fun e => e.kind == 5).length ≤ 2 ∧
    ((∃ pid, i = .finish pid) → r.events.length ≤ 1) ∧
    (r.events ≠ [] → i = .feed ∨ ∃ pid, i = .finish pid)

/-- R292, R293, 10_state.md R27: after every step the buffers are within their bounds, from every good state. -/
def Obligations.BuffersAreBounded : Prop :=
  ∀ (s t : State) (pid : Pid) (sl : Slot), s.Inv → step s = .next t → t.slot pid = some sl →
    (sl.state ≠ .accumulating → sl.buf = [] ∧ sl.target = .unknown) ∧
    (sl.target = .unknown → sl.buf.length < if sl.kind = .psi then 3 else 6) ∧
    (∀ n, sl.target = .bounded n → sl.buf.length < n ∧ n ≤ if sl.kind = .psi then 4098 else 65541) ∧
    (sl.target = .unbounded → sl.kind = .pes ∧ sl.buf.length ≤ t.params.unboundedPesCap)

/-- R270 for sections, with R283 and the recovery of R301: the packets of a split of an encoded section, fed in order to
a PSI slot of the PID that is Idle or Discarding, complete exactly one unit, equal to the value that was encoded. The rule names neither a full queue nor the null PID,
whose packets FEED filters (R285); the premises leave both out. -/
def Obligations.SplitThenFeedGivesSection : Prop :=
  ∀ (s0 t0 s : State) (pid : Pid) (v : Section) (x : Bytes) (l : List Bytes) (rest : List HostInput) (sl : Slot),
    encodeSection v = .ok x → v.wellTyped = true → s0.operand = .bytes x → exec (.split .psi pid) s0 = .next t0 →
    t0.responses = s0.responses ++ [⟨0x00, .packets l, []⟩] → s.Inv → s.inputs = l.map feedCommand ++ rest →
    pid ≠ 0x1FFF → s.slot pid = some sl → sl.kind = .psi → sl.state ≠ .accumulating → s.Q.length < s.params.qdepth →
    (s.readR pid = none ∨ s.readR pid = some (s0.readW pid - 1)) →
    ∃ t, run l.length s = .next t ∧ t.Q = s.Q ++ [⟨pid, .sec v⟩] ∧ t.inputs = rest ∧
      t.slot pid = some ⟨pid, .psi, .idle, [], .unknown⟩

/-- R270 for bounded PES packets, with R283, under the same premises. -/
def Obligations.SplitThenFeedGivesPes : Prop :=
  ∀ (s0 t0 s : State) (pid : Pid) (v : PesPacket) (x : Bytes) (l : List Bytes) (rest : List HostInput) (sl : Slot),
    encodePes v = .ok x → v.unbounded = 0 → s0.operand = .bytes x → exec (.split .pes pid) s0 = .next t0 →
    t0.responses = s0.responses ++ [⟨0x00, .packets l, []⟩] → s.Inv → s.inputs = l.map feedCommand ++ rest →
    pid ≠ 0x1FFF → s.slot pid = some sl → sl.kind = .pes → sl.state ≠ .accumulating → s.Q.length < s.params.qdepth →
    (s.readR pid = none ∨ s.readR pid = some (s0.readW pid - 1)) →
    ∃ t, run l.length s = .next t ∧ t.Q = s.Q ++ [⟨pid, .pes v⟩] ∧ t.inputs = rest ∧
      t.slot pid = some ⟨pid, .pes, .idle, [], .unknown⟩

/-- R301: a split of an encoded section fed with one interior packet missing completes no unit and leaves the slot in
Discarding, with the last packet's counter in the reader entry, which is the one before the next split's first: of that
next section SplitThenFeedGivesSection says that it is decoded. -/
def Obligations.LostPacketLosesTheSection : Prop :=
  ∀ (s0 t0 s : State) (pid : Pid) (v : Section) (x b : Bytes) (l₁ l₂ : List Bytes) (rest : List HostInput)
    (sl : Slot),
    encodeSection v = .ok x → v.wellTyped = true → s0.operand = .bytes x → exec (.split .psi pid) s0 = .next t0 →
    t0.responses = s0.responses ++ [⟨0x00, .packets (l₁ ++ [b] ++ l₂), []⟩] → l₁ ≠ [] → l₂ ≠ [] → s.Inv →
    s.inputs = (l₁ ++ l₂).map feedCommand ++ rest → pid ≠ 0x1FFF → s.slot pid = some sl → sl.kind = .psi →
    sl.state ≠ .accumulating → (s.readR pid = none ∨ s.readR pid = some (s0.readW pid - 1)) →
    ∃ t, run (l₁ ++ l₂).length s = .next t ∧ t.Q = s.Q ∧ t.inputs = rest ∧
      t.slot pid = some ⟨pid, .psi, .discarding, [], .unknown⟩ ∧ t.readR pid =
        some (s0.readW pid + BitVec.ofNat 4 (l₁ ++ l₂).length)
end

