-- ==== Sys2Proof/Laws/State.lean ====
section
/-! SUPPORT. The fields of a state after each named operation, each true by rfl, so that no later proof unfolds a
record update. -/

namespace Sys2Proof.Machine

@[simp] theorem State.writeW_params (s : State) (pid : Pid) (v : Counter) :
    (s.writeW pid v).params = s.params := rfl
@[simp] theorem State.writeW_W (s : State) (pid : Pid) (v : Counter) :
    (s.writeW pid v).W = tableWrite s.W pid.toNat (if v = 0 then none else some v) := rfl
@[simp] theorem State.writeW_R (s : State) (pid : Pid) (v : Counter) :
    (s.writeW pid v).R = s.R := rfl
@[simp] theorem State.writeW_S (s : State) (pid : Pid) (v : Counter) :
    (s.writeW pid v).S = s.S := rfl
@[simp] theorem State.writeW_Q (s : State) (pid : Pid) (v : Counter) :
    (s.writeW pid v).Q = s.Q := rfl
@[simp] theorem State.writeW_inputs (s : State) (pid : Pid) (v : Counter) :
    (s.writeW pid v).inputs = s.inputs := rfl
@[simp] theorem State.writeW_responses (s : State) (pid : Pid) (v : Counter) :
    (s.writeW pid v).responses = s.responses := rfl

@[simp] theorem State.writeR_params (s : State) (pid : Pid) (v : Option Counter) :
    (s.writeR pid v).params = s.params := rfl
@[simp] theorem State.writeR_W (s : State) (pid : Pid) (v : Option Counter) :
    (s.writeR pid v).W = s.W := rfl
@[simp] theorem State.writeR_R (s : State) (pid : Pid) (v : Option Counter) :
    (s.writeR pid v).R = tableWrite s.R pid.toNat v := rfl
@[simp] theorem State.writeR_S (s : State) (pid : Pid) (v : Option Counter) :
    (s.writeR pid v).S = s.S := rfl
@[simp] theorem State.writeR_Q (s : State) (pid : Pid) (v : Option Counter) :
    (s.writeR pid v).Q = s.Q := rfl
@[simp] theorem State.writeR_inputs (s : State) (pid : Pid) (v : Option Counter) :
    (s.writeR pid v).inputs = s.inputs := rfl
@[simp] theorem State.writeR_responses (s : State) (pid : Pid) (v : Option Counter) :
    (s.writeR pid v).responses = s.responses := rfl

@[simp] theorem State.putSlot_params (s : State) (pid : Pid) (v : Option Slot) :
    (s.putSlot pid v).params = s.params := rfl
@[simp] theorem State.putSlot_W (s : State) (pid : Pid) (v : Option Slot) :
    (s.putSlot pid v).W = s.W := rfl
@[simp] theorem State.putSlot_R (s : State) (pid : Pid) (v : Option Slot) :
    (s.putSlot pid v).R = s.R := rfl
@[simp] theorem State.putSlot_S (s : State) (pid : Pid) (v : Option Slot) :
    (s.putSlot pid v).S = s.S.set (s.S.findIdx (holdsPid pid)) v := rfl
@[simp] theorem State.putSlot_Q (s : State) (pid : Pid) (v : Option Slot) :
    (s.putSlot pid v).Q = s.Q := rfl
@[simp] theorem State.putSlot_inputs (s : State) (pid : Pid) (v : Option Slot) :
    (s.putSlot pid v).inputs = s.inputs := rfl
@[simp] theorem State.putSlot_responses (s : State) (pid : Pid) (v : Option Slot) :
    (s.putSlot pid v).responses = s.responses := rfl

@[simp] theorem State.fillFree_params (s : State) (v : Slot) :
    (s.fillFree v).params = s.params := rfl
@[simp] theorem State.fillFree_W (s : State) (v : Slot) :
    (s.fillFree v).W = s.W := rfl
@[simp] theorem State.fillFree_R (s : State) (v : Slot) :
    (s.fillFree v).R = s.R := rfl
@[simp] theorem State.fillFree_S (s : State) (v : Slot) :
    (s.fillFree v).S = s.S.set (s.S.findIdx Option.isNone) (some v) := rfl
@[simp] theorem State.fillFree_Q (s : State) (v : Slot) :
    (s.fillFree v).Q = s.Q := rfl
@[simp] theorem State.fillFree_inputs (s : State) (v : Slot) :
    (s.fillFree v).inputs = s.inputs := rfl
@[simp] theorem State.fillFree_responses (s : State) (v : Slot) :
    (s.fillFree v).responses = s.responses := rfl

@[simp] theorem State.putQ_params (s : State) (l : List CompletedUnit) :
    (s.putQ l).params = s.params := rfl
@[simp] theorem State.putQ_W (s : State) (l : List CompletedUnit) :
    (s.putQ l).W = s.W := rfl
@[simp] theorem State.putQ_R (s : State) (l : List CompletedUnit) :
    (s.putQ l).R = s.R := rfl
@[simp] theorem State.putQ_S (s : State) (l : List CompletedUnit) :
    (s.putQ l).S = s.S := rfl
@[simp] theorem State.putQ_Q (s : State) (l : List CompletedUnit) :
    (s.putQ l).Q = l := rfl
@[simp] theorem State.putQ_inputs (s : State) (l : List CompletedUnit) :
    (s.putQ l).inputs = s.inputs := rfl
@[simp] theorem State.putQ_responses (s : State) (l : List CompletedUnit) :
    (s.putQ l).responses = s.responses := rfl

@[simp] theorem State.clear_params (s : State) :
    s.clear.params = s.params := rfl
@[simp] theorem State.clear_W (s : State) :
    s.clear.W = [] := rfl
@[simp] theorem State.clear_R (s : State) :
    s.clear.R = [] := rfl
@[simp] theorem State.clear_S (s : State) :
    s.clear.S = List.replicate s.params.nslots none := rfl
@[simp] theorem State.clear_Q (s : State) :
    s.clear.Q = [] := rfl
@[simp] theorem State.clear_inputs (s : State) :
    s.clear.inputs = s.inputs := rfl
@[simp] theorem State.clear_responses (s : State) :
    s.clear.responses = s.responses := rfl

@[simp] theorem State.answer_params (s : State) (r : Response) :
    (s.answer r).params = s.params := rfl
@[simp] theorem State.answer_W (s : State) (r : Response) :
    (s.answer r).W = s.W := rfl
@[simp] theorem State.answer_R (s : State) (r : Response) :
    (s.answer r).R = s.R := rfl
@[simp] theorem State.answer_S (s : State) (r : Response) :
    (s.answer r).S = s.S := rfl
@[simp] theorem State.answer_Q (s : State) (r : Response) :
    (s.answer r).Q = s.Q := rfl
@[simp] theorem State.answer_inputs (s : State) (r : Response) :
    (s.answer r).inputs = s.inputs.tail := rfl
@[simp] theorem State.answer_responses (s : State) (r : Response) :
    (s.answer r).responses = s.responses ++ [r] := rfl

@[simp] theorem State.consume_params (s : State) :
    s.consume.params = s.params := rfl
@[simp] theorem State.consume_W (s : State) :
    s.consume.W = s.W := rfl
@[simp] theorem State.consume_R (s : State) :
    s.consume.R = s.R := rfl
@[simp] theorem State.consume_S (s : State) :
    s.consume.S = s.S := rfl
@[simp] theorem State.consume_Q (s : State) :
    s.consume.Q = s.Q := rfl
@[simp] theorem State.consume_inputs (s : State) :
    s.consume.inputs = s.inputs.tail := rfl
@[simp] theorem State.consume_responses (s : State) :
    s.consume.responses = s.responses := rfl

@[simp] theorem State.writeW_readR (s : State) (p' : Pid) (v : Counter) (q : Pid) :
    (s.writeW p' v).readR q = s.readR q := rfl
@[simp] theorem State.writeW_slot (s : State) (p' : Pid) (v : Counter) (q : Pid) :
    (s.writeW p' v).slot q = s.slot q := rfl
@[simp] theorem State.writeW_operand (s : State) (p' : Pid) (v : Counter) :
    (s.writeW p' v).operand = s.operand := rfl
@[simp] theorem State.writeR_readW (s : State) (p' : Pid) (v : Option Counter) (q : Pid) :
    (s.writeR p' v).readW q = s.readW q := rfl
@[simp] theorem State.writeR_slot (s : State) (p' : Pid) (v : Option Counter) (q : Pid) :
    (s.writeR p' v).slot q = s.slot q := rfl
@[simp] theorem State.writeR_operand (s : State) (p' : Pid) (v : Option Counter) :
    (s.writeR p' v).operand = s.operand := rfl
@[simp] theorem State.putSlot_readW (s : State) (p' : Pid) (v : Option Slot) (q : Pid) :
    (s.putSlot p' v).readW q = s.readW q := rfl
@[simp] theorem State.putSlot_readR (s : State) (p' : Pid) (v : Option Slot) (q : Pid) :
    (s.putSlot p' v).readR q = s.readR q := rfl
@[simp] theorem State.putSlot_operand (s : State) (p' : Pid) (v : Option Slot) :
    (s.putSlot p' v).operand = s.operand := rfl
@[simp] theorem State.fillFree_readW (s : State) (v : Slot) (q : Pid) :
    (s.fillFree v).readW q = s.readW q := rfl
@[simp] theorem State.fillFree_readR (s : State) (v : Slot) (q : Pid) :
    (s.fillFree v).readR q = s.readR q := rfl
@[simp] theorem State.fillFree_operand (s : State) (v : Slot) :
    (s.fillFree v).operand = s.operand := rfl
@[simp] theorem State.putQ_readW (s : State) (l : List CompletedUnit) (q : Pid) :
    (s.putQ l).readW q = s.readW q := rfl
@[simp] theorem State.putQ_readR (s : State) (l : List CompletedUnit) (q : Pid) :
    (s.putQ l).readR q = s.readR q := rfl
@[simp] theorem State.putQ_slot (s : State) (l : List CompletedUnit) (q : Pid) :
    (s.putQ l).slot q = s.slot q := rfl
@[simp] theorem State.putQ_operand (s : State) (l : List CompletedUnit) :
    (s.putQ l).operand = s.operand := rfl
@[simp] theorem State.clear_operand (s : State) :
    s.clear.operand = s.operand := rfl
@[simp] theorem State.answer_readW (s : State) (r : Response) (q : Pid) :
    (s.answer r).readW q = s.readW q := rfl
@[simp] theorem State.answer_readR (s : State) (r : Response) (q : Pid) :
    (s.answer r).readR q = s.readR q := rfl
@[simp] theorem State.answer_slot (s : State) (r : Response) (q : Pid) :
    (s.answer r).slot q = s.slot q := rfl
@[simp] theorem State.consume_readW (s : State) (q : Pid) :
    s.consume.readW q = s.readW q := rfl
@[simp] theorem State.consume_readR (s : State) (q : Pid) :
    s.consume.readR q = s.readR q := rfl
@[simp] theorem State.consume_slot (s : State) (q : Pid) :
    s.consume.slot q = s.slot q := rfl

end Sys2Proof.Machine
end

