-- ==== Sys2Proof/Laws/Tables.lean ====
section
/-! SUPPORT. The counter tables: a read after a write, and that a write keeps the canonical form. -/

namespace Sys2Proof.Machine

variable {α : Type}

/-- A key below every listed key is not listed. -/
theorem tableRead_none_of_lt (t : List (Nat × α)) (k : Nat) (h : ∀ e ∈ t, k < e.1) : tableRead t k = none := by
  induction t with
  | nil => rfl
  | cons e rest ih =>
    have he : k < e.1 := h e (by simp)
    rw [tableRead, if_neg (by omega)]
    exact ih fun x hx => h x (by simp [hx])

/-- What a write does to the entries: each entry afterwards was there before under another key, or is the written
one. -/
theorem mem_tableWrite (t : List (Nat × α)) (k : Nat) (v : Option α) (e : Nat × α) (he : e ∈ tableWrite t k v) :
    e ∈ t ∨ (e.1 = k ∧ v = some e.2) := by
  induction t with
  | nil => cases v <;> simp_all [tableWrite]
  | cons x rest ih =>
    obtain ⟨k', y⟩ := x
    rw [tableWrite] at he
    split at he
    · rcases List.mem_append.mp he with h | h
      · cases v <;> simp_all
      · exact .inl h
    · split at he
      · rcases List.mem_append.mp he with h | h
        · cases v <;> simp_all
        · exact .inl (List.mem_cons_of_mem _ h)
      · rcases List.mem_cons.mp he with h | h
        · simp [h]
        · rcases ih h with h | h
          · simp [h]
          · exact .inr h

/-- A write keeps the canonical form. -/
theorem tableWrite_wf (t : List (Nat × α)) (k : Nat) (v : Option α) (ht : tableWf t) (hk : k < 8192) :
    tableWf (tableWrite t k v) := by
  refine ⟨?_, fun e he => ?_⟩
  · have hs := ht.1
    clear ht
    induction t with
    | nil => cases v <;> simp [tableWrite]
    | cons x rest ih =>
      obtain ⟨k', y⟩ := x
      have hrest := List.pairwise_cons.mp hs
      rw [tableWrite]
      split
      · rename_i hlt
        cases v with
        | none => simpa using hrest
        | some w =>
          simp only [Option.map_some, Option.toList_some, List.cons_append, List.nil_append, List.pairwise_cons]
          refine ⟨fun e he => ?_, hrest⟩
          rcases List.mem_cons.mp he with h | h
          · simpa [h] using hlt
          · exact lt_trans hlt (hrest.1 e h)
      · split
        · rename_i heq
          subst heq
          cases v with
          | none => simpa using hrest.2
          | some w => simpa [List.pairwise_cons] using hrest
        · refine List.pairwise_cons.mpr ⟨fun e he => ?_, ih hrest.2⟩
          rcases mem_tableWrite rest k v e he with h | h
          · exact hrest.1 e h
          · have := h.1
            simp only at *
            omega
  · rcases mem_tableWrite t k v e he with h | h
    · exact ht.2 e h
    · omega

/-- The written key reads as what was written. -/
theorem tableRead_write_same (t : List (Nat × α)) (k : Nat) (v : Option α) (ht : tableWf t) :
    tableRead (tableWrite t k v) k = v := by
  have hs := ht.1
  clear ht
  induction t with
  | nil => cases v <;> simp [tableWrite, tableRead]
  | cons x rest ih =>
    obtain ⟨k', y⟩ := x
    have hrest := List.pairwise_cons.mp hs
    rw [tableWrite]
    split
    · rename_i hlt
      cases v with
      | none =>
        refine tableRead_none_of_lt _ _ fun e he => ?_
        rcases List.mem_cons.mp he with h | h
        · simpa [h] using hlt
        · exact lt_trans hlt (hrest.1 e h)
      | some w => simp [tableRead]
    · split
      · rename_i heq
        subst heq
        cases v with
        | none => exact tableRead_none_of_lt _ _ fun e he => hrest.1 e he
        | some w => simp [tableRead]
      · rename_i hne
        rw [tableRead, if_neg hne]
        exact ih hrest.2

/-- Every other key reads as before. -/
theorem tableRead_write_other (t : List (Nat × α)) (k j : Nat) (v : Option α) (hj : j ≠ k) :
    tableRead (tableWrite t k v) j = tableRead t j := by
  induction t with
  | nil => cases v <;> simp [tableWrite, tableRead, Ne.symm hj]
  | cons x rest ih =>
    obtain ⟨k', y⟩ := x
    rw [tableWrite]
    split
    · cases v <;> simp [tableRead, Ne.symm hj]
    · split
      · rename_i heq
        subst heq
        cases v <;> simp [tableRead, Ne.symm hj]
      · simp [tableRead, ih]

/-- Writing back what a key reads as changes nothing. -/
theorem tableWrite_read (t : List (Nat × α)) (k : Nat) (ht : tableWf t) : tableWrite t k (tableRead t k) = t := by
  have hs := ht.1
  clear ht
  induction t with
  | nil => rfl
  | cons x rest ih =>
    obtain ⟨k', y⟩ := x
    have hrest := List.pairwise_cons.mp hs
    rw [tableRead]
    split
    · rename_i heq
      subst heq
      simp [tableWrite]
    · rename_i hne
      rw [tableWrite]
      split
      · rename_i hlt
        rw [tableRead_none_of_lt rest k fun e he => lt_trans hlt (hrest.1 e he)]
        simp
      · simp only [ih hrest.2]

theorem pid_toNat_lt (pid : Pid) : pid.toNat < 8192 := pid.isLt

theorem State.readW_writeW_same (s : State) (pid : Pid) (v : Counter) (h : tableWf s.W) :
    (s.writeW pid v).readW pid = v := by
  simp only [State.readW, State.writeW_W, tableRead_write_same _ _ _ h]
  split <;> simp_all

theorem State.readW_writeW_other (s : State) (pid q : Pid) (v : Counter) (h : q ≠ pid) :
    (s.writeW pid v).readW q = s.readW q := by
  simp only [State.readW, State.writeW_W]
  rw [tableRead_write_other _ _ _ _ fun hq => h (BitVec.eq_of_toNat_eq hq)]

theorem State.readR_writeR_same (s : State) (pid : Pid) (v : Option Counter) (h : tableWf s.R) :
    (s.writeR pid v).readR pid = v := by
  simp only [State.readR, State.writeR_R, tableRead_write_same _ _ _ h]

theorem State.readR_writeR_other (s : State) (pid q : Pid) (v : Option Counter) (h : q ≠ pid) :
    (s.writeR pid v).readR q = s.readR q := by
  simp only [State.readR, State.writeR_R]
  rw [tableRead_write_other _ _ _ _ fun hq => h (BitVec.eq_of_toNat_eq hq)]

theorem State.writeR_readR (s : State) (pid : Pid) (h : tableWf s.R) : s.writeR pid (s.readR pid) = s := by
  simp only [State.writeR, State.readR, tableWrite_read _ _ h]

theorem State.writeW_wf (s : State) (pid : Pid) (v : Counter) (h : tableWf s.W) : tableWf (s.writeW pid v).W :=
  tableWrite_wf _ _ _ h (pid_toNat_lt pid)

theorem State.writeR_wf (s : State) (pid : Pid) (v : Option Counter) (h : tableWf s.R) : tableWf (s.writeR pid v).R :=
  tableWrite_wf _ _ _ h (pid_toNat_lt pid)

/-- A writer-table write lists no zero. -/
theorem State.writeW_noZero (s : State) (pid : Pid) (v : Counter) (h : noZero s.W) : noZero (s.writeW pid v).W := by
  intro e he
  rcases mem_tableWrite _ _ _ e he with h' | h'
  · exact h e h'
  · have h2 := h'.2
    split at h2
    · simp at h2
    · rename_i hv
      have : v = e.2 := by simpa using h2
      exact this ▸ hv

end Sys2Proof.Machine
end

