-- ==== Sys2Proof/Laws/Slots.lean ====
section
/-! SUPPORT. The slot table: what `slot`, `putSlot` and `fillFree` do, and that they keep its invariant (10_state.md
R27, R28). -/

namespace Sys2Proof.Machine

/-- Setting the first entry that satisfies `f`, seen as a split of the list. -/
theorem set_findIdx_split {α : Type} (f : α → Bool) (v : α) (l : List α) (h : l.any f = true) :
    ∃ l₁ x l₂, l = l₁ ++ x :: l₂ ∧ f x = true ∧ (∀ y ∈ l₁, f y = false) ∧ l.set (l.findIdx f) v = l₁ ++ v :: l₂ := by
  induction l with
  | nil => simp at h
  | cons a rest ih =>
    by_cases ha : f a = true
    · exact ⟨[], a, rest, by simp, ha, by simp, by simp [List.findIdx_cons, ha]⟩
    · have hr : rest.any f = true := by simpa [ha] using h
      obtain ⟨l₁, x, l₂, h1, h2, h3, h4⟩ := ih hr
      refine ⟨a :: l₁, x, l₂, by simp [h1], h2, ?_, ?_⟩
      · intro y hy
        rcases List.mem_cons.mp hy with rfl | hy
        · simpa using ha
        · exact h3 y hy
      · simp [List.findIdx_cons, ha, h4]

/-- `find?` over a split list whose first part holds no match. -/
theorem find?_split {α : Type} (f : α → Bool) (l₁ l₂ : List α) (x : α) (h : ∀ y ∈ l₁, f y = false) :
    (l₁ ++ x :: l₂).find? f = if f x then some x else l₂.find? f := by
  induction l₁ with
  | nil => cases hx : f x <;> simp [hx]
  | cons a rest ih =>
    have ha : f a = false := h a (by simp)
    simp [ha, ih fun y hy => h y (by simp [hy])]

/-- A change of one entry is not seen by a search for which neither the old nor the new entry counts. -/
theorem find?_change {α : Type} (f : α → Bool) (l₁ l₂ : List α) (x v : α) (hx : f x = false) (hv : f v = false) :
    (l₁ ++ v :: l₂).find? f = (l₁ ++ x :: l₂).find? f := by
  simp [List.find?_append, hx, hv]

theorem holdsPid_some (pid : Pid) (sl : Slot) : holdsPid pid (some sl) = true ↔ sl.pid = pid := by simp [holdsPid]

/-- `slot(pid)` is an entry of S and holds `pid`. -/
theorem State.slot_some (s : State) (pid : Pid) (sl : Slot) (h : s.slot pid = some sl) :
    some sl ∈ s.S ∧ sl.pid = pid := by
  simp only [State.slot, Option.join_eq_some_iff] at h
  have hm := List.mem_of_find?_eq_some h
  have hp := List.find?_some h
  exact ⟨hm, (holdsPid_some pid sl).mp hp⟩

theorem State.any_of_slot_some (s : State) (pid : Pid) (sl : Slot) (h : s.slot pid = some sl) :
    s.S.any (holdsPid pid) = true := by
  obtain ⟨hm, hp⟩ := s.slot_some pid sl h
  exact List.any_eq_true.mpr ⟨some sl, hm, (holdsPid_some pid sl).mpr hp⟩

/-- `slot(pid)` is None exactly when no entry holds `pid` (R28). -/
theorem State.slot_none_iff (s : State) (pid : Pid) :
    s.slot pid = none ↔ ∀ o ∈ s.S, holdsPid pid o = false := by
  constructor
  · intro h o ho
    by_contra hne
    have hany : (s.S.find? (holdsPid pid)).isSome := by
      rw [List.find?_isSome]
      exact ⟨o, ho, by simpa using hne⟩
    obtain ⟨x, hx⟩ := Option.isSome_iff_exists.mp hany
    have hp := List.find?_some hx
    cases x with
    | none => simp [holdsPid] at hp
    | some sl => simp [State.slot, hx] at h
  · intro h
    have : s.S.find? (holdsPid pid) = none := List.find?_eq_none.mpr fun o ho => by simp [h o ho]
    simp [State.slot, this]

/-- What `putSlot` does where `slot(pid)` exists: one entry that holds `pid` is replaced. -/
theorem State.putSlot_split (s : State) (pid : Pid) (sl : Slot) (v : Option Slot) (h : s.slot pid = some sl) :
    ∃ l₁ l₂, s.S = l₁ ++ some sl :: l₂ ∧ (∀ y ∈ l₁, holdsPid pid y = false) ∧
      (s.putSlot pid v).S = l₁ ++ v :: l₂ := by
  obtain ⟨l₁, x, l₂, h1, h2, h3, h4⟩ := set_findIdx_split (holdsPid pid) v s.S (s.any_of_slot_some pid sl h)
  have hx : some sl = x := by
    simp only [State.slot, Option.join_eq_some_iff, h1] at h
    rw [find?_split _ _ _ _ h3, if_pos h2] at h
    exact (Option.some.inj h).symm
  exact ⟨l₁, l₂, by rw [hx]; exact h1, h3, by simpa using h4⟩

/-- What `fillFree` does where an entry is free: the lowest free one becomes `v`. -/
theorem State.fillFree_split (s : State) (v : Slot) (h : s.hasFree = true) :
    ∃ l₁ l₂, s.S = l₁ ++ none :: l₂ ∧ (∀ y ∈ l₁, y.isSome = true) ∧ (s.fillFree v).S = l₁ ++ some v :: l₂ := by
  obtain ⟨l₁, x, l₂, h1, h2, h3, h4⟩ := set_findIdx_split Option.isNone (some v) s.S h
  have hx : x = none := by simpa using h2
  subst hx
  refine ⟨l₁, l₂, h1, fun y hy => ?_, by simpa using h4⟩
  have := h3 y hy
  cases y <;> simp_all

/-- The slot written is the slot read. -/
theorem State.slot_putSlot_same (s : State) (pid : Pid) (sl v : Slot) (h : s.slot pid = some sl) (hv : v.pid = pid) :
    (s.putSlot pid (some v)).slot pid = some v := by
  obtain ⟨l₁, l₂, h1, h2, h3⟩ := s.putSlot_split pid sl (some v) h
  simp only [State.slot, h3]
  rw [find?_split _ _ _ _ h2, if_pos ((holdsPid_some pid v).mpr hv)]
  rfl

/-- Every other PID keeps its slot. -/
theorem State.slot_putSlot_other (s : State) (pid q : Pid) (sl : Slot) (v : Option Slot) (h : s.slot pid = some sl)
    (hq : q ≠ pid) (hv : ∀ w ∈ v, w.pid = pid) : (s.putSlot pid v).slot q = s.slot q := by
  obtain ⟨l₁, l₂, h1, -, h3⟩ := s.putSlot_split pid sl v h
  have hp := (s.slot_some pid sl h).2
  simp only [State.slot, h3, h1]
  rw [find?_change (holdsPid q) l₁ l₂ (some sl) v (by simp [holdsPid, hp, hq.symm]) ?_]
  cases v with
  | none => rfl
  | some w => simp [holdsPid, hv w (by simp), hq.symm]

/-- After CLOSE's write no entry holds the PID (R28, R282). -/
theorem State.slot_putSlot_none (s : State) (pid : Pid) (sl : Slot) (h : s.slot pid = some sl)
    (hs : s.S.Pairwise (fun a b => slotsApart a b = true)) : (s.putSlot pid none).slot pid = none := by
  obtain ⟨l₁, l₂, h1, h2, h3⟩ := s.putSlot_split pid sl none h
  have hp := (s.slot_some pid sl h).2
  rw [State.slot_none_iff, h3]
  intro o ho
  rcases List.mem_append.mp ho with ho | ho
  · exact h2 o ho
  · rcases List.mem_cons.mp ho with rfl | ho
    · rfl
    · rw [h1, List.pairwise_append, List.pairwise_cons] at hs
      have := hs.2.1.1 o ho
      cases o with
      | none => rfl
      | some w =>
        simp only [slotsApart, hp, bne_iff_ne, ne_eq] at this
        simpa [holdsPid] using fun h : w.pid = pid => this h.symm

/-- A filled free entry is the slot of its PID where no entry held it. -/
theorem State.slot_fillFree_same (s : State) (v : Slot) (h : s.hasFree = true) (hn : s.slot v.pid = none) :
    (s.fillFree v).slot v.pid = some v := by
  obtain ⟨l₁, l₂, h1, -, h3⟩ := s.fillFree_split v h
  rw [State.slot_none_iff, h1] at hn
  simp only [State.slot, h3]
  rw [find?_split _ _ _ _ fun y hy => hn y (by simp [hy]), if_pos ((holdsPid_some _ v).mpr rfl)]
  rfl

theorem State.slot_fillFree_other (s : State) (v : Slot) (q : Pid) (h : s.hasFree = true) (hq : q ≠ v.pid) :
    (s.fillFree v).slot q = s.slot q := by
  obtain ⟨l₁, l₂, h1, -, h3⟩ := s.fillFree_split v h
  simp only [State.slot, h3, h1]
  rw [find?_change (holdsPid q) l₁ l₂ none (some v) rfl (by simp [holdsPid, hq.symm])]

/-- Writing the slot back changes nothing. -/
theorem State.putSlot_slot (s : State) (pid : Pid) (sl : Slot) (h : s.slot pid = some sl) :
    s.putSlot pid (some sl) = s := by
  obtain ⟨l₁, l₂, h1, -, h3⟩ := s.putSlot_split pid sl (some sl) h
  have : (s.putSlot pid (some sl)).S = s.S := by rw [h3, h1]
  rw [State.putSlot_S] at this
  simp [State.putSlot, this]

/-- `slotsApart` is symmetric. -/
theorem slotsApart_comm (a b : Option Slot) : slotsApart a b = slotsApart b a := by
  cases a <;> cases b <;> simp [slotsApart, bne_comm]

/-- Replacing an entry by one no other entry clashes with keeps the PIDs apart (R28). -/
theorem pairwise_apart_replace (l₁ l₂ : List (Option Slot)) (x v : Option Slot)
    (h : (l₁ ++ x :: l₂).Pairwise (fun a b => slotsApart a b = true))
    (hv : ∀ o, o ∈ l₁ ∨ o ∈ l₂ → slotsApart o v = true) :
    (l₁ ++ v :: l₂).Pairwise (fun a b => slotsApart a b = true) := by
  rw [List.pairwise_append, List.pairwise_cons] at h ⊢
  obtain ⟨h1, ⟨-, h2⟩, h3⟩ := h
  refine ⟨h1, ⟨fun o ho => by rw [slotsApart_comm]; exact hv o (.inr ho), h2⟩, fun a ha b hb => ?_⟩
  rcases List.mem_cons.mp hb with rfl | hb
  · exact hv a (.inl ha)
  · exact h3 a ha b (List.mem_cons_of_mem _ hb)

/-- `putSlot` keeps what the invariant says of S. -/
theorem State.putSlot_keeps (s : State) (pid : Pid) (sl : Slot) (v : Option Slot) (h : s.slot pid = some sl)
    (hv : ∀ w ∈ v, w.pid = pid) (hs : s.S.Pairwise (fun a b => slotsApart a b = true)) :
    (s.putSlot pid v).S.length = s.S.length ∧ (s.putSlot pid v).S.Pairwise (fun a b => slotsApart a b = true) ∧
      ∀ o ∈ (s.putSlot pid v).S, o ∈ s.S ∨ o = v := by
  obtain ⟨l₁, l₂, h1, -, h3⟩ := s.putSlot_split pid sl v h
  have hp := (s.slot_some pid sl h).2
  refine ⟨by simp, ?_, ?_⟩
  · rw [h1] at hs
    rw [h3]
    refine pairwise_apart_replace l₁ l₂ (some sl) v hs fun o ho => ?_
    have key : slotsApart o (some sl) = true := by
      rw [List.pairwise_append, List.pairwise_cons] at hs
      rcases ho with ho | ho
      · exact hs.2.2 o ho (some sl) (by simp)
      · rw [slotsApart_comm]; exact hs.2.1.1 o ho
    cases o with
    | none => rfl
    | some a => cases v with
      | none => rfl
      | some w => simpa [slotsApart, hp, hv w (by simp)] using key
  · intro o ho
    rw [h3] at ho
    rw [h1]
    rcases List.mem_append.mp ho with ho | ho
    · exact .inl (by simp [ho])
    · rcases List.mem_cons.mp ho with rfl | ho
      · exact .inr rfl
      · exact .inl (by simp [ho])

/-- `fillFree` keeps what the invariant says of S where no entry holds the new PID. -/
theorem State.fillFree_keeps (s : State) (v : Slot) (h : s.hasFree = true) (hn : s.slot v.pid = none)
    (hs : s.S.Pairwise (fun a b => slotsApart a b = true)) :
    (s.fillFree v).S.length = s.S.length ∧ (s.fillFree v).S.Pairwise (fun a b => slotsApart a b = true) ∧
      ∀ o ∈ (s.fillFree v).S, o ∈ s.S ∨ o = some v := by
  obtain ⟨l₁, l₂, h1, -, h3⟩ := s.fillFree_split v h
  rw [State.slot_none_iff, h1] at hn
  refine ⟨by simp, ?_, ?_⟩
  · rw [h1] at hs
    rw [h3]
    refine pairwise_apart_replace l₁ l₂ none (some v) hs fun o ho => ?_
    have := hn o (by rcases ho with ho | ho <;> simp [ho])
    cases o with
    | none => rfl
    | some a => simpa [slotsApart, holdsPid] using this
  · intro o ho
    rw [h3] at ho
    rw [h1]
    rcases List.mem_append.mp ho with ho | ho
    · exact .inl (by simp [ho])
    · rcases List.mem_cons.mp ho with rfl | ho
      · exact .inr rfl
      · exact .inl (by simp [ho])

end Sys2Proof.Machine
end

