-- ==== Sys2Proof/Laws/Reassembly.lean ====
section
/-! SUPPORT. What each operation of the reassembly machine (45_depacketizer.md R284) can do, said once. -/

namespace Sys2Proof.Machine

@[simp] theorem Reassembly.emit_slot (x : Reassembly) (e : Event) : (x.emit e).slot = x.slot := rfl
@[simp] theorem Reassembly.emit_queue (x : Reassembly) (e : Event) : (x.emit e).queue = x.queue := rfl
@[simp] theorem Reassembly.emit_events (x : Reassembly) (e : Event) : (x.emit e).events = x.events ++ [e] := rfl
@[simp] theorem Reassembly.drop_slot (x : Reassembly) : x.drop.slot = x.slot.emptied .discarding := rfl
@[simp] theorem Reassembly.drop_queue (x : Reassembly) : x.drop.queue = x.queue := rfl
@[simp] theorem Reassembly.drop_events (x : Reassembly) : x.drop.events = x.events := rfl
@[simp] theorem Reassembly.toIdle_slot (x : Reassembly) : x.toIdle.slot = x.slot.emptied .idle := rfl
@[simp] theorem Reassembly.toIdle_queue (x : Reassembly) : x.toIdle.queue = x.queue := rfl
@[simp] theorem Reassembly.toIdle_events (x : Reassembly) : x.toIdle.events = x.events := rfl
@[simp] theorem Slot.emptied_pid (sl : Slot) (ph : SlotPhase) : (sl.emptied ph).pid = sl.pid := rfl
@[simp] theorem Slot.emptied_kind (sl : Slot) (ph : SlotPhase) : (sl.emptied ph).kind = sl.kind := rfl
@[simp] theorem Slot.emptied_state (sl : Slot) (ph : SlotPhase) : (sl.emptied ph).state = ph := rfl
@[simp] theorem Slot.emptied_buf (sl : Slot) (ph : SlotPhase) : (sl.emptied ph).buf = [] := rfl
@[simp] theorem Slot.emptied_target (sl : Slot) (ph : SlotPhase) : (sl.emptied ph).target = .unknown := rfl

/-- An emptied slot is a good slot unless it is called Accumulating (10_state.md R27). -/
theorem Slot.emptied_wf (p : Params) (sl : Slot) (ph : SlotPhase) (h : ph ≠ .accumulating) : (sl.emptied ph).wf p := by
  simp [Slot.wf, h]

@[simp] theorem Slot.withTarget_pid (sl : Slot) : sl.withTarget.pid = sl.pid := by
  unfold Slot.withTarget; split <;> rfl
@[simp] theorem Slot.withTarget_kind (sl : Slot) : sl.withTarget.kind = sl.kind := by
  unfold Slot.withTarget; split <;> rfl
@[simp] theorem Slot.withTarget_state (sl : Slot) : sl.withTarget.state = sl.state := by
  unfold Slot.withTarget; split <;> rfl
@[simp] theorem Slot.withTarget_buf (sl : Slot) : sl.withTarget.buf = sl.buf := by
  unfold Slot.withTarget; split <;> rfl

/-- Everything `deliver` can do (R291, R294): the slot stays, and the unit is rejected by its codec, lost to a full
queue, or appended. -/
theorem Reassembly.deliver_cases (p : Params) (u : Bytes) (x : Reassembly) :
    (∃ e, decodeUnit x.slot.kind u = .error e ∧ x.deliver p u = x.emit (evRejected e)) ∨
    (∃ v, decodeUnit x.slot.kind u = .ok v ∧ x.queue.length = p.qdepth ∧ x.deliver p u = x.emit evQueueOverflow) ∨
    (∃ v, decodeUnit x.slot.kind u = .ok v ∧ x.queue.length ≠ p.qdepth ∧
      x.deliver p u =
        ({ x with queue := x.queue ++ [{ pid := x.slot.pid, value := v }] } : Reassembly).emit evCompleted) := by
  unfold Reassembly.deliver
  cases h : decodeUnit x.slot.kind u with
  | error e => exact .inl ⟨e, rfl, rfl⟩
  | ok v =>
    by_cases hq : x.queue.length = p.qdepth
    · exact .inr (.inl ⟨v, rfl, hq, by simp [hq]⟩)
    · exact .inr (.inr ⟨v, rfl, hq, by simp [hq]⟩)

@[simp] theorem Reassembly.deliver_slot (p : Params) (u : Bytes) (x : Reassembly) : (x.deliver p u).slot = x.slot := by
  rcases x.deliver_cases p u with ⟨e, -, h⟩ | ⟨v, -, -, h⟩ | ⟨v, -, -, h⟩ <;> simp [h]

/-- `deliver` emits exactly one event. -/
theorem Reassembly.deliver_events (p : Params) (u : Bytes) (x : Reassembly) :
    ∃ e, (x.deliver p u).events = x.events ++ [e] := by
  rcases x.deliver_cases p u with ⟨e, -, h⟩ | ⟨v, -, -, h⟩ | ⟨v, -, -, h⟩ <;> exact ⟨_, by simp [h]; rfl⟩

/-- `deliver` appends at most one unit, of the slot's PID (R294). -/
theorem Reassembly.deliver_queue (p : Params) (u : Bytes) (x : Reassembly) :
    (x.deliver p u).queue = x.queue ∨
      ∃ v, decodeUnit x.slot.kind u = .ok v ∧ x.queue.length ≠ p.qdepth ∧
        (x.deliver p u).queue = x.queue ++ [{ pid := x.slot.pid, value := v }] := by
  rcases x.deliver_cases p u with ⟨e, -, h⟩ | ⟨v, -, -, h⟩ | ⟨v, hv, hq, h⟩
  · exact .inl (by simp [h])
  · exact .inl (by simp [h])
  · exact .inr ⟨v, hv, hq, by simp [h]⟩

/-- Everything `advance` can do (R288, R291, R293). -/
theorem Reassembly.advance_cases (p : Params) (x : Reassembly) :
    (x.slot.withinTarget p = true ∧ x.advance p = x) ∨
    (x.slot.target = .unbounded ∧ p.unboundedPesCap < x.slot.buf.length ∧
      x.advance p = (x.emit evDroppedOverflow).drop) ∨
    (∃ n, x.slot.target = .bounded n ∧ n ≤ x.slot.buf.length ∧
      x.advance p = x.toIdle.deliver p (x.slot.buf.take n)) := by
  unfold Reassembly.advance Slot.withinTarget
  cases h : x.slot.target with
  | unknown => simp
  | unbounded =>
    by_cases hl : x.slot.buf.length > p.unboundedPesCap
    · simp [hl]
    · simp [hl]; omega
  | bounded n =>
    by_cases hl : x.slot.buf.length ≥ n
    · simp [hl]
    · simp [hl]; omega

@[simp] theorem Reassembly.advance_pid (p : Params) (x : Reassembly) : (x.advance p).slot.pid = x.slot.pid := by
  rcases x.advance_cases p with ⟨-, h⟩ | ⟨-, -, h⟩ | ⟨n, -, -, h⟩ <;> simp [h]
@[simp] theorem Reassembly.advance_kind (p : Params) (x : Reassembly) : (x.advance p).slot.kind = x.slot.kind := by
  rcases x.advance_cases p with ⟨-, h⟩ | ⟨-, -, h⟩ | ⟨n, -, -, h⟩ <;> simp [h]
@[simp] theorem Reassembly.progress_pid (p : Params) (x : Reassembly) : (x.progress p).slot.pid = x.slot.pid := by
  simp [Reassembly.progress]
@[simp] theorem Reassembly.progress_kind (p : Params) (x : Reassembly) : (x.progress p).slot.kind = x.slot.kind := by
  simp [Reassembly.progress]

/-- A declared target does not change when bytes are appended (R288). -/
theorem declaredTarget_append (k : Kind) (a b : Bytes) (h : declaredTarget k a ≠ .unknown) :
    declaredTarget k (a ++ b) = declaredTarget k a := by
  cases k with
  | psi =>
    have ha : 3 ≤ a.length := by
      by_contra hc
      simp [declaredTarget, show ¬ 3 ≤ a.length from hc] at h
    have hs : slice (a ++ b) 1 3 = slice a 1 3 := by
      simp only [slice]
      rw [List.drop_append_of_le_length (by omega), List.take_append_of_le_length (by simp; omega)]
    simp [declaredTarget, ha, field, memRead, hs, show 3 ≤ a.length + b.length by omega]
  | pes =>
    have ha : 6 ≤ a.length := by
      by_contra hc
      simp [declaredTarget, show ¬ 6 ≤ a.length from hc] at h
    have hs : slice (a ++ b) 4 6 = slice a 4 6 := by
      simp only [slice]
      rw [List.drop_append_of_le_length (by omega), List.take_append_of_le_length (by simp; omega)]
    have hm : memRead (a ++ b) 4 2 = memRead a 4 2 := congrArg beNat hs
    simp only [declaredTarget, List.length_append, ge_iff_le, if_pos ha, if_pos (show 6 ≤ a.length + b.length by omega), hm]

/-- `progress` on an accumulating slot whose target is Unknown or what its buffer declares leaves a good slot
(R288, R291-R293). -/
theorem Reassembly.progress_wf (p : Params) (x : Reassembly)
    (hacc : x.slot.state = .accumulating)
    (ht : x.slot.target = .unknown ∨ x.slot.target = declaredTarget x.slot.kind x.slot.buf) :
    (x.progress p).slot.wf p := by
  have htgt : x.slot.withTarget.target = declaredTarget x.slot.kind x.slot.buf := by
    unfold Slot.withTarget
    split
    · rfl
    · rename_i hne
      exact ht.resolve_left hne
  unfold Reassembly.progress
  rcases Reassembly.advance_cases p { x with slot := x.slot.withTarget } with ⟨hw, h⟩ | ⟨-, -, h⟩ | ⟨n, -, -, h⟩
  · rw [h]
    simp only [Slot.wf, Slot.withTarget_state, hacc, if_true, Slot.withTarget_kind, Slot.withTarget_buf]
    exact ⟨htgt, hw⟩
  · rw [h]; exact Slot.emptied_wf _ _ _ (by simp)
  · rw [h]; simp only [Reassembly.deliver_slot, Reassembly.toIdle_slot]; exact Slot.emptied_wf _ _ _ (by simp)

/-- A command that only answers writes no state (10_state.md R42). -/
theorem answersOnly_answer {i : Instr} {s : State} {r : Response} (h : exec i s = .next (s.answer r)) :
    AnswersOnly i s r := ⟨_, h, by simp [BlockKept], by simp [Answered]⟩

/-- The codec command of a slot's kind answers a unit as `decodeUnit` reads it (R291). -/
theorem unitCodec_answers (kind : Kind) (u : Bytes) (s : State) (h : s.operand = .bytes u) :
    AnswersOnly (unitCodec kind) s
      (match decodeUnit kind u with
        | .error e => errorResponse e
        | .ok v => okResponse v.output []) := by
  apply answersOnly_answer
  cases kind
  · cases hd : decodePes u <;>
      simp [unitCodec, exec, execDecodePes, State.inBytes, h, withOperand, decodeUnit, hd, Except.map, resultResponse,
        UnitValue.output]
  · cases hd : decodeSection u <;>
      simp [unitCodec, exec, execDecodeSection, State.inBytes, h, withOperand, decodeUnit, hd, Except.map, resultResponse,
        UnitValue.output]

/-- No error has the code of OK (60_exceptions.md R351). -/
theorem ErrorStatus.code_ne_ok (e : ErrorStatus) : e.code ≠ 0#8 := by cases e <;> simp [ErrorStatus.code]

/-- `deliver` does what R291 and R294 say. -/
theorem Reassembly.deliver_delivered (p : Params) (u : Bytes) (x : Reassembly) :
    ∃ ev, (x.deliver p u).events = x.events ++ ev ∧
      Delivered p x.slot.pid x.slot.kind u x.queue (x.deliver p u).queue ev := by
  have hc := unitCodec_answers x.slot.kind u
  rcases x.deliver_cases p u with ⟨e, h1, h2⟩ | ⟨v, h1, h3, h2⟩ | ⟨v, h1, h3, h2⟩ <;> rw [h1] at hc
  · exact ⟨[evRejected e], by simp [h2], _, hc, by simp [errorResponse, e.code_ne_ok, h2, evRejected]⟩
  · exact ⟨[evQueueOverflow], by simp [h2], _, hc, by simp [okResponse, statusOk, h2, h3, evQueueOverflow]⟩
  · exact ⟨[evCompleted], by simp [h2], _, hc, by simp [okResponse, statusOk, h2, h3, evCompleted]⟩

/-- `progress` does what R288 and R291 to R294 say, on an accumulating slot whose target is Unknown or declared. -/
theorem Reassembly.progress_accumulated (p : Params) (x : Reassembly) (hacc : x.slot.state = .accumulating)
    (ht : x.slot.target = .unknown ∨ x.slot.target = declaredTarget x.slot.kind x.slot.buf) :
    ∃ ev, (x.progress p).events = x.events ++ ev ∧
      Accumulated p x.slot.pid x.slot.kind x.slot.buf x.queue (x.progress p).slot (x.progress p).queue ev := by
  have hw : x.slot.withTarget = { x.slot with target := declaredTarget x.slot.kind x.slot.buf } := by
    unfold Slot.withTarget
    split
    · rfl
    · rename_i hne
      rw [← ht.resolve_left hne]
  obtain ⟨⟨pid, kind, state, buf, target⟩, q, ev0⟩ := x
  simp only at hacc hw ht
  subst hacc
  simp only [Reassembly.progress, Reassembly.advance, hw, Accumulated]
  cases hd : declaredTarget kind buf with
  | unknown => simp
  | unbounded =>
    by_cases hl : buf.length ≤ p.unboundedPesCap
    · simp [hl, show ¬ p.unboundedPesCap < buf.length by omega]
    · simp [hl, show p.unboundedPesCap < buf.length by omega, Slot.emptied, evDroppedOverflow]
  | bounded n =>
    by_cases hl : buf.length < n
    · simp [hl, show ¬ n ≤ buf.length by omega]
    · simp only [hl, if_false, show buf.length ≥ n by omega, if_true]
      obtain ⟨ev, h1, h2⟩ := Reassembly.deliver_delivered p (buf.take n) (Reassembly.toIdle ⟨⟨pid, kind, .accumulating, buf, .bounded n⟩, q, ev0⟩)
      refine ⟨ev, ?_, ?_, ?_⟩
      · simpa using h1
      · simp [Slot.emptied]
      · simpa using h2

/-! No step of the reassembly machine changes the slot's PID. -/

theorem Reassembly.start_pid (p : Params) (d : Bytes) (x : Reassembly) : (x.start p d).slot.pid = x.slot.pid := by
  simp only [Reassembly.start, Reassembly.progress_pid]; split <;> simp
theorem Reassembly.append_pid (p : Params) (d : Bytes) (x : Reassembly) : (x.append p d).slot.pid = x.slot.pid := by
  simp [Reassembly.append]
theorem Reassembly.startPsi_pid (p : Params) (d : Bytes) (x : Reassembly) : (x.startPsi p d).slot.pid = x.slot.pid := by
  unfold Reassembly.startPsi
  split
  · simp
  · split
    · simp
    · simp only [Reassembly.start_pid]; split <;> simp [Reassembly.append_pid]
theorem Reassembly.takePayload_pid (p : Params) (k : TsPacket) (x : Reassembly) : (x.takePayload p k).slot.pid = x.slot.pid := by
  unfold Reassembly.takePayload Reassembly.startUnit Reassembly.continueUnit
  split
  · rfl
  · split
    · split
      · exact Reassembly.startPsi_pid ..
      · exact Reassembly.start_pid ..
    · split
      · exact Reassembly.append_pid ..
      · simp
theorem Reassembly.run_pid (p : Params) (k : TsPacket) (v : Verdict) (x : Reassembly) : (x.run p k v).slot.pid = x.slot.pid := by
  cases v
  · exact Reassembly.takePayload_pid ..
  · simp only [Reassembly.run, Reassembly.takePayload_pid, Reassembly.lose]; split <;> simp
  · simp [Reassembly.run]

/-- `start` emits EarlyStart for an unfinished unit, then accumulates the new one (R286). -/
theorem Reassembly.start_accumulated (p : Params) (d : Bytes) (x : Reassembly) :
    ∃ ev, (x.start p d).events = x.events ++ (if x.slot.state = .accumulating then [⟨4, 1⟩] else []) ++ ev ∧
      Accumulated p x.slot.pid x.slot.kind d x.queue (x.start p d).slot (x.start p d).queue ev := by
  by_cases ha : x.slot.state = .accumulating
  · obtain ⟨ev, h1, h2⟩ := Reassembly.progress_accumulated p ⟨{ (x.emit evDroppedEarlyStart).drop.slot with state := .accumulating, buf := d, target := .unknown }, x.queue, (x.emit evDroppedEarlyStart).drop.events⟩ rfl (.inl rfl)
    refine ⟨ev, ?_, ?_⟩
    · simpa [Reassembly.start, ha, evDroppedEarlyStart] using h1
    · simpa [Reassembly.start, ha] using h2
  · obtain ⟨ev, h1, h2⟩ := Reassembly.progress_accumulated p ⟨{ x.slot with state := .accumulating, buf := d, target := .unknown }, x.queue, x.events⟩ rfl (.inl rfl)
    refine ⟨ev, ?_, ?_⟩
    · simpa [Reassembly.start, ha] using h1
    · simpa [Reassembly.start, ha] using h2

/-- What `lose` leaves (R286). -/
theorem Reassembly.lose_parts (sl : Slot) (q : List CompletedUnit) :
    (Reassembly.lose ⟨sl, q, []⟩).slot = sl.emptied .discarding ∧ (Reassembly.lose ⟨sl, q, []⟩).queue = q ∧
    (Reassembly.lose ⟨sl, q, []⟩).events = [⟨3, 0⟩] ++ (if sl.state = .accumulating then [⟨4, 0⟩] else []) := by
  by_cases ha : sl.state = .accumulating <;> simp [Reassembly.lose, ha, evDiscontinuity, evDroppedDiscontinuity]

end Sys2Proof.Machine
end

