-- ==== Sys2Proof/Laws/Ops.lean ====
section
/-! SUPPORT. The command port and the operand forms: what each shared operation answers, said once. -/

namespace Sys2Proof.Machine

/-- `return v`: the command is answered with OK and nothing else changes. -/
theorem complete_next (s t : State) (out : Output) (h : complete s out = .next t) :
    t = s.answer (okResponse out []) := by
  simpa [complete] using h.symm

/-- `raise E`: the command is answered with the status and its information, and the block is kept (R353). -/
theorem raise_next (e : ErrorStatus) (s t : State) (h : raise e s = .next t) :
    t = s.answer (errorResponse e) ∧ BlockKept s t := by
  have : t = s.answer (errorResponse e) := by simpa [raise] using h.symm
  exact ⟨this, by simp [this, BlockKept]⟩

/-- A command with an IN operand answers only on a typed one (R334). -/
theorem withOperand_next {α : Type} (o : Option α) (k : α → Host.Outcome State Fault Refusal) (t : State)
    (h : withOperand o k = .next t) : ∃ v, o = some v ∧ k v = .next t := by
  cases o with
  | none => simp [withOperand] at h
  | some v => exact ⟨v, rfl, h⟩

@[simp] theorem withOperand_some {α : Type} (v : α) (k : α → Host.Outcome State Fault Refusal) :
    withOperand (some v) k = k v := rfl

@[simp] theorem withOperand_none {α : Type} (k : α → Host.Outcome State Fault Refusal) :
    withOperand none k = .refused .illTypedOperand := rfl

/-- The operand of the command at the port. -/
theorem State.operand_eq (s : State) (c : Command) (rest : List HostInput) (h : s.inputs = .command c :: rest) :
    s.operand = c.operand := by
  simp [State.operand, h]

theorem State.inPacket188_eq (s : State) (b : Bytes) (h : s.operand = .bytes b) (hb : b.length = 188) :
    s.inPacket188 = some b := by
  simp [State.inPacket188, h, isPacket188, hb]

theorem State.inBytes_eq (s : State) (b : Bytes) (h : s.operand = .bytes b) : s.inBytes = some b := by
  simp [State.inBytes, h]

theorem State.inTsPacket_eq (s : State) (p : TsPacket) (h : s.operand = .tsPacket p) (hp : p.wellTyped = true) :
    s.inTsPacket = some p := by
  simp [State.inTsPacket, h, hp]

theorem State.inSection_eq (s : State) (v : Section) (h : s.operand = .sec v) (hv : v.wellTyped = true) :
    s.inSection = some v := by
  simp [State.inSection, h, hv]

theorem State.inPes_eq (s : State) (p : PesPacket) (h : s.operand = .pes p) : s.inPes = some p := by
  simp [State.inPes, h]

/-- Everything `inPacket188` can give. -/
theorem State.inPacket188_some (s : State) (b : Bytes) (h : s.inPacket188 = some b) :
    s.operand = .bytes b ∧ b.length = 188 := by
  unfold State.inPacket188 at h
  split at h
  · rename_i b' hb
    split at h
    · rename_i hl
      have hbb : b' = b := Option.some.inj h
      exact ⟨hbb ▸ hb, by simpa [isPacket188, hbb] using hl⟩
    · simp at h
  · simp at h

/-- The command at the port decodes: it is run. -/
theorem fetch_run (s : State) (c : Command) (rest : List HostInput) (i : Instr) (hp : s.params.legal)
    (h : s.inputs = .command c :: rest) (hd : decode c.word = .ok i) : fetch s = .run i := by
  simp [fetch, hp, h, hd]

/-- The command at the port does not decode: it is illegal. -/
theorem fetch_illegal (s : State) (c : Command) (rest : List HostInput) (e : DecodeError) (hp : s.params.legal)
    (h : s.inputs = .command c :: rest) (hd : decode c.word = .error e) : fetch s = .illegal c.word := by
  simp [fetch, hp, h, hd]

/-- No input is waiting. -/
theorem fetch_idle (s : State) (hp : s.params.legal) (h : s.inputs = []) : fetch s = .idle := by
  simp [fetch, hp, h]

/-- The reset input is driven. -/
theorem fetch_resetInput (s : State) (rest : List HostInput) (hp : s.params.legal) (h : s.inputs = .resetInput :: rest) :
    fetch s = .resetInput := by
  simp [fetch, hp, h]

/-- Parameters that break R8. -/
theorem fetch_notBuilt (s : State) (hp : ¬ s.params.legal) : fetch s = .notBuilt := by
  simp [fetch, hp]

end Sys2Proof.Machine
end

