-- ==== Sys2Proof/Laws/Bits.lean ====
section
/-! SUPPORT. Byte strings: lengths of slices and the packets' fixed size. -/

namespace Sys2Proof.Machine

theorem slice_length (b : Bytes) (i j : Nat) : (slice b i j).length = min (j - i) (b.length - i) := by
  simp [slice]

theorem slice_length_le (b : Bytes) (i j : Nat) : (slice b i j).length ≤ j - i := by
  rw [slice_length]; exact Nat.min_le_left _ _

/-- Two slices that meet are one slice. -/
theorem slice_append_slice (b : Bytes) (i j k : Nat) (hij : i ≤ j) (hjk : j ≤ k) :
    slice b i j ++ slice b j k = slice b i k := by
  simp only [slice]
  rw [show k - i = (j - i) + (k - j) by omega, List.take_add, List.drop_drop, show i + (j - i) = j by omega]

@[simp] theorem be32_length (v : BitVec 32) : (be32 v).length = 4 := rfl
@[simp] theorem be16_length (v : BitVec 16) : (be16 v).length = 2 := rfl
@[simp] theorem pcrBytes_length (x : Pcr) : (pcrBytes x).length = 6 := rfl
@[simp] theorem headerBytes_length (p : TsPacket) (afc : BitVec 2) : (headerBytes p afc).length = 4 := rfl
@[simp] theorem tsBytes_length (pfx : BitVec 4) (v : BitVec 33) : (tsBytes pfx v).length = 5 := rfl

/-- AF_EMPTY has no content (40_ts_packet.md R147). -/
@[simp] theorem afContent_empty : afContent AdaptationField.empty = [] := by simp [afContent]

/-- The adaptation field fills the `s` bytes it is given (40_ts_packet.md R146, R149). -/
theorem afBytes_length (c : Bytes) (s : Nat) (hs : 1 ≤ s) (hc : 1 + c.length ≤ s) : (afBytes c s).length = s := by
  unfold afBytes
  by_cases h1 : s - 1 = 0
  · simp [h1]; omega
  · by_cases h2 : c = []
    · simp [h1, h2]; omega
    · simp [h1, h2]; omega

/-- A packet value that fits is framed in exactly 188 bytes (R149). -/
theorem framePacket_length (p : TsPacket) (h1 : (p.payload.getD []).length ≤ 184)
    (h2 : fullPayload p = false → 1 + (afContent p.af).length ≤ 184 - (p.payload.getD []).length) :
    (framePacket p).length = 188 := by
  unfold framePacket
  by_cases hf : fullPayload p = true
  · have : (p.payload.getD []).length = 184 := by simpa [fullPayload] using hf
    simp [hf, this]
  · have hf' : fullPayload p = false := by simpa using hf
    have h3 := h2 hf'
    simp only [hf', Bool.false_eq_true, if_false, List.length_append, headerBytes_length]
    rw [afBytes_length _ _ (by omega) h3]
    omega

end Sys2Proof.Machine
end

