-- ==== Sys2Proof/Laws/Continuity.lean ====
section
/-! SUPPORT. The continuity validator, in the terms claims are stated in. -/

namespace Sys2Proof.Machine

/-- The validator, said once (R171, R173 to R178): the entry is always the received counter afterwards. -/
theorem ccCheck_spec (entry : Option Counter) (cc : Counter) (h di : Bit) :
    ((ccCheck entry cc h di).2 = some cc) ∧
    (InSequence entry cc h di → (ccCheck entry cc h di).1 = .continuous) ∧
    (Repeated entry cc h di → (ccCheck entry cc h di).1 = .duplicate) ∧
    (¬ InSequence entry cc h di → ¬ Repeated entry cc h di → (ccCheck entry cc h di).1 = .discontinuous) := by
  cases entry with
  | none => simp [ccCheck, InSequence, Repeated]
  | some last =>
    revert last cc h di
    simp only [ccCheck, InSequence, Repeated]
    decide

end Sys2Proof.Machine
end

