-- ==== Sys2Proof/Laws/Packetizer.lean ====
section
/-! SUPPORT. SPLIT's packets: each payload is at most 184 bytes, and encode_packet cannot raise on them
(44_packetizer.md R260). -/

namespace Sys2Proof.Machine

theorem splitChunk_length_le (kind : Kind) (x : Bytes) (i : Nat) : (splitChunk kind x i).length ≤ 184 := by
  have h := slice_length_le (splitStream kind x) (184 * i) (184 * (i + 1))
  cases kind with
  | psi => simp only [splitChunk, List.length_append, List.length_replicate]; omega
  | pes => simp only [splitChunk]; omega

/-- encode_packet cannot fail on a packet of a split (R260). -/
theorem encodePacket_splitPacket (kind : Kind) (pid : Pid) (w : Counter) (x : Bytes) (i : Nat) :
    encodePacket (splitPacket kind pid w x i) = .ok (framePacket (splitPacket kind pid w x i)) := by
  have h := splitChunk_length_le kind x i
  have hp : ((splitPacket kind pid w x i).payload.getD []).length ≤ 184 := by simpa [splitPacket] using h
  have hc : afContent (splitPacket kind pid w x i).af = [] := by simp [splitPacket]
  unfold encodePacket
  rw [if_neg (by omega)]
  by_cases hf : fullPayload (splitPacket kind pid w x i) = true
  · simp [hf, hc]
  · have hne : ((splitPacket kind pid w x i).payload.getD []).length ≠ 184 := by simpa [fullPayload] using hf
    rw [if_neg hf, if_neg (by rw [hc]; simp only [List.length_nil]; omega)]

/-- Every packet of a split is 188 bytes (R265). -/
theorem splitPackets_length188 (kind : Kind) (pid : Pid) (w : Counter) (x : Bytes) :
    ∀ b ∈ splitPackets kind pid w x, b.length = 188 := by
  intro b hb
  simp only [splitPackets, List.mem_map] at hb
  obtain ⟨i, -, rfl⟩ := hb
  have h := splitChunk_length_le kind x i
  refine framePacket_length _ (by simpa [splitPacket] using h) fun hf => ?_
  have hne : (splitChunk kind x i).length ≠ 184 := by simpa [fullPayload, splitPacket] using hf
  simp only [splitPacket, afContent_empty, List.length_nil, Option.getD_some]
  omega

end Sys2Proof.Machine
end

