-- ==== Sys2Proof/Laws/Encoding.lean ====
section
/-! SUPPORT. The opcode table: which assembled words a row admits (30_encoding.md R81, R85, R86). -/

namespace Sys2Proof

/-- Two concatenations are equal exactly when their parts are. -/
theorem append_inj_iff {n m : Nat} (x₁ x₂ : BitVec n) (y₁ y₂ : BitVec m) :
    x₁ ++ y₁ = x₂ ++ y₂ ↔ x₁ = x₂ ∧ y₁ = y₂ := by
  constructor
  · intro h
    constructor
    · apply BitVec.eq_of_getLsbD_eq
      intro i hi
      have := congrArg (·.getLsbD (m + i)) h
      simpa [BitVec.getLsbD_append] using this
    · apply BitVec.eq_of_getLsbD_eq
      intro i hi
      have := congrArg (·.getLsbD i) h
      simpa [BitVec.getLsbD_append, hi] using this
  · rintro ⟨rfl, rfl⟩; rfl
/-- A mask of the opcode table: opcode and reserved bits fixed, and the fields the row forbids. -/
def maskOf (mc : Counter) (md mf : Bit) (mp : Pid) : CommandWord :=
  (0xFF : BitVec 8) ++ mc ++ md ++ (0b111 : BitVec 3) ++ mf ++ (0b11 : BitVec 2) ++ mp
/-- An assembled word matches a row exactly when it has the row's opcode and sets no field the row forbids (R86). -/
theorem and_maskOf_eq (op op' : Byte) (ccv mc : Counter) (di flag md mf : Bit) (pid mp : Pid) :
    (assemble op ccv di flag pid &&& maskOf mc md mf mp = assemble op' 0 0 0 0) ↔
      op = op' ∧ ccv &&& mc = 0 ∧ di &&& md = 0 ∧ flag &&& mf = 0 ∧ pid &&& mp = 0 := by
  have hop : op &&& 0xFF = op := by
    rw [show (0xFF : BitVec 8) = BitVec.allOnes 8 by decide, BitVec.and_allOnes]
  have hand : ((op ++ ccv ++ di ++ (0 : BitVec 3) ++ flag ++ (0 : BitVec 2) ++ pid) &&&
      ((0xFF : BitVec 8) ++ mc ++ md ++ (0b111 : BitVec 3) ++ mf ++ (0b11 : BitVec 2) ++ mp)) =
      (op &&& 0xFF) ++ (ccv &&& mc) ++ (di &&& md) ++ ((0 : BitVec 3) &&& 0b111) ++ (flag &&& mf) ++
        ((0 : BitVec 2) &&& 0b11) ++ (pid &&& mp) := by
    simp only [BitVec.and_append]
  have key : ((op &&& 0xFF) ++ (ccv &&& mc) ++ (di &&& md) ++ ((0 : BitVec 3) &&& 0b111) ++ (flag &&& mf) ++
        ((0 : BitVec 2) &&& 0b11) ++ (pid &&& mp) =
      op' ++ (0 : BitVec 4) ++ (0 : BitVec 1) ++ (0 : BitVec 3) ++ (0 : BitVec 1) ++ (0 : BitVec 2) ++ (0 : BitVec 13)) ↔
      op = op' ∧ ccv &&& mc = 0 ∧ di &&& md = 0 ∧ flag &&& mf = 0 ∧ pid &&& mp = 0 := by
    simp only [append_inj_iff, hop]
    simp [and_assoc]
  rw [← key, ← hand]
  rfl
/-- A row of the table, its mask by the fields it forbids. -/
def rowOf (name : String) (op : Byte) (mc : Counter) (md mf : Bit) (mp : Pid) : OpcodeRow :=
  ⟨name, assemble op 0 0 0 0, maskOf mc md mf mp⟩

theorem rowOf_admits (name : String) (op op' : Byte) (ccv mc : Counter) (di flag md mf : Bit) (pid mp : Pid) :
    (rowOf name op' mc md mf mp).admits (assemble op ccv di flag pid) =
      decide (op = op' ∧ ccv &&& mc = 0 ∧ di &&& md = 0 ∧ flag &&& mf = 0 ∧ pid &&& mp = 0) := by
  rw [Bool.eq_iff_iff, decide_eq_true_iff, ← and_maskOf_eq, OpcodeRow.admits, beq_iff_eq]
  rfl

theorem rowOf_mnemonic (name : String) (op : Byte) (mc : Counter) (md mf : Bit) (mp : Pid) :
    (rowOf name op mc md mf mp).mnemonic = name := rfl

/-- The opcode table of the spec, row by row, in these terms. -/
theorem opcodeTable_eq : opcodeTable =
    [rowOf "NOP" 0 15 1 1 0x1FFF,
     rowOf "RESET" 1 15 1 1 0x1FFF,
     rowOf "DECODE_PACKET" 0x10 15 1 1 0x1FFF,
     rowOf "ENCODE_PACKET" 0x11 15 1 1 0x1FFF,
     rowOf "CC_NEXT" 0x20 15 1 0 0,
     rowOf "CC_VALIDATE" 0x21 0 0 0 0,
     rowOf "CRC32" 0x30 15 1 1 0x1FFF,
     rowOf "DECODE_SECTION" 0x31 15 1 1 0x1FFF,
     rowOf "ENCODE_SECTION" 0x32 15 1 1 0x1FFF,
     rowOf "DECODE_PES" 0x40 15 1 1 0x1FFF,
     rowOf "ENCODE_PES" 0x41 15 1 1 0x1FFF,
     rowOf "SPLIT" 0x50 15 1 0 0,
     rowOf "OPEN" 0x60 15 1 0 0,
     rowOf "CLOSE" 0x61 15 1 1 0,
     rowOf "FEED" 0x62 15 1 1 0x1FFF,
     rowOf "FINISH" 0x63 15 1 1 0,
     rowOf "TAKE_COMPLETED" 0x64 15 1 1 0x1FFF,
     rowOf "SLOT_STATE" 0x65 15 1 1 0] := by decide
/-- A concatenation as a number. -/
theorem toNat_append_eq {n m : Nat} (x : BitVec n) (y : BitVec m) : (x ++ y).toNat = x.toNat * 2 ^ m + y.toNat := by
  rw [BitVec.toNat_append, ← Nat.shiftLeft_add_eq_or_of_lt y.isLt, Nat.shiftLeft_eq]

/-- The number of an assembled word (R80, R85). -/
theorem assemble_toNat (op : Byte) (ccv : Counter) (di flag : Bit) (pid : Pid) :
    (assemble op ccv di flag pid).toNat =
      op.toNat * 2^24 + ccv.toNat * 2^20 + di.toNat * 2^19 + flag.toNat * 2^15 + pid.toNat := by
  simp only [assemble, toNat_append_eq]
  simp
  omega

/-- The fields of an assembled word are the ones it was made of. -/
theorem wordFields_assemble (op : Byte) (ccv : Counter) (di flag : Bit) (pid : Pid) :
    wordFields (assemble op ccv di flag pid) = ⟨op, ccv, di, 0, flag, 0, pid⟩ := by
  have h := assemble_toNat op ccv di flag pid
  have := op.isLt; have := ccv.isLt; have := di.isLt; have := flag.isLt; have := pid.isLt
  simp only [wordFields, WordFields.mk.injEq]
  refine ⟨?_, ?_, ?_, ?_, ?_, ?_, ?_⟩ <;> apply BitVec.eq_of_toNat_eq <;>
    simp only [BitVec.extractLsb'_toNat, h, Nat.shiftRight_eq_div_pow] <;> simp <;> omega

/-- A word whose reserved fields are 0 is assembled from its fields. -/
theorem assemble_wordFields (w : CommandWord) (h1 : (wordFields w).rsv1 = 0) (h0 : (wordFields w).rsv0 = 0) :
    assemble (wordFields w).op (wordFields w).ccv (wordFields w).di (wordFields w).flag (wordFields w).pid = w := by
  apply BitVec.eq_of_toNat_eq
  rw [assemble_toNat]
  have h1 := congrArg BitVec.toNat h1
  have h0 := congrArg BitVec.toNat h0
  have := w.isLt
  simp only [wordFields, BitVec.extractLsb'_toNat, Nat.shiftRight_eq_div_pow] at *
  simp at *
  omega

theorem kindOfBit_bitOfKind (k : Kind) : kindOfBit (bitOfKind k) = k := by cases k <;> rfl
theorem bitOfKind_kindOfBit (b : Bit) : bitOfKind (kindOfBit b) = b := by
  rcases (by decide : ∀ b : Bit, b = 0 ∨ b = 1) b with rfl | rfl <;> rfl

/-- Everything `plainWord` can give. -/
theorem plainWord_ok {f : WordFields} {i j : Instr} (h : plainWord f i = .ok j) :
    f.ccv = 0 ∧ f.di = 0 ∧ f.flag = 0 ∧ f.pid = 0 ∧ j = i := by
  unfold plainWord at h; split at h
  · rename_i hh; injection h with h; exact ⟨hh.1, hh.2.1, hh.2.2.1, hh.2.2.2, h.symm⟩
  · cases h
/-- Everything `pidWord` can give. -/
theorem pidWord_ok {f : WordFields} {i : Pid → Instr} {j : Instr} (h : pidWord f i = .ok j) :
    f.ccv = 0 ∧ f.di = 0 ∧ f.flag = 0 ∧ j = i f.pid := by
  unfold pidWord at h; split at h
  · rename_i hh; injection h with h; exact ⟨hh.1, hh.2.1, hh.2.2, h.symm⟩
  · cases h
/-- Everything `flagPidWord` can give. -/
theorem flagPidWord_ok {f : WordFields} {i : Bit → Pid → Instr} {j : Instr} (h : flagPidWord f i = .ok j) :
    f.ccv = 0 ∧ f.di = 0 ∧ j = i f.flag f.pid := by
  unfold flagPidWord at h; split at h
  · rename_i hh; injection h with h; exact ⟨hh.1, hh.2, h.symm⟩
  · cases h

end Sys2Proof
end

