-- ==== Sys2Proof/Laws/Feed.lean ====
section
/-! SUPPORT. FEED on an open PID, reduced to the reassembly machine. -/

namespace Sys2Proof.Machine

/-- FEED of a packet that passes the filters on an open PID is `feedSlot`. -/
theorem exec_feed_open {s : State} {p : TsPacket} {sl : Slot} (h : FeedsOpen s p sl) : exec .feed s = .next (feedSlot p sl s) := by
  obtain ⟨⟨b, h1, h2, h3⟩, h4, h5, h6⟩ := h
  simp [exec, execFeed, State.inPacket188_eq s b h1 h2, h3]
  unfold feedPacket; rw [if_neg h4, if_neg (by simp [h5]), h6]

/-- What FEED leaves, in terms of the reassembly machine run with the verdict `v`. -/
theorem exec_feed_ends {s : State} {p : TsPacket} {sl : Slot} (hi : s.Inv) (h : FeedsOpen s p sl) (v : Verdict)
    (hv : (ccCheck (s.readR p.pid) p.cc (presentBit p.payload) p.af.di).1 = v) :
    FeedEnds s p.pid (some p.cc) (Reassembly.run s.params p v ⟨sl, s.Q, []⟩).slot
      (Reassembly.run s.params p v ⟨sl, s.Q, []⟩).queue (Reassembly.run s.params p v ⟨sl, s.Q, []⟩).events := by
  have hs := h.2.2.2
  have hp := (s.slot_some p.pid sl hs).2
  have hr : tableWf s.R := hi.2.2.2.1
  have h2 := (ccCheck_spec (s.readR p.pid) p.cc (presentBit p.payload) p.af.di).1
  have hx := Reassembly.run_pid s.params p v ⟨sl, s.Q, []⟩
  refine ⟨feedSlot p sl s, exec_feed_open h, ?_, ?_, ?_, ?_, ?_, ?_, ?_, ?_⟩
  all_goals simp only [feedSlot, hv, h2]
  · simp [State.readR_writeR_same _ _ _ hr]
  · rw [State.answer_slot, State.putQ_slot, State.slot_putSlot_same (s.writeR p.pid (some p.cc)) p.pid sl _ (by simpa using hs) (by rw [hx]; exact hp)]
  · intro q hq
    refine ⟨by simp [State.readR_writeR_other _ _ _ _ hq], ?_⟩
    rw [State.answer_slot, State.putQ_slot, State.slot_putSlot_other (s.writeR p.pid (some p.cc)) p.pid q sl _ (by simpa using hs) hq (by rintro w ⟨⟩; rw [hx]; exact hp)]
    simp
  · simp
  · simp
  · simp
  · simp
  · simp [Answered, okResponse, statusOk]

end Sys2Proof.Machine
end

