-- ==== Sys2Proof/Laws/PerInstr.lean ====
section
/-! SUPPORT. Statements made per command. `TableRow`: the encoding of a command matches the row of the opcode table
that has its mnemonic, and no row with another (30_encoding.md R81, R83, R85). -/

namespace Sys2Proof.Laws.TableRow

/-- The rows of the opcode table that admit the word of `i` are exactly the row of its mnemonic. -/
def Statement (i : Instr) : Prop :=
  (opcodeTable.filter fun row => row.admits (encode i)).map OpcodeRow.mnemonic = [mnemonicOf i]

theorem nop : Statement .nop := by
  simp [Statement, encode, mnemonicOf, opcodeTable_eq, rowOf_admits, rowOf_mnemonic]

theorem reset : Statement .reset := by
  simp [Statement, encode, mnemonicOf, opcodeTable_eq, rowOf_admits, rowOf_mnemonic]

theorem decodePacket : Statement .decodePacket := by
  simp [Statement, encode, mnemonicOf, opcodeTable_eq, rowOf_admits, rowOf_mnemonic]

theorem encodePacket : Statement .encodePacket := by
  simp [Statement, encode, mnemonicOf, opcodeTable_eq, rowOf_admits, rowOf_mnemonic]

theorem ccNext (h : Bit) (pid : Pid) : Statement (.ccNext h pid) := by
  simp [Statement, encode, mnemonicOf, opcodeTable_eq, rowOf_admits, rowOf_mnemonic]

theorem ccValidate (cc : Counter) (di h : Bit) (pid : Pid) : Statement (.ccValidate cc di h pid) := by
  simp [Statement, encode, mnemonicOf, opcodeTable_eq, rowOf_admits, rowOf_mnemonic]

theorem crc32 : Statement .crc32 := by
  simp [Statement, encode, mnemonicOf, opcodeTable_eq, rowOf_admits, rowOf_mnemonic]

theorem decodeSection : Statement .decodeSection := by
  simp [Statement, encode, mnemonicOf, opcodeTable_eq, rowOf_admits, rowOf_mnemonic]

theorem encodeSection : Statement .encodeSection := by
  simp [Statement, encode, mnemonicOf, opcodeTable_eq, rowOf_admits, rowOf_mnemonic]

theorem decodePes : Statement .decodePes := by
  simp [Statement, encode, mnemonicOf, opcodeTable_eq, rowOf_admits, rowOf_mnemonic]

theorem encodePes : Statement .encodePes := by
  simp [Statement, encode, mnemonicOf, opcodeTable_eq, rowOf_admits, rowOf_mnemonic]

theorem split (kind : Kind) (pid : Pid) : Statement (.split kind pid) := by
  simp [Statement, encode, mnemonicOf, opcodeTable_eq, rowOf_admits, rowOf_mnemonic]

theorem openPid (kind : Kind) (pid : Pid) : Statement (.openPid kind pid) := by
  simp [Statement, encode, mnemonicOf, opcodeTable_eq, rowOf_admits, rowOf_mnemonic]

theorem closePid (pid : Pid) : Statement (.closePid pid) := by
  simp [Statement, encode, mnemonicOf, opcodeTable_eq, rowOf_admits, rowOf_mnemonic]

theorem feed : Statement .feed := by
  simp [Statement, encode, mnemonicOf, opcodeTable_eq, rowOf_admits, rowOf_mnemonic]

theorem finish (pid : Pid) : Statement (.finish pid) := by
  simp [Statement, encode, mnemonicOf, opcodeTable_eq, rowOf_admits, rowOf_mnemonic]

theorem takeCompleted : Statement .takeCompleted := by
  simp [Statement, encode, mnemonicOf, opcodeTable_eq, rowOf_admits, rowOf_mnemonic]

theorem slotState (pid : Pid) : Statement (.slotState pid) := by
  simp [Statement, encode, mnemonicOf, opcodeTable_eq, rowOf_admits, rowOf_mnemonic]

end Sys2Proof.Laws.TableRow
end

