-- ==== Sys2Proof/Laws/Psi.lean ====
section
/-! SUPPORT. What the table parsers of DECODE_SECTION read, said once: a descriptor loop (42_psi.md R199) and the table
data of a PMT (R198). -/

namespace Sys2Proof.Machine

/-- `parse_desc` reads the descriptors whose loop the bytes are, and no others (R199). -/
theorem parseDescFuel_ok_iff (n : Nat) (x : Bytes) (hn : x.length ≤ n) (ds : List Descriptor) :
    parseDescFuel n x = .ok ds ↔ DescriptorLoop ds x := by
  induction n generalizing x ds with
  | zero =>
    obtain rfl : x = [] := by simpa using hn
    cases ds <;> simp [parseDescFuel, DescriptorLoop]
  | succ n ih =>
    match x, ds with
    | [], ds => cases ds <;> simp [parseDescFuel, DescriptorLoop]
    | [_], ds => cases ds <;> simp [parseDescFuel, DescriptorLoop]
    | tag :: k :: rest, [] =>
      simp only [parseDescFuel]
      split
      · simp
      · cases parseDescFuel n (rest.drop k.toNat) <;> simp
    | tag :: k :: rest, d :: ds =>
      simp only [parseDescFuel]
      by_cases hl : rest.length < k.toNat
      · simp only [hl, if_true, reduceCtorEq, false_iff]
        rintro ⟨h1, h2⟩
        simp only [List.flatMap_cons, List.cons_append, List.cons.injEq] at h2
        have := h1 d (by simp)
        rw [h2.2.1, h2.2.2] at hl
        simp at hl; omega
      · have e : (parseDescFuel n (rest.drop k.toNat) = .ok ds ∧ d = { tag := tag, data := rest.take k.toNat }) ↔
            DescriptorLoop (d :: ds) (tag :: k :: rest) := by
          rw [ih (rest.drop k.toNat) (by simp at hn ⊢; omega) ds]
          constructor
          · rintro ⟨⟨h1, h2⟩, rfl⟩
            refine ⟨?_, ?_⟩
            · simp only [List.mem_cons, forall_eq_or_imp]
              exact ⟨by simp; omega, h1⟩
            · simp only [List.flatMap_cons, ← h2]
              simp [Nat.min_eq_left (Nat.le_of_not_lt hl)]
          · rintro ⟨h1, h2⟩
            simp only [List.flatMap_cons, List.cons_append, List.cons.injEq] at h2
            obtain ⟨rfl, rfl, rfl⟩ := h2
            have hk : (BitVec.ofNat 8 d.data.length).toNat = d.data.length := by
              have := h1 d (by simp)
              simp; omega
            rw [hk]
            exact ⟨⟨fun e he => h1 e (by simp [he]), by simp⟩, by simp⟩
        rw [← e, if_neg hl]
        cases parseDescFuel n (rest.drop k.toNat) with
        | error err => simp
        | ok ds' => simp [and_comm, eq_comm]

theorem parseDesc_ok_iff (x : Bytes) (ds : List Descriptor) : parseDesc x = .ok ds ↔ DescriptorLoop ds x :=
  parseDescFuel_ok_iff _ _ (Nat.le_refl _) _

/-- Two bytes as a big-endian number (20_memory.md R64). -/
theorem beNat_pair (a b : Byte) : beNat [a, b] = a.toNat * 256 + b.toNat := by simp [beNat]

/-- The reads of a PID, a length and what follows them, at `p.length` (30_encoding.md R101). -/
theorem pidAndLength_read (p y : Bytes) (a1 a0 l1 l0 : Byte) :
    let x := p ++ a1 :: a0 :: l1 :: l0 :: y
    (field x p.length 2 0 13).toNat = a1.toNat % 32 * 256 + a0.toNat ∧
    (field x (p.length + 2) 2 0 12).toNat = l1.toNat % 16 * 256 + l0.toNat ∧
    ∀ e, slice x (p.length + 4) (p.length + 4 + e) = y.take e ∧ x.drop (p.length + 4 + e) = y.drop e := by
  have hd : ∀ k, (p ++ a1 :: a0 :: l1 :: l0 :: y).drop (p.length + k) = (a1 :: a0 :: l1 :: l0 :: y).drop k := by
    intro k; rw [← List.drop_drop]; simp
  have h0 := hd 0
  rw [Nat.add_zero] at h0
  refine ⟨?_, ?_, fun e => ⟨?_, ?_⟩⟩
  · have := a0.isLt
    simp [field, memRead, slice, h0, beNat_pair]; omega
  · have := l0.isLt
    simp [field, memRead, slice, hd, beNat_pair]; omega
  · simp [slice, hd]
  · rw [Nat.add_assoc, hd, Nat.add_comm]; rfl

/-- A byte string of at least four bytes. -/
theorem four_bytes (x : Bytes) (h : ¬ x.length < 4) : ∃ a1 a0 l1 l0 y, x = a1 :: a0 :: l1 :: l0 :: y := by
  match x with
  | [] | [_] | [_, _] | [_, _, _] => simp at h
  | a1 :: a0 :: l1 :: l0 :: y => exact ⟨_, _, _, _, _, rfl⟩

/-- The stream loop reads the streams whose rows the bytes are, and no others (R198). -/
theorem parseStreamsFuel_ok_iff (n : Nat) (x : Bytes) (hn : x.length ≤ n) (streams : List PmtStream) :
    parseStreamsFuel n x = .ok streams ↔ ∃ rows : List (PmtStream × Bytes),
      x = (rows.flatMap fun e => e.1.streamType :: e.2) ∧
        (∀ e ∈ rows, PidAndLoop e.1.elementaryPid e.1.esInfo e.2) ∧ streams = rows.map Prod.fst := by
  induction n generalizing x streams with
  | zero =>
    obtain rfl : x = [] := by simpa using hn
    constructor
    · intro h; exact ⟨[], rfl, by simp, by simpa [parseStreamsFuel] using h.symm⟩
    · rintro ⟨rows, h1, -, rfl⟩
      cases rows <;> simp [parseStreamsFuel] at h1 ⊢
  | succ n ih =>
    cases x with
    | nil =>
      constructor
      · intro h; exact ⟨[], rfl, by simp, by simpa [parseStreamsFuel] using h.symm⟩
      · rintro ⟨rows, h1, -, rfl⟩
        cases rows <;> simp [parseStreamsFuel] at h1 ⊢
    | cons st x =>
      constructor
      · intro h
        simp only [parseStreamsFuel] at h
        split at h
        · simp at h
        rename_i hlen
        obtain ⟨a1, a0, l1, l0, y, rfl⟩ := four_bytes x (by simpa using hlen)
        obtain ⟨e1, e2, e3⟩ := pidAndLength_read [st] y a1 a0 l1 l0
        simp only [List.cons_append, List.nil_append, List.length_singleton, Nat.reduceAdd] at e1 e2 e3
        rw [e2] at h
        split at h
        · simp at h
        rename_i hle
        rw [(e3 _).1, (e3 _).2] at h
        split at h
        · simp at h
        rename_i info hinfo
        split at h
        · simp at h
        rename_i sts hsts
        obtain rfl := (Except.ok.inj h).symm
        obtain ⟨rows, h1, h2, h3⟩ := (ih (y.drop _) (by simp at hn ⊢; omega) sts).mp hsts
        refine ⟨(⟨st, field (st :: a1 :: a0 :: l1 :: l0 :: y) 1 2 0 13, info⟩,
          a1 :: a0 :: l1 :: l0 :: y.take (l1.toNat % 16 * 256 + l0.toNat)) :: rows, ?_, ?_, ?_⟩
        · simp only [List.flatMap_cons, ← h1]; simp
        · simp only [List.mem_cons, forall_eq_or_imp]
          refine ⟨⟨_, _, _, _, _, rfl, e1.symm, ?_, (parseDesc_ok_iff _ _).mp hinfo⟩, h2⟩
          simp at hle ⊢; omega
        · simp [h3, byteAt]
      · rintro ⟨rows, h1, h2, rfl⟩
        cases rows with
        | nil => simp at h1
        | cons r rows =>
          obtain ⟨⟨sty, epid, info⟩, z⟩ := r
          obtain ⟨a1, a0, l1, l0, y, rfl, hp, hl, hy⟩ := h2 (⟨sty, epid, info⟩, z) (by simp)
          have ih' := (ih (rows.flatMap fun e => e.1.streamType :: e.2) (by
            have := congrArg List.length h1
            simp [List.flatMap_cons] at this hn ⊢; omega) (rows.map Prod.fst)).mpr
              ⟨rows, rfl, fun e he => h2 e (by simp [he]), rfl⟩
          simp only [List.flatMap_cons, List.cons_append] at h1
          generalize (rows.flatMap fun e => e.1.streamType :: e.2) = w at ih' h1
          obtain ⟨rfl, rfl⟩ := List.cons.inj h1
          obtain ⟨e1, e2, e3⟩ := pidAndLength_read [st] (y ++ w) a1 a0 l1 l0
          simp only [List.cons_append, List.nil_append, List.length_singleton, Nat.reduceAdd] at e1 e2 e3
          rw [hp, BitVec.toNat_inj] at e1
          have e4 := e3 y.length
          rw [List.take_left, List.drop_left] at e4
          simp only [parseStreamsFuel, e2, hl, e4, e1, (parseDesc_ok_iff _ _).mpr hy, ih']
          rw [if_neg (by simp), if_neg (by simp; omega)]
          simp [byteAt]

/-- What `parse_pmt` reads is table data of that value; every other byte string is MalformedTable (R198). -/
theorem parsePmt_ok_iff (x : Bytes) (pcrPid : Pid) (info : List Descriptor) (streams : List PmtStream) :
    parsePmt x = .ok (pcrPid, info, streams) ↔ PmtTableData pcrPid info streams x := by
  constructor
  · intro h
    unfold parsePmt at h
    split at h
    · simp at h
    rename_i hlen
    obtain ⟨a1, a0, l1, l0, y, rfl⟩ := four_bytes x hlen
    obtain ⟨e1, e2, e3⟩ := pidAndLength_read [] y a1 a0 l1 l0
    simp only [List.nil_append, List.length_nil, Nat.zero_add] at e1 e2 e3
    simp only [e2] at h
    split at h
    · simp at h
    rename_i hle
    rw [(e3 _).1, (e3 _).2] at h
    split at h
    · simp at h
    rename_i info' hinfo
    split at h
    · simp at h
    rename_i sts hsts
    simp only [Except.ok.injEq, Prod.mk.injEq] at h
    obtain ⟨rfl, rfl, rfl⟩ := h
    obtain ⟨rows, h1, h2, h3⟩ := (parseStreamsFuel_ok_iff _ _ (Nat.le_refl _) _).mp hsts
    refine ⟨a1 :: a0 :: l1 :: l0 :: y.take (l1.toNat % 16 * 256 + l0.toNat), rows, ?_, ⟨_, _, _, _, _, rfl, e1.symm, ?_,
      (parseDesc_ok_iff _ _).mp hinfo⟩, h2, h3⟩
    · rw [← h1]; simp
    · simp at hle ⊢; omega
  · rintro ⟨head, rows, rfl, ⟨a1, a0, l1, l0, y, rfl, hp, hl, hy⟩, h2, rfl⟩
    have hst := (parseStreamsFuel_ok_iff _ _ (Nat.le_refl _) _).mpr ⟨rows, rfl, h2, rfl⟩
    generalize (rows.flatMap fun e => e.1.streamType :: e.2) = w at hst
    obtain ⟨e1, e2, e3⟩ := pidAndLength_read [] (y ++ w) a1 a0 l1 l0
    simp only [List.nil_append, List.length_nil, Nat.zero_add] at e1 e2 e3
    rw [hp, BitVec.toNat_inj] at e1
    have e4 := e3 y.length
    rw [List.take_left, List.drop_left] at e4
    simp only [List.cons_append]
    unfold parsePmt
    simp only [e2, hl, e4, e1, (parseDesc_ok_iff _ _).mpr hy, parseStreams, hst]
    rw [if_neg (by simp), if_neg (by simp; omega)]

end Sys2Proof.Machine
end

