-- ==== Sys2Proof/Laws/TsCodec.lean ====
section
/-! SUPPORT. What `decode_af` (40_ts_packet.md R142, R143) reads, said once: each optional field, and the whole
adaptation field, from bytes laid out as 30_encoding.md R93 to R95 say, complete or cut short. -/

namespace Sys2Proof.Machine

theorem bits_one_toNat (f : Byte) (k : Nat) : (bits f k 1).toNat = f.toNat / 2 ^ k % 2 := by
  simp [bits, Nat.shiftRight_eq_div_pow]

theorem flag_eq {α : Type} (o : Option α) (k : Nat) : (if o.isSome then k else 0) = (presentBit o).toNat * k := by
  cases o <;> simp [presentBit]

/-- Six bytes that spell a clock with its reserved bits, read back (R95, R142). -/
theorem pcrOf_bytes (r : BitVec 6) (c : Pcr) (p0 p1 p2 p3 p4 p5 : Byte)
    (h : p0.toNat * 2 ^ 40 + p1.toNat * 2 ^ 32 + p2.toNat * 2 ^ 24 + p3.toNat * 2 ^ 16 + p4.toNat * 2 ^ 8 + p5.toNat =
      c.base.toNat * 2 ^ 15 + r.toNat * 2 ^ 9 + c.ext.toNat) :
    pcrOf [p0, p1, p2, p3, p4, p5] = c := by
  obtain ⟨base, ext⟩ := c
  have hr := r.isLt
  have hb := base.isLt
  have he := ext.isLt
  have h5 := p5.isLt
  have h4 := p4.isLt
  simp only [pcrOf, field, memRead, slice, beNat, Pcr.mk.injEq, ← BitVec.toNat_inj]
  simp [Nat.shiftRight_eq_div_pow]
  simp only at h
  omega

theorem takePcr_whole (len : Byte) (r : BitVec 6) (v : Option Pcr) (x rest : Bytes) (h : ClockBytes r v x) :
    takePcr len (presentBit v) (x ++ rest) = .ok (v, rest) := by
  cases v with
  | none => obtain rfl : x = [] := h; simp [takePcr, presentBit]
  | some c =>
    obtain ⟨p0, p1, p2, p3, p4, p5, rfl, h⟩ := h
    simp [takePcr, presentBit, pcrOf_bytes r c _ _ _ _ _ _ h]

theorem takePcr_cut (len : Byte) (r : BitVec 6) (v : Option Pcr) (x : Bytes) (h : ClockBytes r v x) (k : Nat)
    (hk : k < x.length) : takePcr len (presentBit v) (x.take k) = .error (.invalidAdaptationFieldLength len) := by
  cases v with
  | none => obtain rfl : x = [] := h; simp at hk
  | some c =>
    obtain ⟨p0, p1, p2, p3, p4, p5, rfl, h⟩ := h
    simp only [List.length_cons, List.length_nil, Nat.zero_add, Nat.reduceAdd] at hk
    simp [takePcr, presentBit]; omega

theorem takeSplice_whole (len : Byte) (v : Option Byte) (rest : Bytes) :
    takeSplice len (presentBit v) (v.toList ++ rest) = .ok (v, rest) := by
  cases v <;> simp [takeSplice, presentBit]

theorem takeSplice_cut (len : Byte) (v : Option Byte) (k : Nat) (hk : k < v.toList.length) :
    takeSplice len (presentBit v) (v.toList.take k) = .error (.invalidAdaptationFieldLength len) := by
  cases v with
  | none => simp at hk
  | some c => obtain rfl : k = 0 := by simpa using hk
              simp [takeSplice, presentBit]

theorem takeCounted_whole (len : Byte) (v : Option Bytes) (x rest : Bytes) (h : CountedBytes v x) :
    takeCounted len (presentBit v) (x ++ rest) = .ok (v, rest) := by
  cases v with
  | none => obtain rfl : x = [] := h; simp [takeCounted, presentBit]
  | some d => obtain ⟨n, rfl, hn⟩ := h; simp [takeCounted, presentBit, hn]

theorem takeCounted_cut (len : Byte) (v : Option Bytes) (x : Bytes) (h : CountedBytes v x) (k : Nat)
    (hk : k < x.length) : takeCounted len (presentBit v) (x.take k) = .error (.invalidAdaptationFieldLength len) := by
  cases v with
  | none => obtain rfl : x = [] := h; simp at hk
  | some d =>
    obtain ⟨n, rfl, hn⟩ := h
    cases k with
    | zero => simp [takeCounted, presentBit]
    | succ k => simp at hk; simp [takeCounted, presentBit, hn]; omega

/-- The flags byte, bit by bit (R93). -/
theorem flags_bits {r r' : BitVec 6} {af : AdaptationField} {f : Byte} {x : Bytes} (h : FlagsAndFields r r' af f x) :
    bits f 7 1 = af.di ∧ bits f 6 1 = af.rai ∧ bits f 5 1 = af.espi ∧ bits f 4 1 = presentBit af.pcr ∧
    bits f 3 1 = presentBit af.opcr ∧ bits f 2 1 = presentBit af.spliceCountdown ∧
    bits f 1 1 = presentBit af.privateData ∧ bits f 0 1 = presentBit af.extension := by
  have h := h.1
  simp only [flag_eq] at h
  simp only [← BitVec.toNat_inj, bits_one_toNat, h]
  have h7 := af.di.isLt
  have h6 := af.rai.isLt
  have h5 := af.espi.isLt
  have h4 := (presentBit af.pcr).isLt
  have h3 := (presentBit af.opcr).isLt
  have h2 := (presentBit af.spliceCountdown).isLt
  have h1 := (presentBit af.privateData).isLt
  have h0 := (presentBit af.extension).isLt
  generalize af.di.toNat = a7, af.rai.toNat = a6, af.espi.toNat = a5, (presentBit af.pcr).toNat = a4,
    (presentBit af.opcr).toNat = a3, (presentBit af.spliceCountdown).toNat = a2,
    (presentBit af.privateData).toNat = a1, (presentBit af.extension).toNat = a0 at *
  clear h
  refine ⟨?_, ?_, ?_, ?_, ?_, ?_, ?_, ?_⟩ <;> omega

/-- `decode_af` on a flags byte, the fields it announces and any stuffing (R142). -/
theorem decodeAf_whole (len : Byte) {r r' : BitVec 6} {af : AdaptationField} {f : Byte} {x : Bytes} (stuffing : Bytes)
    (h : FlagsAndFields r r' af f x) : decodeAf len (f :: (x ++ stuffing)) = .ok af := by
  obtain ⟨b7, b6, b5, b4, b3, b2, b1, b0⟩ := flags_bits h
  obtain ⟨-, pcr, opcr, priv, ext, rfl, h1, h2, h3, h4⟩ := h
  simp only [decodeAf, bind, Except.bind, b7, b6, b5, b4, b3, b2, b1, b0, List.append_assoc, takePcr_whole _ _ _ _ _ h1,
    takePcr_whole _ _ _ _ _ h2, takeSplice_whole, takeCounted_whole _ _ _ _ h3, takeCounted_whole _ _ _ _ h4]
  rfl

/-- A byte string cut inside one of two parts. -/
theorem take_two (a b : Bytes) (k : Nat) (h : k < (a ++ b).length) :
    ((a ++ b).take k = a.take k ∧ k < a.length) ∨
      ∃ j, (a ++ b).take k = a ++ b.take j ∧ j < b.length := by
  by_cases hk : k < a.length
  · exact .inl ⟨List.take_append_of_le_length (Nat.le_of_lt hk), hk⟩
  · refine .inr ⟨k - a.length, ?_, by simp at h; omega⟩
    rw [List.take_append, List.take_of_length_le (by omega)]

/-- `decode_af` on fields that end early (R143). -/
theorem decodeAf_cut (len : Byte) {r r' : BitVec 6} {af : AdaptationField} {f : Byte} {x : Bytes} (k : Nat)
    (h : FlagsAndFields r r' af f x) (hk : k < x.length) :
    decodeAf len (f :: x.take k) = .error (.invalidAdaptationFieldLength len) := by
  obtain ⟨b7, b6, b5, b4, b3, b2, b1, b0⟩ := flags_bits h
  obtain ⟨-, pcr, opcr, priv, ext, rfl, h1, h2, h3, h4⟩ := h
  simp only [List.append_assoc] at hk ⊢
  simp only [decodeAf, b7, b6, b5, b4, b3, b2, b1, b0]
  rcases take_two _ _ k hk with ⟨e, hk⟩ | ⟨k, e, hk⟩ <;> rw [e]
  · rw [takePcr_cut _ _ _ _ h1 k hk]; rfl
  simp only [takePcr_whole _ _ _ _ _ h1]
  rcases take_two _ _ k hk with ⟨e, hk⟩ | ⟨k, e, hk⟩ <;> rw [e]
  · simp only [bind, Except.bind, takePcr_cut _ _ _ _ h2 k hk]
  rcases take_two _ _ k hk with ⟨e, hk⟩ | ⟨k, e, hk⟩ <;> rw [e]
  · simp only [bind, Except.bind, takePcr_whole _ _ _ _ _ h2, takeSplice_cut _ _ k hk]
  rcases take_two _ _ k hk with ⟨e, hk⟩ | ⟨k, e, hk⟩ <;> rw [e]
  · simp only [bind, Except.bind, takePcr_whole _ _ _ _ _ h2, takeSplice_whole, takeCounted_cut _ _ _ h3 k hk]
  · simp only [bind, Except.bind, takePcr_whole _ _ _ _ _ h2, takeSplice_whole, takeCounted_whole _ _ _ _ h3,
      takeCounted_cut _ _ _ h4 k hk]

end Sys2Proof.Machine
end

