-- ==== Sys2Proof/Tests/Slice0.lean ====
section
/-! SUPPORT. The model's own tests: ill-typed operands, decoding of words written out from 30_encoding.md R80 and
R83, one step of each command with the result 95_test_vectors.md or the rule's own example gives, and for every
statement with hypotheses a witness that meets them, clause by clause. -/

namespace Sys2Proof.Tests

-- The theorems are checked one after another, which keeps the memory a whole compile needs small.
set_option Elab.async false

open Sys2Proof.Machine

/-! ### Helpers -/

/-- A command at the port. -/
def issue (w : CommandWord) (o : Operand) (s : State) : State := { s with inputs := [.command ⟨w, o⟩] }

/-- A small block, as in 95_test_vectors.md 7.4. -/
def small : State := State.resetWith ⟨2, 1, 200⟩

/-- The state an outcome leaves. -/
def after : Host.Outcome State Fault Refusal → State
  | .next t => t
  | _ => small

/-- Whether an outcome answered the command issued in a state without responses with `r`. -/
def answered (o : Host.Outcome State Fault Refusal) (r : Response) : Bool :=
  match o with
  | .next t => decide (t.responses = [r])
  | _ => false

theorem next_of_answered {o : Host.Outcome State Fault Refusal} {r : Response} (h : answered o r = true) :
    ∃ t, o = .next t ∧ t.responses = [] ++ [r] := by
  cases o with
  | next t => exact ⟨t, rfl, by simpa [answered] using h⟩
  | fault f => simp [answered] at h
  | refused f => simp [answered] at h

/-- A block with one slot in use. -/
def oneSlot (sl : Slot) (last : Option Counter) : State :=
  { small with R := (last.map fun c => (sl.pid.toNat, c)).toList, S := [some sl, none] }

/-- A packet value with a payload. -/
def pkt (pid : Pid) (pusi : Bit) (cc : Counter) (pay : Option Bytes) : TsPacket :=
  ⟨0, pusi, 0, pid, 0, cc, AdaptationField.empty, pay⟩

/-- FEED of `p` at the port of a block with slot `sl`. -/
def feeding (sl : Slot) (last : Option Counter) (p : TsPacket) : State :=
  issue 0x62000000 (.bytes (framePacket p)) (oneSlot sl last)

theorem feeding_open (sl : Slot) (last : Option Counter) (p : TsPacket)
    (h1 : (framePacket p).length = 188 ∧ decodePacket (framePacket p) = .ok p) (h2 : p.pid ≠ 0x1FFF)
    (h3 : p.tei = 0) (h4 : sl.pid = p.pid) : FeedsOpen (feeding sl last p) p sl :=
  ⟨⟨_, rfl, h1.1, h1.2⟩, h2, h3, by simp [feeding, issue, oneSlot, State.slot, holdsPid, h4]⟩

/-- The PAT of 42_psi.md R193. -/
def patBytes : Bytes := [0x00, 0xB0, 0x0D, 0x00, 0x01, 0xC1, 0x00, 0x00, 0x00, 0x01, 0xE0, 0x20, 0xA2, 0xC3, 0x29, 0x41]
def patValue : Section := .pat 1 ⟨0, 1, 0, 0⟩ [⟨1, 0x20⟩]

/-- The PES packet of 43_pes.md R232. -/
def pesPacketBytes : Bytes :=
  [0x00, 0x00, 0x01, 0xE0, 0x00, 0x0B, 0x80, 0x80, 0x05, 0x21, 0x00, 0x01, 0x00, 0x01, 0xAA, 0xBB, 0xCC]
def pesValue : PesPacket := ⟨0xE0, some ⟨0, 0, 0, 0, 0, some 0, none⟩, 0, [0xAA, 0xBB, 0xCC]⟩

/-! ### Operand typing -/

theorem test_packet_operand_is_188_bytes :
    operandTyped .feed (.bytes (List.replicate 188 0)) = true ∧
    operandTyped .feed (.bytes (List.replicate 187 0)) = false ∧
    operandTyped .decodePacket (.bytes (List.replicate 189 0)) = false := by decide +kernel

theorem test_private_data_over_255_bytes_ill_typed :
    operandTyped .encodePacket (.tsPacket { pkt 0 0 0 none with
      af := { AdaptationField.empty with privateData := some (List.replicate 256 0) } }) = false := by decide +kernel

theorem test_extension_over_255_bytes_ill_typed :
    operandTyped .encodePacket (.tsPacket { pkt 0 0 0 none with
      af := { AdaptationField.empty with extension := some (List.replicate 256 0) } }) = false := by decide +kernel

theorem test_descriptor_over_255_bytes_ill_typed :
    operandTyped .encodeSection (.sec (.pmt 0 ⟨0, 0, 0, 0⟩ 0 [⟨5, List.replicate 256 0⟩] [])) = false ∧
    operandTyped .encodeSection (.sec (.pmt 0 ⟨0, 0, 0, 0⟩ 0 [] [⟨0, 0, [⟨5, List.replicate 256 0⟩]⟩])) = false := by
  decide +kernel

theorem test_operand_of_another_type_ill_typed :
    operandTyped .encodePacket (.pes pesValue) = false ∧ operandTyped .encodeSection (.bytes []) = false ∧
    operandTyped .encodePes (.sec patValue) = false ∧ operandTyped .crc32 .none = false ∧
    operandTyped .decodeSection (.sec patValue) = false ∧ operandTyped .decodePes .none = false ∧
    operandTyped (.split .pes 0) (.pes pesValue) = false ∧ operandTyped .nop (.bytes [1]) = true := by decide

/-! ### Decoding: a word of every command, the fields written out by hand -/

theorem test_decode_control : decode 0x00000000 = .ok .nop ∧ decode 0x01000000 = .ok .reset := by decide
theorem test_decode_packet_codec :
    decode 0x10000000 = .ok .decodePacket ∧ decode 0x11000000 = .ok .encodePacket := by decide
/-- H in bit 15, CCV in bits 23..20, DI in bit 19. -/
theorem test_decode_continuity :
    decode 0x20008100 = .ok (.ccNext 1 0x100) ∧ decode 0x20001FFF = .ok (.ccNext 0 0x1FFF) ∧
    decode 0x21F89FFF = .ok (.ccValidate 15 1 1 0x1FFF) ∧ decode 0x21100001 = .ok (.ccValidate 1 0 0 1) := by decide
theorem test_decode_section_codec :
    decode 0x30000000 = .ok .crc32 ∧ decode 0x31000000 = .ok .decodeSection ∧
    decode 0x32000000 = .ok .encodeSection := by decide
theorem test_decode_pes_codec : decode 0x40000000 = .ok .decodePes ∧ decode 0x41000000 = .ok .encodePes := by decide
theorem test_decode_packetizer :
    decode 0x50009FFF = .ok (.split .psi 0x1FFF) ∧ decode 0x50000044 = .ok (.split .pes 0x44) := by decide
theorem test_decode_depacketizer :
    decode 0x60008100 = .ok (.openPid .psi 0x100) ∧ decode 0x60000044 = .ok (.openPid .pes 0x44) ∧
    decode 0x61000044 = .ok (.closePid 0x44) ∧ decode 0x62000000 = .ok .feed ∧
    decode 0x63000044 = .ok (.finish 0x44) ∧ decode 0x64000000 = .ok .takeCompleted ∧
    decode 0x65000100 = .ok (.slotState 0x100) := by decide
/-- The illegal words of 95_test_vectors.md section 8. -/
theorem test_illegal_words :
    decode 0x00000001 = .error .unusedField ∧ decode 0x02000000 = .error .unassignedOpcode ∧
    decode 0x10000001 = .error .unusedField ∧ decode 0x20018100 = .error .reservedBits ∧
    decode 0x20004100 = .error .reservedBits ∧ decode 0x20508100 = .error .unusedField ∧
    decode 0x61008044 = .error .unusedField ∧ decode 0x62000044 = .error .unusedField ∧
    decode 0xFF000000 = .error .unassignedOpcode := by decide
theorem test_table_word : decodeTableWord 32 0x61000044 = some (.closePid 0x44) ∧ decodeTableWord 32 1 = none := by
  decide

/-! ### One step of each command -/

theorem test_nop : answered (step (issue 0x00000000 .none small)) ⟨0x00, .none, []⟩ = true := by decide

/-- R331: after RESET, CC_NEXT pid=5 returns 0. -/
theorem test_reset :
    answered (exec (.ccNext 1 5) { after (exec .reset { small with W := [(5, 3)] }) with responses := [] })
      ⟨0x00, .counter 0, []⟩ = true := by decide

theorem test_illegal_word :
    answered (step (issue 0x20508100 .none small)) ⟨0x14, .wordInfo 0x20508100, []⟩ = true := by decide

/-- DP9. -/
theorem test_decode_packet_empty_payload :
    answered (step (issue 0x10000000 (.bytes ([0x47, 0xC0, 0x21, 0x3A, 0xB7, 0x00] ++ List.replicate 182 0)) small))
      ⟨0x00, .tsPacket ⟨1, 1, 0, 0x021, 0, 10, AdaptationField.empty, some []⟩, []⟩ = true := by decide +kernel

/-- DP7. -/
theorem test_decode_packet_private_data_overrun :
    answered (step (issue 0x10000000
      (.bytes ([0x47, 0x00, 0x21, 0x30, 0x03, 0x02, 0x05] ++ List.replicate 181 0)) small))
      ⟨0x02, .byteInfo 0x03, []⟩ = true := by decide +kernel

/-- E7. -/
theorem test_encode_packet_pcr :
    answered (step (issue 0x11000000 (.tsPacket ⟨0, 0, 0, 0x100, 0, 7,
        { AdaptationField.empty with rai := 1, pcr := some ⟨0x123456789, 0x12C⟩ }, none⟩) small))
      ⟨0x00, .bytes ([0x47, 0x01, 0x00, 0x27, 0xB7, 0x50, 0x91, 0xA2, 0xB3, 0xC4, 0xFF, 0x2C] ++
        List.replicate 176 0xFF), []⟩ = true := by decide +kernel

/-- X3. -/
theorem test_encode_packet_too_large :
    answered (step (issue 0x11000000 (.tsPacket ⟨0, 0, 0, 0x100, 0, 0,
        { AdaptationField.empty with pcr := some ⟨0, 0⟩ }, some (List.replicate 177 0)⟩) small))
      ⟨0x03, .sizeInfo 189, []⟩ = true := by decide +kernel

/-- R170: H = 0 before any H = 1 call returns 15. -/
theorem test_cc_next_flat : answered (step (issue 0x20000100 .none small)) ⟨0x00, .counter 15, []⟩ = true := by decide

/-- R170: the counter wraps. -/
theorem test_cc_next_wraps :
    (after (step (issue 0x20008100 .none { small with W := [(0x100, 15)] }))).readW 0x100 = 0 := by decide

/-- R172: 4 after 2 is Discontinuous, and 4 is the entry afterwards. -/
theorem test_cc_validate_discontinuous :
    answered (step (issue 0x21408001 .none { small with R := [(1, 2)] })) ⟨0x00, .verdict .discontinuous, []⟩ = true ∧
    (after (step (issue 0x21408001 .none { small with R := [(1, 2)] }))).readR 1 = some 4 := by decide

/-- R172, R174: 2 after 2 is Duplicate. -/
theorem test_cc_validate_duplicate :
    answered (step (issue 0x21208001 .none { small with R := [(1, 2)] })) ⟨0x00, .verdict .duplicate, []⟩ = true := by
  decide

/-- R190: the check value, over the ASCII bytes 31..39. -/
theorem test_crc_check_value :
    answered (step (issue 0x30000000 (.bytes [0x31, 0x32, 0x33, 0x34, 0x35, 0x36, 0x37, 0x38, 0x39]) small))
      ⟨0x00, .crc 0x0376E6E7, []⟩ = true := by decide +kernel

theorem test_decode_section_pat :
    answered (step (issue 0x31000000 (.bytes patBytes) small)) ⟨0x00, .sec patValue, []⟩ = true := by decide +kernel

/-- 95_test_vectors.md 7.4 step 2: the PAT with its last byte 40. -/
theorem test_decode_section_bad_crc :
    answered (step (issue 0x31000000 (.bytes (patBytes.set 15 0x40)) small))
      ⟨0x05, .crcInfo 0xA2C32940 0xA2C32941, []⟩ = true := by decide +kernel

theorem test_encode_section_pat :
    answered (step (issue 0x32000000 (.sec patValue) small)) ⟨0x00, .bytes patBytes, []⟩ = true := by decide +kernel

/-- R200: an Other value with the table_id of a PMT. -/
theorem test_encode_section_malformed :
    answered (step (issue 0x32000000 (.sec (.other 0x02 0 0 ⟨0, 0, 0, 0⟩ [])) small)) ⟨0x12, .none, []⟩ = true := by
  decide +kernel

theorem test_decode_pes :
    answered (step (issue 0x40000000 (.bytes pesPacketBytes) small)) ⟨0x00, .pes pesValue, []⟩ = true := by
  decide +kernel

/-- R233: one byte short of 6 + L. -/
theorem test_decode_pes_short :
    answered (step (issue 0x40000000 (.bytes (pesPacketBytes.take 16)) small))
      ⟨0x09, .lengthInfo 17 16, []⟩ = true := by decide +kernel

theorem test_encode_pes :
    answered (step (issue 0x41000000 (.pes pesValue) small)) ⟨0x00, .bytes pesPacketBytes, []⟩ = true := by
  decide +kernel

/-- R237: a DTS without a PTS. -/
theorem test_encode_pes_dts_alone :
    answered (step (issue 0x41000000 (.pes ⟨0xE0, some ⟨0, 0, 0, 0, 0, none, some 0⟩, 0, []⟩) small))
      ⟨0x13, .none, []⟩ = true := by decide +kernel

/-- T1. -/
theorem test_split_pat :
    answered (step (issue 0x50008000 (.bytes patBytes) small))
      ⟨0x00, .packets [[0x47, 0x40, 0x00, 0x10, 0x00] ++ patBytes ++ List.replicate 167 0xFF], []⟩ = true := by
  decide +kernel

/-- T5. -/
theorem test_split_pes :
    answered (step (issue 0x50000044 (.bytes (List.replicate 185 0x5A)) small))
      ⟨0x00, .packets [[0x47, 0x40, 0x44, 0x10] ++ List.replicate 184 0x5A,
        [0x47, 0x00, 0x44, 0x31, 0xB6, 0x00] ++ List.replicate 181 0xFF ++ [0x5A]], []⟩ = true := by decide +kernel

/-- R281. -/
theorem test_open :
    (after (step (issue 0x60008100 .none { small with R := [(0x100, 7)] }))).S =
        [some ⟨0x100, .psi, .idle, [], .unknown⟩, none] ∧
    (after (step (issue 0x60008100 .none { small with R := [(0x100, 7)] }))).readR 0x100 = none := by decide

/-- 7.4 step 7: every slot in use. -/
theorem test_open_no_free_slot :
    answered (step (issue 0x60000045 .none
      { small with S := [some (freshSlot 0 .psi), some (freshSlot 0x44 .pes)] })) ⟨0x16, .none, []⟩ = true := by decide

/-- 7.4 steps 17 and 18. -/
theorem test_close :
    (after (step (issue 0x61000044 .none (oneSlot (freshSlot 0x44 .pes) none)))).S = [none, none] ∧
    answered (step (issue 0x61000044 .none small)) ⟨0x15, .none, []⟩ = true := by decide

/-- R284, and 7.1 step 9. -/
theorem test_feed_pat :
    answered (step (feeding (freshSlot 0x100 .psi) none
      (pkt 0x100 1 0 (some (0x00 :: (patBytes ++ List.replicate 167 0xFF)))))) ⟨0x00, .none, [⟨5, 0⟩]⟩ = true ∧
    (after (step (feeding (freshSlot 0x100 .psi) none
      (pkt 0x100 1 0 (some (0x00 :: (patBytes ++ List.replicate 167 0xFF))))))).Q = [⟨0x100, .sec patValue⟩] := by
  decide +kernel

/-- 7.1 step 7. -/
theorem test_feed_bad_sync :
    answered (step (issue 0x62000000 (.bytes (0x48 :: List.replicate 187 0)) small)) ⟨0x01, .byteInfo 0x48, []⟩ = true := by
  decide +kernel

/-- 7.4 step 14: a bounded unit cut short. -/
theorem test_finish_incomplete :
    answered (step (issue 0x63000044 .none (oneSlot ⟨0x44, .pes, .accumulating, [0, 0, 1, 0xBE, 0, 9], .bounded 15⟩ none)))
      ⟨0x00, .none, [⟨6, 0x09⟩]⟩ = true := by decide

/-- R296: an unbounded unit of a stream id without an optional header. -/
theorem test_finish_unbounded :
    (after (step (issue 0x63000044 .none
      (oneSlot ⟨0x44, .pes, .accumulating, [0, 0, 1, 0xBE, 0, 0, 7, 8], .unbounded⟩ none)))).Q =
      [⟨0x44, .pes ⟨0xBE, none, 1, [7, 8]⟩⟩] := by decide +kernel

theorem test_take_completed :
    answered (step (issue 0x64000000 .none { small with Q := [⟨0, .sec patValue⟩] }))
      ⟨0x00, .completedUnit ⟨0, .sec patValue⟩, []⟩ = true := by decide
theorem test_take_completed_empty : answered (step (issue 0x64000000 .none small)) ⟨0x17, .none, []⟩ = true := by decide

/-- R281's example. -/
theorem test_slot_state :
    answered (step (issue 0x65000100 .none (oneSlot (freshSlot 0x100 .psi) none)))
      ⟨0x00, .slotStatus ⟨.psi, .idle, 0, .unknown, none⟩, []⟩ = true := by decide

/-! ### Witnesses: the hypotheses of every statement can be met, clause by clause -/

theorem witness_StepRunsDecodedCommand :
    ∃ (s : State) (c : Command) (rest : List HostInput) (i : Instr),
      s.params.legal ∧ s.inputs = .command c :: rest ∧ decode c.word = .ok i :=
  ⟨issue 0x62000000 .none small, ⟨0x62000000, .none⟩, [], .feed, by decide, rfl, by decide⟩

/-- An answer with OK, and one with a raised status. -/
theorem witness_EveryCommandIsAnsweredOnce :
    (∃ t, exec .nop small = .next t ∧ t.responses = [] ++ [⟨0x00, .none, []⟩]) ∧
    (∃ t, exec .takeCompleted small = .next t ∧ t.responses = [] ++ [⟨0x17, .none, []⟩]) :=
  ⟨next_of_answered (by decide), next_of_answered (by decide)⟩

/-- A word a row admits and one bit beside it. -/
theorem witness_IllegalWordsAreAnswered :
    (issue 0 .none small).params.legal ∧
    (∃ row ∈ opcodeTable, (0x65001FFF : CommandWord) &&& row.mask = row.pattern) ∧
    (∀ row ∈ opcodeTable, (0x65003FFF : CommandWord) &&& row.mask ≠ row.pattern) := by decide

theorem witness_ResetMeetsInvariant : (⟨1, 1, 9⟩ : Params).legal ∧ (⟨8192, 1, 9⟩ : Params).legal := by decide

theorem witness_StepKeepsInvariant :
    (issue 0x60008100 .none small).Inv ∧ ∃ t, step (issue 0x60008100 .none small) = .next t :=
  ⟨by decide, (next_of_answered (r := ⟨0x00, .none, []⟩) (by decide)).imp fun _ h => h.1⟩

theorem witness_PortWithoutCommand :
    small.params.legal ∧ small.inputs = [] ∧ ({ small with inputs := [.resetInput] } : State).params.legal := by decide

theorem witness_TypedOperandsAreAnswered :
    operandTyped .feed (.bytes (List.replicate 188 0)) = true ∧ operandTyped .feed (.bytes (List.replicate 187 0)) = false := by
  decide +kernel

theorem witness_StatusesAndTheirInformation :
    (∃ t, step (issue 0x64000000 .none small) = .next t ∧ t.responses = [] ++ [⟨0x17, .none, []⟩]) ∧
    (∃ t, step (issue 0x00000001 .none small) = .next t ∧ t.responses = [] ++ [⟨0x14, .wordInfo 1, []⟩]) :=
  ⟨next_of_answered (by decide), next_of_answered (by decide)⟩

/-- Commands that change W, R, S and Q. -/
theorem witness_OnlyNamedCommandsWrite :
    (after (exec (.ccNext 1 0) small)).W ≠ small.W ∧ (after (exec (.ccValidate 0 0 1 0) small)).R ≠ small.R ∧
    (after (exec (.openPid .psi 0) small)).S ≠ small.S ∧
    (after (exec .takeCompleted { small with Q := [⟨0, .sec patValue⟩] })).Q ≠ [⟨0, .sec patValue⟩] := by decide

/-- One header for each check: no sync byte, afc = 00, L = 184, and L = 183. -/
theorem witness_PacketChecksInOrder :
    (List.replicate 183 (0 : Byte)).length = 183 ∧ (0x46 : Byte) ≠ 0x47 ∧ (0x0F : Byte).toNat / 16 % 4 = 0 ∧
    (2 ≤ (0x20 : Byte).toNat / 16 % 4 ∧ 183 < (0xB8 : Byte).toNat) ∧
    ¬ (2 ≤ (0x20 : Byte).toNat / 16 % 4 ∧ 183 < (0xB7 : Byte).toNat) := by decide +kernel

theorem witness_PayloadOnlyPacketDecodes :
    ∃ (s : State) (b1 b2 b3 : Byte) (pay : Bytes), s.operand = .bytes (0x47 :: b1 :: b2 :: b3 :: pay) ∧
      pay.length = 184 ∧ b3.toNat / 16 % 4 = 1 :=
  ⟨issue 0 (.bytes (0x47 :: 0x1F :: 0xFF :: 0x10 :: List.replicate 184 0xAA)) small, 0x1F, 0xFF, 0x10,
    List.replicate 184 0xAA, rfl, by decide +kernel, by decide⟩

/-- E7's PCR with its reserved bits 0, in a full field (L = 183) with afc = 11, and afc = 10 with L = 0. -/
theorem witness_AdaptationFieldDecodes :
    (∃ (s : State) (b1 b2 b3 l : Byte) (af : AdaptationField) (field pay : Bytes),
      s.operand = .bytes (0x47 :: b1 :: b2 :: b3 :: l :: (field ++ pay)) ∧
      (∃ (r r' : BitVec 6) (f : Byte) (x stuffing : Bytes), field = f :: (x ++ stuffing) ∧ FlagsAndFields r r' af f x) ∧
      l.toNat = field.length ∧ l.toNat + pay.length = 183 ∧ b3.toNat / 16 % 4 = 3) ∧
    (∃ (s : State) (b1 b2 b3 l : Byte) (field pay : Bytes),
      s.operand = .bytes (0x47 :: b1 :: b2 :: b3 :: l :: (field ++ pay)) ∧ field = [] ∧
      l.toNat = field.length ∧ l.toNat + pay.length = 183 ∧ b3.toNat / 16 % 4 = 2) :=
  ⟨⟨issue 0 (.bytes (0x47 :: 0 :: 0x21 :: 0x30 :: 0xB7 ::
      ((0x10 :: ([0x91, 0xA2, 0xB3, 0xC4, 0x81, 0x2C] ++ List.replicate 176 7)) ++ []))) small,
    0, 0x21, 0x30, 0xB7, { AdaptationField.empty with pcr := some ⟨0x123456789, 0x12C⟩ }, _, [], rfl,
    ⟨0, 0, 0x10, _, _, rfl, by decide, [0x91, 0xA2, 0xB3, 0xC4, 0x81, 0x2C], [], [], [], rfl,
      ⟨_, _, _, _, _, _, rfl, by decide⟩, rfl, rfl, rfl⟩, by decide +kernel, by decide +kernel, by decide⟩,
   ⟨issue 0 (.bytes (0x47 :: 0 :: 0x21 :: 0x20 :: 0x00 :: ([] ++ List.replicate 183 0x33))) small,
    0, 0x21, 0x20, 0x00, [], List.replicate 183 0x33, rfl, rfl, by decide, by decide +kernel, by decide⟩⟩

/-- The shortest cut, behind the flags byte of a field with a splice_countdown (L = 1), and the longest, private data of
255 bytes in a full field (L = 183). -/
theorem witness_AdaptationFieldOverrun :
    (∃ (s : State) (x rest : Bytes),
      s.operand = .bytes (0x47 :: 0 :: 0x21 :: 0x30 :: 1 :: 0x04 :: (x.take 0 ++ rest)) ∧
      FlagsAndFields 0 0 { AdaptationField.empty with spliceCountdown := some 9 } 0x04 x ∧ 0 < x.length ∧
      1 + 0 + rest.length = 183) ∧
    (∃ (s : State) (x rest : Bytes),
      s.operand = .bytes (0x47 :: 0 :: 0x21 :: 0x30 :: 0xB7 :: 0x02 :: (x.take 182 ++ rest)) ∧
      FlagsAndFields 0 0 { AdaptationField.empty with privateData := some (List.replicate 255 5) } 0x02 x ∧
      182 < x.length ∧ (0xB7 : Byte).toNat = 1 + 182 ∧ 1 + 182 + rest.length = 183) :=
  ⟨⟨issue 0 (.bytes (0x47 :: 0 :: 0x21 :: 0x30 :: 1 :: 0x04 :: ([9].take 0 ++ List.replicate 182 0))) small, [9],
      List.replicate 182 0, rfl, ⟨by decide, [], [], [], [], rfl, rfl, rfl, rfl, rfl⟩, by decide, by decide +kernel⟩,
   ⟨issue 0 (.bytes (0x47 :: 0 :: 0x21 :: 0x30 :: 0xB7 :: 0x02 :: ((255 :: List.replicate 255 5).take 182 ++ []))) small,
      255 :: List.replicate 255 5, [], rfl,
      ⟨by decide, [], [], 255 :: List.replicate 255 5, [], (List.append_nil _).symm, rfl, rfl,
        ⟨255, rfl, by decide +kernel⟩, rfl⟩, by decide +kernel, by decide, by decide⟩⟩

/-- AF_EMPTY, and a value with every field, its byte strings as long as they can be. -/
theorem witness_AdaptationFieldBytes :
    AdaptationField.empty.wellTyped = true ∧
    (⟨1, 0, 1, some ⟨0x1FFFFFFFF, 511⟩, some ⟨0, 0⟩, some 255, some (List.replicate 255 0),
      some (List.replicate 255 1)⟩ : AdaptationField).wellTyped = true := by decide +kernel

/-- X3 (need 189), the same field with one byte less (need 188), and a full payload with no adaptation field. -/
theorem witness_EncodePacketResult :
    let af : AdaptationField := { AdaptationField.empty with pcr := some ⟨0, 0⟩ }
    af.wellTyped = true ∧ 4 + 177 + (1 + (afContent af).length) > 188 ∧ 4 + 176 + (1 + (afContent af).length) = 188 ∧
    (pkt 0x100 0 0 (some (List.replicate 184 0xAB))).wellTyped = true ∧
    (issue 0 (.tsPacket (pkt 0x100 0 0 none)) small).operand = .tsPacket (pkt 0x100 0 0 none) := by decide +kernel

theorem witness_PacketRoundTrip :
    ∃ (s s' : State) (p : TsPacket) (b : Bytes), s.operand = .tsPacket p ∧ s'.operand = .bytes b ∧
      ∃ t, exec .encodePacket s = .next t ∧ t.responses = [] ++ [⟨0x00, .bytes b, []⟩] :=
  ⟨issue 0 (.tsPacket (pkt 0x44 1 5 (some [1]))) small, issue 0 (.bytes (framePacket (pkt 0x44 1 5 (some [1])))) small,
    pkt 0x44 1 5 (some [1]), framePacket (pkt 0x44 1 5 (some [1])), rfl, rfl, next_of_answered (by decide +kernel)⟩

theorem witness_CcNextResult : small.Inv ∧ ({ small with W := [(0x1FFF, 15)] } : State).Inv := by decide

/-- No entry, the successor of 15, a repeat, a jump, a flat counter without payload, and DI = 1. -/
theorem witness_CcValidateResult :
    InSequence none 9 1 0 ∧ InSequence (some 15) 0 1 0 ∧ Repeated (some 3) 3 1 0 ∧
    (¬ InSequence (some 3) 5 1 0 ∧ ¬ Repeated (some 3) 5 1 0) ∧ InSequence (some 3) 3 0 0 ∧
    (¬ InSequence (some 3) 4 0 0 ∧ ¬ Repeated (some 3) 4 0 0) ∧ InSequence (some 3) 3 1 1 ∧
    ({ small with R := [(0, 3), (8191, 15)] } : State).Inv :=
  ⟨(by intro a h; cases h), by decide, by decide, by decide, by decide, by decide, by decide, by decide⟩

theorem witness_CrcIsBitSerialRemainder : (issue 0 (.bytes []) small).operand = .bytes [] := rfl

/-- One byte string for each check, and one that passes all. -/
theorem witness_SectionChecksInOrder :
    let sl : Bytes → Nat := fun x => (byteAt x 1).toNat % 16 * 256 + (byteAt x 2).toNat
    ([0, 0xB0] : Bytes).length < 3 ∧ (byteAt [0, 0x7F, 0] 1).toNat < 128 ∧ sl [0, 0xB3, 0xFE] = 1022 ∧
    sl [0, 0xB3, 0xFD] = 1021 ∧ (patBytes.take 15).length < 3 + sl patBytes ∧ sl [0, 0xB0, 0x08] = 8 ∧
    sl patBytes = 13 ∧ ((0xA2 : Byte) ++ (0xC3 : Byte) ++ (0x29 : Byte) ++ (0x40 : Byte)) ≠ crc32 (patBytes.take 12) ∧
    ((0xA2 : Byte) ++ (0xC3 : Byte) ++ (0x29 : Byte) ++ (0x41 : Byte)) = crc32 (patBytes.take 12) := by decide +kernel

/-- No table data, and the most there can be. -/
theorem witness_OtherSectionDecodes :
    128 ≤ (0xB0 : Byte).toNat ∧ (0xB0 : Byte).toNat % 16 * 256 + (0x09 : Byte).toNat = 9 + ([] : Bytes).length ∧
    (0xB3 : Byte).toNat % 16 * 256 + (0xFD : Byte).toNat = 9 + (List.replicate 1012 (0 : Byte)).length ∧
    (0xFF : Byte) ≠ 0x00 ∧ (0xFF : Byte) ≠ 0x02 := by decide +kernel

/-- An empty PAT, one with an entry, and one with three bytes too many. -/
theorem witness_PatSectionDecodes :
    (0xB0 : Byte).toNat % 16 * 256 + (0x09 : Byte).toNat = 9 + 0 ∧ 128 ≤ (0xB0 : Byte).toNat ∧
    (0xB0 : Byte).toNat % 16 * 256 + (0x0D : Byte).toNat = 9 + ([0, 1, 0xE0, 0x20] : Bytes).length ∧
    (0xB0 : Byte).toNat % 16 * 256 + (0x0C : Byte).toNat = 9 + ([1, 2, 3] : Bytes).length ∧
    ([1, 2, 3] : Bytes).length < 4 := by decide

theorem no_pmt {x : Bytes} (h : parsePmt x = .error .malformedTable) :
    ¬ ∃ pcrPid info streams, PmtTableData pcrPid info streams x := by
  rintro ⟨pcrPid, info, streams, hx⟩
  rw [← parsePmt_ok_iff, h] at hx
  cases hx

/-- Table data with a descriptor, a stream and every reserved bit 0; three bytes; a program_info_length one past the
four there are; and a stream header cut short, an ES_info_length one past the end and a descriptor loop of one byte. -/
theorem witness_PmtHeaderOverrun :
    PmtTableData 0x100 [⟨5, [1]⟩] [⟨0x1B, 0x101, []⟩] [1, 0, 0, 3, 5, 1, 1, 0x1B, 1, 1, 0, 0] ∧
    (0xB0 : Byte).toNat % 16 * 256 + (0x15 : Byte).toNat = 9 + ([1, 0, 0, 3, 5, 1, 1, 0x1B, 1, 1, 0, 0] : Bytes).length ∧
    ([0, 0, 0] : Bytes).length < 4 ∧
    ([0xE1, 0, 0xF0, 1] : Bytes).length < 4 + ((byteAt [0xE1, 0, 0xF0, 1] 2).toNat % 16 * 256 + (byteAt [0xE1, 0, 0xF0, 1] 3).toNat) ∧
    (¬ ∃ pcrPid info streams, PmtTableData pcrPid info streams [0xE1, 0, 0xF0, 0, 0x1B, 0xE1, 1, 0xF0]) ∧
    (¬ ∃ pcrPid info streams, PmtTableData pcrPid info streams [0xE1, 0, 0xF0, 0, 0x1B, 0xE1, 1, 0xF0, 1]) ∧
    (¬ ∃ pcrPid info streams, PmtTableData pcrPid info streams [0xE1, 0, 0xF0, 1, 5]) :=
  ⟨⟨[1, 0, 0, 3, 5, 1, 1], [(⟨0x1B, 0x101, []⟩, [1, 1, 0, 0])], rfl,
      ⟨_, _, _, _, _, rfl, by decide, by decide, by decide, rfl⟩,
      by simp only [List.mem_singleton]; rintro e rfl; exact ⟨_, _, _, _, _, rfl, by decide, by decide, by decide, rfl⟩,
      rfl⟩,
    by decide, by decide, by decide, no_pmt (by decide), no_pmt (by decide), no_pmt (by decide)⟩

/-- Each case of a section value; the largest and the first too large. -/
theorem witness_EncodeSectionResult :
    patValue.wellTyped = true ∧ (Section.pmt 1 ⟨0, 1, 0, 0⟩ 0x100 [⟨5, [1]⟩] [⟨0x1B, 0x100, []⟩]).wellTyped = true ∧
    (Section.other 0xFF 1 2 ⟨3, 0, 4, 5⟩ (List.replicate 1012 0)).wellTyped = true ∧
    9 + (List.replicate 1012 (0 : Byte)).length = 1021 ∧ 9 + (List.replicate 1013 (0 : Byte)).length > 1021 ∧
    (Section.other 0x02 0 0 ⟨0, 0, 0, 0⟩ []).wellTyped = true := by decide +kernel

theorem witness_SectionRoundTrip :
    ∃ (s s' : State) (v : Section) (x : Bytes), s.operand = .sec v ∧ s'.operand = .bytes (x ++ [0xFF]) ∧
      ∃ t, exec .encodeSection s = .next t ∧ t.responses = [] ++ [⟨0x00, .bytes x, []⟩] :=
  ⟨issue 0 (.sec patValue) small, issue 0 (.bytes (patBytes ++ [0xFF])) small, patValue, patBytes, rfl, rfl,
    next_of_answered (by decide +kernel)⟩

/-- The first bit of the section, its last bit, and the section_syntax_indicator. -/
theorem witness_CrcGateCatchesBitFlips :
    (∃ t, exec .decodeSection (issue 0 (.bytes patBytes) small) = .next t ∧
      t.responses = [] ++ [⟨0x00, .sec patValue, []⟩]) ∧
    patBytes.length = 3 + ((byteAt patBytes 1).toNat % 16 * 256 + (byteAt patBytes 2).toNat) ∧
    0 < patBytes.length ∧ 15 < patBytes.length ∧ 1 < patBytes.length :=
  ⟨next_of_answered (by decide +kernel), by decide, by decide, by decide, by decide⟩

/-- One packet for each check: five bytes, a bad prefix, stream_id 0xBB, one byte short, and the two stream id
classes at the boundary of the list. -/
theorem witness_PesChecksInOrder :
    ([0, 0, 1, 0xE0, 0] : Bytes).length < 6 ∧ byteAt [0, 0, 2, 0xE0, 0, 0] 2 ≠ 1 ∧ (0xBB : Byte).toNat < 0xBC ∧
    (pesPacketBytes.take 16).length < 6 + (0 * 256 + 11) ∧
    (0xBC : Byte) ∈ ([0xBC, 0xBE, 0xBF, 0xF0, 0xF1, 0xF2, 0xF8, 0xFF] : Bytes) ∧
    (0xBD : Byte) ∉ ([0xBC, 0xBE, 0xBF, 0xF0, 0xF1, 0xF2, 0xF8, 0xFF] : Bytes) := by decide

/-- One body for each error: two bytes; a wrong marker; flags 01; H one short of a PTS; a body one short of H; a wrong
prefix nibble; a wrong DTS prefix; and a good one. -/
theorem witness_PesHeaderErrorsInOrder :
    ([0x80, 0] : Bytes).length < 3 ∧ (0x40 : Byte).toNat / 64 ≠ 2 ∧ (0x40 : Byte).toNat / 64 = 1 ∧
    ((0x80 : Byte).toNat / 64 = 2 ∧ (4 : Nat) < 5) ∧ ([0x80, 0x00, 1] : Bytes).length < 3 + 1 ∧
    ((0xC0 : Byte).toNat / 64 = 3 ∧ (0x21 : Byte).toNat / 16 ≠ 3) ∧ (0x21 : Byte).toNat / 16 ≠ 1 ∧
    (0 * 256 + (0x0B : Byte).toNat = (pesPacketBytes.drop 6).length) := by decide

/-- Bounded with both timestamps, and unbounded without one. -/
theorem witness_PesHeaderDecodes :
    (0 * 256 + (0x11 : Byte).toNat = 3 + (tsBytes 3 1 ++ tsBytes 1 0 ++ [0xFF]).length + ([0xAA, 0xBB, 0xCC] : Bytes).length) ∧
    (0x80 : Byte).toNat / 64 = 2 ∧ (tsBytes 3 1 ++ tsBytes 1 0 ++ [0xFF]).length ≤ 255 ∧
    (List.replicate 255 (0xFF : Byte)).length ≤ 255 ∧ 0xBC ≤ (0xE0 : Byte).toNat ∧
    (0xE0 : Byte) ∉ ([0xBC, 0xBE, 0xBF, 0xF0, 0xF1, 0xF2, 0xF8, 0xFF] : Bytes) := by decide +kernel

/-- One value for each check and one that passes all: stream_id 0xBB; a header that should not be there; a DTS alone;
65536 bytes after byte 5; none; and R237's example. -/
theorem witness_EncodePesResult :
    (issue 0 (.pes pesValue) small).operand = .pes pesValue ∧ (0xBB : Byte).toNat < 0xBC ∧
    ((0xBE : Byte) ∈ ([0xBC, 0xBE, 0xBF, 0xF0, 0xF1, 0xF2, 0xF8, 0xFF] : Bytes) ↔ pesValue.header.isSome = true) ∧
    (∃ h : PesHeader, h.pts = none ∧ h.dts ≠ none) ∧ 65535 < 65535 + 1 ∧
    ¬ (pesValue.streamId ∈ ([0xBC, 0xBE, 0xBF, 0xF0, 0xF1, 0xF2, 0xF8, 0xFF] : Bytes) ↔ pesValue.header.isSome = true) :=
  ⟨rfl, by decide, by decide, ⟨⟨0, 0, 0, 0, 0, none, some 0⟩, by decide⟩, by decide, by decide⟩

/-- A bounded packet with a byte behind it, and an unbounded one. -/
theorem witness_PesRoundTrip :
    (∃ (s s' : State) (p : PesPacket) (e : Bytes), s.operand = .pes p ∧ p.unbounded = 0 ∧ s'.operand = .bytes (e ++ [1]) ∧
      ∃ t, exec .encodePes s = .next t ∧ t.responses = [] ++ [⟨0x00, .bytes e, []⟩]) ∧
    (∃ (s s' : State) (p : PesPacket) (e : Bytes), s.operand = .pes p ∧ p.unbounded = 1 ∧ s'.operand = .bytes (e ++ []) ∧
      ∃ t, exec .encodePes s = .next t ∧ t.responses = [] ++ [⟨0x00, .bytes e, []⟩]) :=
  ⟨⟨issue 0 (.pes pesValue) small, issue 0 (.bytes (pesPacketBytes ++ [1])) small, pesValue, pesPacketBytes, rfl, rfl,
      rfl, next_of_answered (by decide +kernel)⟩,
   ⟨issue 0 (.pes ⟨0xBE, none, 1, []⟩) small, issue 0 (.bytes ([0, 0, 1, 0xBE, 0, 0] ++ [])) small, ⟨0xBE, none, 1, []⟩,
      [0, 0, 1, 0xBE, 0, 0], rfl, rfl, rfl, next_of_answered (by decide +kernel)⟩⟩

/-- Empty and non-empty input. -/
theorem witness_SplitResult :
    (issue 0 (.bytes []) small).Inv ∧ (issue 0 (.bytes []) small).operand = .bytes [] ∧
    (issue 0 (.bytes patBytes) small).Inv ∧ patBytes ≠ [] := by decide

theorem witness_SplitPacketsCarryTheInput :
    ∃ (s : State) (x : Bytes) (l : List Bytes), s.operand = .bytes x ∧ x ≠ [] ∧
      ∃ t, exec (.split .pes 0x44) s = .next t ∧ t.responses = [] ++ [⟨0x00, .packets l, []⟩] :=
  ⟨issue 0 (.bytes [0xC3]) small, [0xC3], [[0x47, 0x40, 0x44, 0x30, 0xB6, 0x00] ++ List.replicate 181 0xFF ++ [0xC3]],
    rfl, by decide, next_of_answered (by decide +kernel)⟩

/-- A free slot, a PID already open, and neither. -/
theorem witness_OpenResult :
    (small.Inv ∧ none ∈ small.S) ∧ (oneSlot (freshSlot 5 .psi) none).slot 5 ≠ none ∧
    (let full : State := { small with S := [some (freshSlot 0 .psi), some (freshSlot 1 .pes)] }
     full.Inv ∧ full.slot 5 = none ∧ none ∉ full.S) := by decide

theorem witness_CloseResult :
    (oneSlot (freshSlot 5 .psi) (some 3)).Inv ∧ (oneSlot (freshSlot 5 .psi) (some 3)).slot 5 ≠ none ∧
    small.slot 5 = none := by decide

theorem witness_SlotStateResult :
    small.slot 5 = none ∧ (oneSlot (freshSlot 5 .psi) none).slot 5 = some (freshSlot 5 .psi) := by decide

theorem witness_TakeCompletedResult :
    small.Q = [] ∧ ({ small with Q := [⟨0, .sec patValue⟩] } : State).Q = ⟨0, .sec patValue⟩ :: [] := by decide

/-- Idle, a bounded unit in progress, an unbounded unit in progress, and no slot. -/
theorem witness_FinishResult :
    (oneSlot (freshSlot 5 .psi) none).slot 5 = some (freshSlot 5 .psi) ∧
    (oneSlot ⟨5, .pes, .accumulating, [0], .unknown⟩ none).slot 5 = some ⟨5, .pes, .accumulating, [0], .unknown⟩ ∧
    (oneSlot ⟨5, .pes, .accumulating, [0, 0, 1, 0xBE, 0, 0], .unbounded⟩ none).slot 5 =
      some ⟨5, .pes, .accumulating, [0, 0, 1, 0xBE, 0, 0], .unbounded⟩ ∧ small.slot 5 = none := by decide

/-- A packet that does not decode, a null packet, one with tei = 1, and one of a PID that is not open. -/
theorem witness_FeedChecksAndFilters :
    (∃ e, decodePacket (List.replicate 188 0) = .error e) ∧
    decodePacket (framePacket (pkt 0x1FFF 0 0 none)) = .ok (pkt 0x1FFF 0 0 none) ∧
    decodePacket (framePacket { pkt 7 0 0 none with tei := 1 }) = .ok { pkt 7 0 0 none with tei := 1 } ∧
    decodePacket (framePacket (pkt 7 0 0 none)) = .ok (pkt 7 0 0 none) ∧ small.slot 7 = none :=
  ⟨⟨.syncByteMismatch 0, by decide +kernel⟩, by decide +kernel, by decide +kernel, by decide +kernel, by decide⟩

/-- The slot of the FEED witnesses: 5 of 9 bytes of a PES packet of PID 7, or none. -/
def partPes : Slot := ⟨7, .pes, .accumulating, [0, 0, 1, 0xBE, 0, 3, 1], .bounded 9⟩
def partSection : Slot := ⟨7, .psi, .accumulating, [0, 0xB0, 13, 0], .bounded 16⟩
def noUnit (kind : Kind) : Slot := freshSlot 7 kind

theorem witness_FeedDuplicate :
    ∃ (s : State) (p : TsPacket) (sl : Slot), s.Inv ∧ FeedsOpen s p sl ∧ p.payload.isSome ∧
      Repeated (s.readR p.pid) p.cc 1 p.af.di :=
  ⟨feeding partPes (some 2) (pkt 7 0 2 (some [9])), pkt 7 0 2 (some [9]), partPes, by decide +kernel,
    feeding_open _ _ _ (by decide +kernel) (by decide) rfl rfl, rfl, by decide +kernel⟩

/-- A flat counter and another one, in a slot with a unit in progress and in one without. -/
theorem witness_FeedWithoutPayload :
    (∃ (s : State) (p : TsPacket) (sl : Slot), s.Inv ∧ FeedsOpen s p sl ∧ p.payload = none ∧
      InSequence (s.readR p.pid) p.cc 0 p.af.di) ∧
    (∃ (s : State) (p : TsPacket) (sl : Slot), s.Inv ∧ FeedsOpen s p sl ∧ p.payload = none ∧
      ¬ InSequence (s.readR p.pid) p.cc 0 p.af.di ∧ sl.state = .accumulating) :=
  ⟨⟨feeding (noUnit .pes) (some 2) (pkt 7 0 2 none), pkt 7 0 2 none, noUnit .pes, by decide +kernel,
      feeding_open _ _ _ (by decide +kernel) (by decide) rfl rfl, rfl, by decide +kernel⟩,
   ⟨feeding partPes (some 2) (pkt 7 0 3 none), pkt 7 0 3 none, partPes, by decide +kernel,
      feeding_open _ _ _ (by decide +kernel) (by decide) rfl rfl, rfl, by decide +kernel, rfl⟩⟩

theorem witness_FeedIgnoresContinuation :
    (∃ (s : State) (p : TsPacket) (sl : Slot), s.Inv ∧ FeedsOpen s p sl ∧ p.payload.isSome ∧ p.pusi = 0 ∧
      sl.state ≠ .accumulating ∧ InSequence (s.readR p.pid) p.cc 1 p.af.di) ∧
    (∃ (s : State) (p : TsPacket) (sl : Slot), s.Inv ∧ FeedsOpen s p sl ∧ p.payload.isSome ∧ p.pusi = 0 ∧
      sl.state = .accumulating ∧ ¬ InSequence (s.readR p.pid) p.cc 1 p.af.di ∧
      ¬ Repeated (s.readR p.pid) p.cc 1 p.af.di) :=
  ⟨⟨feeding (noUnit .psi) (some 15) (pkt 7 0 0 (some [9])), pkt 7 0 0 (some [9]), noUnit .psi, by decide +kernel,
      feeding_open _ _ _ (by decide +kernel) (by decide) rfl rfl, rfl, rfl, by decide, by decide +kernel⟩,
   ⟨feeding partPes (some 2) (pkt 7 0 5 (some [9])), pkt 7 0 5 (some [9]), partPes, by decide +kernel,
      feeding_open _ _ _ (by decide +kernel) (by decide) rfl rfl, rfl, rfl, rfl, by decide +kernel, by decide +kernel⟩⟩

/-- The unit one byte short of its target afterwards, and reaching it. -/
theorem witness_FeedAppends :
    (∃ (s : State) (p : TsPacket) (sl : Slot) (pay : Bytes), s.Inv ∧ FeedsOpen s p sl ∧ p.payload = some pay ∧
      p.pusi = 0 ∧ sl.state = .accumulating ∧ InSequence (s.readR p.pid) p.cc 1 p.af.di ∧
      (sl.buf ++ pay).length = 8) ∧
    (∃ (s : State) (p : TsPacket) (sl : Slot) (pay : Bytes), s.Inv ∧ FeedsOpen s p sl ∧ p.payload = some pay ∧
      p.pusi = 0 ∧ sl.state = .accumulating ∧ InSequence (s.readR p.pid) p.cc 1 p.af.di ∧
      (sl.buf ++ pay).length = 9) :=
  ⟨⟨feeding partPes (some 2) (pkt 7 0 3 (some [2])), pkt 7 0 3 (some [2]), partPes, [2], by decide +kernel,
      feeding_open _ _ _ (by decide +kernel) (by decide) rfl rfl, rfl, rfl, rfl, by decide +kernel, rfl⟩,
   ⟨feeding partPes (some 15) (pkt 7 0 0 (some [2, 3])), pkt 7 0 0 (some [2, 3]), partPes, [2, 3], by decide +kernel,
      feeding_open _ _ _ (by decide +kernel) (by decide) rfl rfl, rfl, rfl, rfl, by decide +kernel, rfl⟩⟩

/-- In sequence over a unit in progress, and out of sequence. -/
theorem witness_FeedStartsPes :
    (∃ (s : State) (p : TsPacket) (sl : Slot) (pay : Bytes), s.Inv ∧ FeedsOpen s p sl ∧ p.payload = some pay ∧
      p.pusi = 1 ∧ sl.kind = .pes ∧ ¬ Repeated (s.readR p.pid) p.cc 1 p.af.di ∧
      InSequence (s.readR p.pid) p.cc 1 p.af.di ∧ sl.state = .accumulating) ∧
    (∃ (s : State) (p : TsPacket) (sl : Slot) (pay : Bytes), s.Inv ∧ FeedsOpen s p sl ∧ p.payload = some pay ∧
      p.pusi = 1 ∧ sl.kind = .pes ∧ ¬ Repeated (s.readR p.pid) p.cc 1 p.af.di ∧
      ¬ InSequence (s.readR p.pid) p.cc 1 p.af.di) :=
  ⟨⟨feeding partPes (some 2) (pkt 7 1 3 (some [])), pkt 7 1 3 (some []), partPes, [], by decide +kernel,
      feeding_open _ _ _ (by decide +kernel) (by decide) rfl rfl, rfl, rfl, rfl, by decide +kernel, by decide +kernel, rfl⟩,
   ⟨feeding (noUnit .pes) (some 2) (pkt 7 1 9 (some [0])), pkt 7 1 9 (some [0]), noUnit .pes, [0], by decide +kernel,
      feeding_open _ _ _ (by decide +kernel) (by decide) rfl rfl, rfl, rfl, rfl, by decide +kernel, by decide +kernel⟩⟩

/-- A pointer_field one past the payload, one that just fits, and a discontinuity over a section in progress. -/
theorem witness_FeedStartsSection :
    (∃ (s : State) (p : TsPacket) (sl : Slot) (pay : Bytes), s.Inv ∧ FeedsOpen s p sl ∧ p.payload = some pay ∧
      p.pusi = 1 ∧ sl.kind = .psi ∧ ¬ Repeated (s.readR p.pid) p.cc 1 p.af.di ∧ sl.state ≠ .accumulating ∧
      pay.length < 1 + (byteAt pay 0).toNat) ∧
    (∃ (s : State) (p : TsPacket) (sl : Slot) (pay : Bytes), s.Inv ∧ FeedsOpen s p sl ∧ p.payload = some pay ∧
      p.pusi = 1 ∧ sl.kind = .psi ∧ ¬ Repeated (s.readR p.pid) p.cc 1 p.af.di ∧ sl.state = .accumulating ∧
      ¬ InSequence (s.readR p.pid) p.cc 1 p.af.di ∧ pay.length = 1 + (byteAt pay 0).toNat) :=
  ⟨⟨feeding (noUnit .psi) none (pkt 7 1 3 (some [2, 0])), pkt 7 1 3 (some [2, 0]), noUnit .psi, [2, 0], by decide +kernel,
      feeding_open _ _ _ (by decide +kernel) (by decide) rfl rfl, rfl, rfl, rfl, by decide +kernel, by decide, by decide⟩,
   ⟨feeding partSection (some 2) (pkt 7 1 9 (some [1, 0])), pkt 7 1 9 (some [1, 0]), partSection, [1, 0], by decide +kernel,
      feeding_open _ _ _ (by decide +kernel) (by decide) rfl rfl, rfl, rfl, rfl, by decide +kernel, rfl, by decide +kernel,
      by decide⟩⟩

/-- An empty payload, and a pointer_field of 1 with its byte there. -/
theorem witness_FeedPointerTail :
    (∃ (s : State) (p : TsPacket) (sl : Slot), s.Inv ∧ FeedsOpen s p sl ∧ p.payload = some [] ∧
      p.pusi = 1 ∧ sl.kind = .psi ∧ sl.state = .accumulating ∧ InSequence (s.readR p.pid) p.cc 1 p.af.di) ∧
    (∃ (s : State) (p : TsPacket) (sl : Slot), s.Inv ∧ FeedsOpen s p sl ∧ p.payload = some [1, 0] ∧
      p.pusi = 1 ∧ sl.kind = .psi ∧ sl.state = .accumulating ∧ InSequence (s.readR p.pid) p.cc 1 p.af.di) :=
  ⟨⟨feeding partSection (some 2) (pkt 7 1 3 (some [])), pkt 7 1 3 (some []), partSection, by decide +kernel,
      feeding_open _ _ _ (by decide +kernel) (by decide) rfl rfl, rfl, rfl, rfl, rfl, by decide +kernel⟩,
   ⟨feeding partSection (some 2) (pkt 7 1 3 (some [1, 0])), pkt 7 1 3 (some [1, 0]), partSection, by decide +kernel,
      feeding_open _ _ _ (by decide +kernel) (by decide) rfl rfl, rfl, rfl, rfl, rfl, by decide +kernel⟩⟩

/-- The same FEED to blocks that differ in another PID's slot and in their queues. -/
theorem witness_FeedReadsOnlyItsPid :
    let p := pkt 7 0 3 (some [2, 3])
    let s := feeding partPes (some 2) p
    let s' : State := { s with S := [some (freshSlot 9 .psi), some partPes] }
    s.Inv ∧ s'.Inv ∧ decodePacket (framePacket p) = .ok p ∧ s.readR 7 = s'.readR 7 ∧ s.slot 7 = s'.slot 7 ∧
    s.Q.length = s'.Q.length ∧ answered (exec .feed s) ⟨0x00, .none, [⟨5, 0⟩]⟩ = true ∧
    answered (exec .feed s') ⟨0x00, .none, [⟨5, 0⟩]⟩ = true := by decide +kernel

theorem witness_FeedWritesOnlyItsPid :
    ∃ (s : State) (b : Bytes) (p : TsPacket), s.operand = .bytes b ∧ decodePacket b = .ok p ∧
      ∃ t, exec .feed s = .next t ∧ t.responses = [] ++ [⟨0x00, .none, [⟨5, 0⟩]⟩] :=
  ⟨feeding partPes (some 2) (pkt 7 0 3 (some [2, 3])), framePacket (pkt 7 0 3 (some [2, 3])), pkt 7 0 3 (some [2, 3]),
    rfl, by decide +kernel, next_of_answered (by decide +kernel)⟩

/-- A FEED with three events: a discontinuity over a unit in progress, then a malformed pointer. -/
theorem witness_EventBounds :
    ∃ t, exec .feed (feeding partSection (some 2) (pkt 7 1 9 (some []))) = .next t ∧
      t.responses = [] ++ [⟨0x00, .none, [⟨3, 0⟩, ⟨4, 0⟩, ⟨4, 2⟩]⟩] := next_of_answered (by decide +kernel)

/-- NOP at the port of a block whose cap is 9. -/
def holding (sl : Slot) : State := issue 0x00000000 .none { oneSlot sl none with params := ⟨2, 1, 9⟩ }

/-- Each stored form of a slot after a step: no unit, length unknown, bounded, unbounded at the cap. -/
theorem witness_BuffersAreBounded :
    ∀ sl ∈ [noUnit .psi, ⟨7, .psi, .accumulating, [0, 0xBF], .unknown⟩,
        ⟨7, .psi, .accumulating, [0, 0xBF, 0xFF], .bounded 4098⟩,
        ⟨7, .pes, .accumulating, [0, 0, 1, 0xE0, 0xFF, 0xFF], .bounded 65541⟩,
        ⟨7, .pes, .accumulating, [0, 0, 1, 0xE0, 0, 0, 1, 2, 3], .unbounded⟩],
      (holding sl).Inv ∧ (after (step (holding sl))).slot 7 = some sl := by decide +kernel

/-- The packets SPLIT answers with for `x`. -/
def packetsOf (kind : Kind) (pid : Pid) (x : Bytes) : List Bytes := splitPackets kind pid 0 x

/-- A slot of PID 7 after a loss. -/
def lostUnit (kind : Kind) : Slot := ⟨7, kind, .discarding, [], .unknown⟩

/-- From Idle before any packet, and from Discarding after a loss. -/
theorem witness_SplitThenFeedGivesSection :
    let fed : Slot → Option Counter → State := fun sl r =>
      { oneSlot sl r with inputs := (packetsOf .psi 7 patBytes).map feedCommand }
    encodeSection patValue = .ok patBytes ∧ patValue.wellTyped = true ∧
    answered (exec (.split .psi 7) (issue 0 (.bytes patBytes) small)) ⟨0x00, .packets (packetsOf .psi 7 patBytes), []⟩ = true ∧
    ((fed (noUnit .psi) none).Inv ∧ (fed (noUnit .psi) none).slot 7 = some (noUnit .psi) ∧
      (fed (noUnit .psi) none).readR 7 = none) ∧
    ((fed (lostUnit .psi) (some 15)).Inv ∧ (fed (lostUnit .psi) (some 15)).slot 7 = some (lostUnit .psi) ∧
      (fed (lostUnit .psi) (some 15)).readR 7 = some ((issue 0 (.bytes patBytes) small).readW 7 - 1)) ∧
    (fed (noUnit .psi) none).Q.length < small.params.qdepth := by decide +kernel

theorem witness_SplitThenFeedGivesPes :
    let s : State := { oneSlot (lostUnit .pes) (some 15) with inputs := (packetsOf .pes 7 pesPacketBytes).map feedCommand }
    encodePes pesValue = .ok pesPacketBytes ∧ pesValue.unbounded = 0 ∧
    answered (exec (.split .pes 7) (issue 0 (.bytes pesPacketBytes) small)) ⟨0x00, .packets (packetsOf .pes 7 pesPacketBytes), []⟩ = true ∧
    s.Inv ∧ s.slot 7 = some (lostUnit .pes) ∧ (lostUnit .pes).state ≠ .accumulating ∧ s.Q.length < s.params.qdepth ∧
    s.readR 7 = some ((issue 0 (.bytes pesPacketBytes) small).readW 7 - 1) := by decide +kernel

/-- A section of three packets. -/
def longData : Bytes := List.replicate 400 0
def longValue : Section := .other 0x42 0 0 ⟨0, 1, 0, 0⟩ longData
def longBytes : Bytes := withCrc ([0x42, 0xB1, 0x99, 0x00, 0x00, 0xC1, 0x00, 0x00] ++ longData)

theorem longData_length : longData.length = 400 := List.length_replicate

theorem other_encoded (data : Bytes) (h : data.length = 400) :
    encodeSection (.other 0x42 0 0 ⟨0, 1, 0, 0⟩ data) =
      .ok (withCrc ([0x42, 0xB1, 0x99, 0x00, 0x00, 0xC1, 0x00, 0x00] ++ data)) := by
  simp only [encodeSection, sectionBytes, h]
  rfl

theorem three_packets (x : Bytes) (h : splitCount .psi x = 3) :
    splitPackets .psi 7 0 x =
      [framePacket (splitPacket .psi 7 0 x 0)] ++ [framePacket (splitPacket .psi 7 0 x 1)] ++
        [framePacket (splitPacket .psi 7 0 x 2)] := by
  simp [splitPackets, h, List.range_succ]

theorem split_answers (x : Bytes) :
    ∃ t, exec (.split .psi 7) (issue 0 (.bytes x) small) = .next t ∧
      t.responses = [] ++ [⟨0x00, .packets (splitPackets .psi 7 0 x), []⟩] := ⟨_, rfl, rfl⟩

theorem witness_LostPacketLosesTheSection :
    ∃ (s0 s : State) (x b : Bytes) (l₁ l₂ : List Bytes),
      encodeSection longValue = .ok x ∧ longValue.wellTyped = true ∧ s0.operand = .bytes x ∧
      (∃ t0, exec (.split .psi 7) s0 = .next t0 ∧ t0.responses = [] ++ [⟨0x00, .packets (l₁ ++ [b] ++ l₂), []⟩]) ∧
      l₁ ≠ [] ∧ l₂ ≠ [] ∧ s.Inv ∧ s.inputs = (l₁ ++ l₂).map feedCommand ++ [] ∧
      s.slot 7 = some (freshSlot 7 .psi) ∧ s.readR 7 = none := by
  have he : encodeSection longValue = .ok longBytes := by
    rw [longValue, other_encoded longData longData_length, longBytes]
  have hc : splitCount .psi longBytes = 3 := by simp [splitCount, splitStream, longBytes, withCrc, be32, longData_length]
  have ha := split_answers longBytes
  rw [three_packets longBytes hc] at ha
  generalize longBytes = x at he ha
  have hw : longValue.wellTyped = true := rfl
  exact ⟨_, { oneSlot (freshSlot 7 .psi) none with inputs :=
    ([framePacket (splitPacket .psi 7 0 x 0)] ++ [framePacket (splitPacket .psi 7 0 x 2)]).map feedCommand ++ [] }, x, _, _, _, he, hw, rfl, ha, by simp, by simp,
    (by decide : (oneSlot (freshSlot 7 .psi) none).Inv), rfl, rfl, rfl⟩

end Sys2Proof.Tests
end

section
/-! How a command can end, said once for all 18 commands: it raises a status and writes nothing, or it answers OK from
a state that has the same parameters and the same command port (00_scope.md R13, 10_state.md R42). -/

namespace Sys2Proof.Machine

/-- `u` has the parameters and the command port of `s`; W, R, S and Q may differ. -/
def SamePort (s u : State) : Prop :=
  u.params = s.params ∧ u.inputs = s.inputs ∧ u.responses = s.responses

/-- The ways a command issued in `s` can end. -/
inductive CommandEnds (s : State) : State → Prop
  | raised (e : ErrorStatus) : CommandEnds s (s.answer (errorResponse e))
  | ok (u : State) (out : Output) (ev : List Event) (port : SamePort s u) :
      CommandEnds s (u.answer (okResponse out ev))

theorem commandEnds_of_complete {s u t : State} {out : Output} (h : complete u out = .next t)
    (port : SamePort s u) : CommandEnds s t := by
  rw [complete_next u t out h]
  exact .ok u out [] port

theorem commandEnds_of_raise {s t : State} {e : ErrorStatus} (h : raise e s = .next t) : CommandEnds s t := by
  rw [(raise_next e s t h).1]
  exact .raised e

/-- A codec command answers with its codec's result, an error or a value (R351, R352). -/
theorem commandEnds_answer_result {α : Type} (s : State) (out : α → Output) (x : Except ErrorStatus α) :
    CommandEnds s (s.answer (resultResponse out x)) := by
  cases x with
  | error e => exact .raised e
  | ok v => exact .ok s (out v) [] ⟨rfl, rfl, rfl⟩

/-- A command that is its codec on the typed IN operand. -/
theorem commandEnds_of_codec {α β : Type} {s t : State} {o : Option α} {out : β → Output}
    {codec : α → Except ErrorStatus β}
    (h : withOperand o (fun v => .next (s.answer (resultResponse out (codec v)))) = .next t) : CommandEnds s t := by
  obtain ⟨v, -, hv⟩ := withOperand_next _ _ _ h
  cases hv
  exact commandEnds_answer_result s out (codec v)

theorem execCcNext_ends {h : Bit} {pid : Pid} {s t : State} (he : execCcNext h pid s = .next t) :
    CommandEnds s t := by
  unfold execCcNext at he
  split at he
  · exact commandEnds_of_complete he ⟨rfl, rfl, rfl⟩
  · exact commandEnds_of_complete he ⟨rfl, rfl, rfl⟩

theorem execCrc32_ends {s t : State} (h : execCrc32 s = .next t) : CommandEnds s t := by
  obtain ⟨_, -, hx⟩ := withOperand_next _ _ _ h
  exact commandEnds_of_complete hx ⟨rfl, rfl, rfl⟩

theorem execSplit_ends {kind : Kind} {pid : Pid} {s t : State} (h : execSplit kind pid s = .next t) :
    CommandEnds s t := by
  obtain ⟨_, -, hx⟩ := withOperand_next _ _ _ h
  exact commandEnds_of_complete hx ⟨rfl, rfl, rfl⟩

theorem execOpen_ends {kind : Kind} {pid : Pid} {s t : State} (h : execOpen kind pid s = .next t) :
    CommandEnds s t := by
  unfold execOpen at h
  split at h
  · exact commandEnds_of_complete h ⟨rfl, rfl, rfl⟩
  · split at h
    · exact commandEnds_of_complete h ⟨rfl, rfl, rfl⟩
    · exact commandEnds_of_raise h

theorem execClose_ends {pid : Pid} {s t : State} (h : execClose pid s = .next t) : CommandEnds s t := by
  unfold execClose at h
  split at h
  · exact commandEnds_of_raise h
  · exact commandEnds_of_complete h ⟨rfl, rfl, rfl⟩

/-- A packet that decodes is answered with OK whatever the filters and the slot make of it (45_depacketizer.md
R284). -/
theorem feedPacket_ends (p : TsPacket) (s : State) : CommandEnds s (feedPacket p s) := by
  unfold feedPacket
  split
  · exact .ok s _ _ ⟨rfl, rfl, rfl⟩
  · split
    · exact .ok s _ _ ⟨rfl, rfl, rfl⟩
    · split
      · exact .ok s _ _ ⟨rfl, rfl, rfl⟩
      · exact .ok _ _ _ ⟨rfl, rfl, rfl⟩

theorem execFeed_ends {s t : State} (h : execFeed s = .next t) : CommandEnds s t := by
  obtain ⟨b, -, hb⟩ := withOperand_next _ _ _ h
  cases hd : decodePacket b with
  | error e =>
    simp only [hd] at hb
    exact commandEnds_of_raise hb
  | ok p =>
    simp only [hd] at hb
    cases hb
    exact feedPacket_ends p s

theorem execFinish_ends {pid : Pid} {s t : State} (h : execFinish pid s = .next t) : CommandEnds s t := by
  unfold execFinish at h
  split at h
  · exact commandEnds_of_raise h
  · cases h
    exact .ok _ _ _ ⟨rfl, rfl, rfl⟩

theorem execTakeCompleted_ends {s t : State} (h : execTakeCompleted s = .next t) : CommandEnds s t := by
  unfold execTakeCompleted at h
  split at h
  · exact commandEnds_of_raise h
  · exact commandEnds_of_complete h ⟨rfl, rfl, rfl⟩

theorem execSlotState_ends {pid : Pid} {s t : State} (h : execSlotState pid s = .next t) : CommandEnds s t := by
  unfold execSlotState at h
  split at h
  · exact commandEnds_of_raise h
  · exact commandEnds_of_complete h ⟨rfl, rfl, rfl⟩

/-- Every command that completes ends in one of the two ways. -/
theorem exec_ends {i : Instr} {s t : State} (h : exec i s = .next t) : CommandEnds s t := by
  cases i with
  | nop => exact commandEnds_of_complete h ⟨rfl, rfl, rfl⟩
  | reset => exact commandEnds_of_complete h ⟨rfl, rfl, rfl⟩
  | decodePacket => exact commandEnds_of_codec h
  | encodePacket => exact commandEnds_of_codec h
  | ccNext => exact execCcNext_ends h
  | ccValidate => exact commandEnds_of_complete h ⟨rfl, rfl, rfl⟩
  | crc32 => exact execCrc32_ends h
  | decodeSection => exact commandEnds_of_codec h
  | encodeSection => exact commandEnds_of_codec h
  | decodePes => exact commandEnds_of_codec h
  | encodePes => exact commandEnds_of_codec h
  | split => exact execSplit_ends h
  | openPid => exact execOpen_ends h
  | closePid => exact execClose_ends h
  | feed => exact execFeed_ends h
  | finish => exact execFinish_ends h
  | takeCompleted => exact execTakeCompleted_ends h
  | slotState => exact execSlotState_ends h

/-- Settles O2: a raised status is answered from the state unwritten, and OK is no raised status. -/
theorem everyCommandIsAnsweredOnce : Obligations.EveryCommandIsAnsweredOnce := by
  intro i s t h
  cases exec_ends h with
  | raised e => exact ⟨rfl, errorResponse e, ⟨rfl, rfl⟩, fun _ => ⟨⟨rfl, rfl, rfl, rfl, rfl⟩, rfl⟩⟩
  | ok u out ev port =>
    obtain ⟨hparams, hinputs, hresponses⟩ := port
    exact ⟨hparams, okResponse out ev, ⟨by simp [hinputs], by simp [hresponses]⟩, fun hne => absurd rfl hne⟩

end Sys2Proof.Machine
end

section
/-! The command port and the reset state. -/

namespace Sys2Proof.Machine

/-- Settles O1: a legal word is fetched as the command to run (46_control.md R333). -/
theorem stepRunsDecodedCommand : Obligations.StepRunsDecodedCommand := by
  intro s c rest i hlegal hport hdecode
  rw [step, fetch_run s c rest i hlegal hport hdecode]

/-- The reset state is good for every block that can be built (10_state.md R44): its tables and queue are empty, and
its slots all have valid = 0. -/
theorem State.resetWith_inv {p : Params} (hp : p.legal) : (State.resetWith p).Inv := by
  have apart : (List.replicate p.nslots (none : Option Slot)).Pairwise (fun a b => slotsApart a b = true) :=
    List.pairwise_replicate.mpr (.inr rfl)
  have free : ∀ o ∈ List.replicate p.nslots (none : Option Slot), entryWf p o = true := by
    intro o ho
    rw [List.eq_of_mem_replicate ho]
    rfl
  exact ⟨hp, ⟨.nil, nofun⟩, nofun, ⟨.nil, nofun⟩, List.length_replicate, apart, free, Nat.zero_le _, nofun⟩

/-- Settles O7: `State.reset` is the reset state of the parameters of log 1, which are legal. -/
theorem resetMeetsInvariant : Obligations.ResetMeetsInvariant :=
  ⟨State.resetWith_inv (by decide), fun _ => State.resetWith_inv⟩

end Sys2Proof.Machine
end

section
/-! What a step can write, said once for all 18 commands (20_memory.md R69): the inversion lemma the claims about who
writes what, and about what every step keeps, are read off. -/

namespace Sys2Proof.Machine

/-- The ways a command issued in `s` can write the block: `Effect i s u` says that `i` can leave W, R, S and Q as they
are in `u`. -/
inductive Effect : Instr → State → State → Prop
  | kept {i : Instr} {s : State} : Effect i s s
  | cleared {s : State} : Effect .reset s s.clear
  | stamped {s : State} (pid : Pid) (c : Counter) : Effect (.ccNext 1 pid) s (s.writeW pid c)
  | cut {s : State} (kind : Kind) (pid : Pid) (c : Counter) : Effect (.split kind pid) s (s.writeW pid c)
  | validated {s : State} (cc : Counter) (di h : Bit) (pid : Pid) (r : Option Counter) :
      Effect (.ccValidate cc di h pid) s (s.writeR pid r)
  | reopened {s : State} {kind : Kind} {pid : Pid} {sl : Slot} (hs : s.slot pid = some sl) :
      Effect (.openPid kind pid) s ((s.putSlot pid (some (freshSlot pid kind))).writeR pid none)
  | opened {s : State} {kind : Kind} {pid : Pid} (hs : s.slot pid = none) (hfree : s.hasFree = true) :
      Effect (.openPid kind pid) s ((s.fillFree (freshSlot pid kind)).writeR pid none)
  | closed {s : State} {pid : Pid} {sl : Slot} (hs : s.slot pid = some sl) :
      Effect (.closePid pid) s ((s.putSlot pid none).writeR pid none)
  | fed {s : State} {b : Bytes} {p : TsPacket} {sl : Slot} (v : Verdict) (r : Option Counter)
      (hb : s.operand = .bytes b) (hp : decodePacket b = .ok p) (hs : s.slot p.pid = some sl) :
      Effect .feed s (((s.writeR p.pid r).putSlot p.pid (some (Reassembly.run s.params p v ⟨sl, s.Q, []⟩).slot)).putQ
        (Reassembly.run s.params p v ⟨sl, s.Q, []⟩).queue)
  | finished {s : State} {pid : Pid} {sl : Slot} (hs : s.slot pid = some sl) :
      Effect (.finish pid) s ((s.putSlot pid (some (Reassembly.finish s.params ⟨sl, s.Q, []⟩).slot)).putQ
        (Reassembly.finish s.params ⟨sl, s.Q, []⟩).queue)
  | taken {s : State} {c : CompletedUnit} {rest : List CompletedUnit} (hq : s.Q = c :: rest) :
      Effect .takeCompleted s (s.putQ rest)

/-- `i` wrote the block in one of its ways and was then answered. -/
def Written (i : Instr) (s t : State) : Prop := ∃ u r, Effect i s u ∧ t = u.answer r

theorem written_of_complete {i : Instr} {s u t : State} {out : Output} (h : complete u out = .next t)
    (he : Effect i s u) : Written i s t := ⟨u, _, he, complete_next u t out h⟩

theorem written_of_raise {i : Instr} {s t : State} {e : ErrorStatus} (h : raise e s = .next t) : Written i s t :=
  ⟨s, _, .kept, (raise_next e s t h).1⟩

/-- A command that only answers, whatever it answers, on its typed IN operand. -/
theorem written_of_codec {i : Instr} {α : Type} {s t : State} {o : Option α} {response : α → Response}
    (h : withOperand o (fun v => .next (s.answer (response v))) = .next t) : Written i s t := by
  obtain ⟨v, -, hv⟩ := withOperand_next _ _ _ h
  cases hv
  exact ⟨s, _, .kept, rfl⟩

theorem execCcNext_written {h : Bit} {pid : Pid} {s t : State} (he : execCcNext h pid s = .next t) :
    Written (.ccNext h pid) s t := by
  unfold execCcNext at he
  split at he
  · rename_i hh
    subst hh
    exact written_of_complete he (.stamped pid _)
  · exact written_of_complete he .kept

theorem execSplit_written {kind : Kind} {pid : Pid} {s t : State} (h : execSplit kind pid s = .next t) :
    Written (.split kind pid) s t := by
  obtain ⟨x, -, hx⟩ := withOperand_next _ _ _ h
  exact written_of_complete hx (.cut kind pid _)

theorem execOpen_written {kind : Kind} {pid : Pid} {s t : State} (h : execOpen kind pid s = .next t) :
    Written (.openPid kind pid) s t := by
  unfold execOpen at h
  split at h
  · rename_i hopen
    obtain ⟨sl, hs⟩ := Option.isSome_iff_exists.mp hopen
    exact written_of_complete h (.reopened hs)
  · rename_i hclosed
    split at h
    · rename_i hfree
      exact written_of_complete h (.opened (by simpa using hclosed) hfree)
    · exact written_of_raise h

theorem execClose_written {pid : Pid} {s t : State} (h : execClose pid s = .next t) : Written (.closePid pid) s t := by
  unfold execClose at h
  split at h
  · exact written_of_raise h
  · rename_i sl hs
    exact written_of_complete h (.closed hs)

/-- A packet that decodes is filtered, not open, or runs the machine of its slot (45_depacketizer.md R285). -/
theorem feedPacket_written {s : State} {b : Bytes} {p : TsPacket} (hb : s.operand = .bytes b)
    (hp : decodePacket b = .ok p) : Written .feed s (feedPacket p s) := by
  unfold feedPacket
  split
  · exact ⟨s, _, .kept, rfl⟩
  · split
    · exact ⟨s, _, .kept, rfl⟩
    · split
      · exact ⟨s, _, .kept, rfl⟩
      · rename_i sl hs
        exact ⟨_, _, .fed _ _ hb hp hs, rfl⟩

theorem execFeed_written {s t : State} (h : execFeed s = .next t) : Written .feed s t := by
  obtain ⟨b, hin, hb⟩ := withOperand_next _ _ _ h
  obtain ⟨hop, -⟩ := s.inPacket188_some b hin
  cases hd : decodePacket b with
  | error e =>
    simp only [hd] at hb
    exact written_of_raise hb
  | ok p =>
    simp only [hd] at hb
    cases hb
    exact feedPacket_written hop hd

theorem execFinish_written {pid : Pid} {s t : State} (h : execFinish pid s = .next t) : Written (.finish pid) s t := by
  unfold execFinish at h
  split at h
  · exact written_of_raise h
  · rename_i sl hs
    cases h
    exact ⟨_, _, .finished hs, rfl⟩

theorem execTakeCompleted_written {s t : State} (h : execTakeCompleted s = .next t) : Written .takeCompleted s t := by
  unfold execTakeCompleted at h
  split at h
  · exact written_of_raise h
  · rename_i c rest hq
    exact written_of_complete h (.taken hq)

theorem execSlotState_written {pid : Pid} {s t : State} (h : execSlotState pid s = .next t) :
    Written (.slotState pid) s t := by
  unfold execSlotState at h
  split at h
  · exact written_of_raise h
  · exact written_of_complete h .kept

/-- Every command that completes writes the block in one of its ways. -/
theorem exec_written {i : Instr} {s t : State} (h : exec i s = .next t) : Written i s t := by
  cases i with
  | nop => exact written_of_complete h .kept
  | reset => exact written_of_complete h .cleared
  | decodePacket => exact written_of_codec h
  | encodePacket => exact written_of_codec h
  | ccNext => exact execCcNext_written h
  | ccValidate cc di hb pid => exact written_of_complete h (.validated cc di hb pid _)
  | crc32 => exact written_of_codec h
  | decodeSection => exact written_of_codec h
  | encodeSection => exact written_of_codec h
  | decodePes => exact written_of_codec h
  | encodePes => exact written_of_codec h
  | split => exact execSplit_written h
  | openPid => exact execOpen_written h
  | closePid => exact execClose_written h
  | feed => exact execFeed_written h
  | finish => exact execFinish_written h
  | takeCompleted => exact execTakeCompleted_written h
  | slotState => exact execSlotState_written h

/-- Everything a step that answers a next state can be (46_control.md R333): idle, the reset input, an illegal word, or
a command. -/
theorem step_cases {s t : State} (h : step s = .next t) :
    t = s ∨ t = s.clear.consume ∨ (∃ w, t = s.answer (errorResponse (.illegalCommand w))) ∨
      ∃ i, exec i s = .next t := by
  unfold step at h
  split at h
  · cases h
  · cases h
    exact .inl rfl
  · cases h
    exact .inr (.inl rfl)
  · rename_i w _
    exact .inr (.inr (.inl ⟨w, (raise_next _ s t h).1⟩))
  · rename_i i _
    exact .inr (.inr (.inr ⟨i, h⟩))

/-- Settles O13: each way of writing names its command and the elements it writes. -/
theorem onlyNamedCommandsWrite : Obligations.OnlyNamedCommandsWrite := by
  intro i s t h
  obtain ⟨u, r, he, rfl⟩ := exec_written h
  cases he with
  | kept => simp
  | cleared => simp
  | stamped pid c => simp
  | cut kind pid c => simp
  | validated cc di h pid r => simp
  | reopened hs => simp
  | opened hs hfree => simp
  | closed hs => simp
  | fed v r hb hp hs => simp
  | finished hs => simp
  | taken hq => simp

end Sys2Proof.Machine
end

section
/-! The accumulation target as numbers (45_depacketizer.md R288), and what it bounds (R292, 10_state.md R29). -/

namespace Sys2Proof.Machine

/-- The two bytes at `i` as a number, most significant first (00_scope.md R12, 20_memory.md R64). -/
theorem memRead_two {b : Bytes} {i : Nat} (h : i + 2 ≤ b.length) :
    memRead b i 2 = (byteAt b i).toNat * 256 + (byteAt b (i + 1)).toNat := by
  have hd : b.drop i = byteAt b i :: byteAt b (i + 1) :: b.drop (i + 2) := by
    rw [List.drop_eq_getElem_cons (by omega), List.drop_eq_getElem_cons (by omega), byteAt, byteAt,
      List.getD_eq_getElem _ _ (by omega), List.getD_eq_getElem _ _ (by omega)]
  rw [memRead, slice, hd, Nat.add_sub_cancel_left]
  exact beNat_pair _ _

/-- The target of a section: 12 bits of section_length behind three header bytes (30_encoding.md R98). -/
theorem declaredTarget_psi (b : Bytes) :
    declaredTarget .psi b = if b.length < 3 then .unknown
      else .bounded (3 + ((byteAt b 1).toNat % 16 * 256 + (byteAt b 2).toNat)) := by
  by_cases h : b.length < 3
  · simp [declaredTarget, h]
  · have hread : memRead b 1 2 = (byteAt b 1).toNat * 256 + (byteAt b 2).toNat := memRead_two (by omega)
    have hlow := (byteAt b 2).isLt
    have hfield : (field b 1 2 0 12).toNat = (byteAt b 1).toNat % 16 * 256 + (byteAt b 2).toNat := by
      simp only [field, hread, Nat.shiftRight_zero, BitVec.toNat_ofNat]
      omega
    simp only [declaredTarget, hfield, if_neg h, if_pos (Nat.le_of_not_lt h)]

/-- The target of a PES packet: PES_packet_length behind six header bytes, 0 for unbounded (30_encoding.md R104). -/
theorem declaredTarget_pes (b : Bytes) :
    declaredTarget .pes b = if b.length < 6 then .unknown
      else if byteAt b 4 = 0 ∧ byteAt b 5 = 0 then .unbounded
      else .bounded (6 + ((byteAt b 4).toNat * 256 + (byteAt b 5).toNat)) := by
  by_cases h : b.length < 6
  · simp [declaredTarget, h]
  · have hread : memRead b 4 2 = (byteAt b 4).toNat * 256 + (byteAt b 5).toNat := memRead_two (by omega)
    have hzero : (byteAt b 4).toNat * 256 + (byteAt b 5).toNat = 0 ↔ byteAt b 4 = 0 ∧ byteAt b 5 = 0 := by
      rw [← BitVec.toNat_inj, ← BitVec.toNat_inj]
      simp
    simp only [declaredTarget, hread, hzero, if_neg h, if_pos (Nat.le_of_not_lt h)]

/-- Settles O53: the target is read off the two bytes of the length field. -/
theorem targetFromLengthField : Obligations.TargetFromLengthField :=
  fun b => ⟨declaredTarget_psi b, declaredTarget_pes b⟩

/-- The length field is not there yet (R292). -/
theorem length_lt_of_declaredTarget_unknown {k : Kind} {b : Bytes} (h : declaredTarget k b = .unknown) :
    b.length < if k = .psi then 3 else 6 := by
  cases k with
  | psi =>
    rw [declaredTarget_psi] at h
    split at h
    · assumption
    · cases h
  | pes =>
    rw [declaredTarget_pes] at h
    split at h
    · assumption
    · split at h <;> cases h

/-- The largest length a length field can declare (R29). -/
theorem declaredTarget_bounded_le {k : Kind} {b : Bytes} {n : Nat} (h : declaredTarget k b = .bounded n) :
    n ≤ if k = .psi then 4098 else 65541 := by
  cases k with
  | psi =>
    have hlow := (byteAt b 2).isLt
    rw [declaredTarget_psi] at h
    split at h
    · cases h
    · cases h
      simp only [if_true]
      omega
  | pes =>
    have hhigh := (byteAt b 4).isLt
    have hlow := (byteAt b 5).isLt
    rw [declaredTarget_pes] at h
    split at h
    · cases h
    · split at h
      · cases h
      · cases h
        simp only [reduceCtorEq, if_false]
        omega

/-- Only a PES packet can be unbounded (R29). -/
theorem kind_of_declaredTarget_unbounded {k : Kind} {b : Bytes} (h : declaredTarget k b = .unbounded) : k = .pes := by
  cases k with
  | psi =>
    rw [declaredTarget_psi] at h
    split at h <;> cases h
  | pes => rfl

/-- A buffer that is not accumulating is short of every length field. -/
theorem declaredTarget_nil (k : Kind) : declaredTarget k [] = .unknown := by cases k <;> rfl

/-- In a good slot the target is the one its buffer declares, in every state: an empty buffer declares none (R27). -/
theorem Slot.wf.target_eq {p : Params} {sl : Slot} (h : sl.wf p) : sl.target = declaredTarget sl.kind sl.buf := by
  unfold Slot.wf at h
  split at h
  · exact h.1
  · obtain ⟨hbuf, htarget⟩ := h
    rw [hbuf, htarget, declaredTarget_nil]

/-- A good slot's buffer is short of its target (R292, R293). -/
theorem Slot.wf.withinTarget {p : Params} {sl : Slot} (h : sl.wf p) : sl.withinTarget p = true := by
  unfold Slot.wf at h
  split at h
  · exact h.2
  · obtain ⟨-, htarget⟩ := h
    rw [Slot.withinTarget, htarget]

/-- A good slot that is not Accumulating holds nothing (R27). -/
theorem Slot.wf.empty {p : Params} {sl : Slot} (h : sl.wf p) (hacc : sl.state ≠ .accumulating) :
    sl.buf = [] ∧ sl.target = .unknown := by rwa [Slot.wf, if_neg hacc] at h

end Sys2Proof.Machine
end

section
/-! The reassembly machine (45_depacketizer.md R284): which slot and queue a FEED or FINISH can leave. -/

namespace Sys2Proof.Machine

/-- `y` is what at most `n` deliveries can make of `x`: the slot has the same PID and kind, and the queue has grown at
its tail by units of that PID which the codec of that kind gave, never above QDEPTH (R291, R294). -/
structure Reassembly.Grows (p : Params) (n : Nat) (x y : Reassembly) : Prop where
  pid : y.slot.pid = x.slot.pid
  kind : y.slot.kind = x.slot.kind
  tail : ∃ l, y.queue = x.queue ++ l ∧ l.length ≤ n ∧
    ∀ u ∈ l, u.pid = x.slot.pid ∧ ∃ b, decodeUnit x.slot.kind b = .ok u.value
  room : x.queue.length ≤ p.qdepth → y.queue.length ≤ p.qdepth

namespace Reassembly

variable {p : Params} {n m : Nat} {x y z : Reassembly}

/-- A step that delivers nothing. -/
theorem Grows.of_eq (hp : y.slot.pid = x.slot.pid) (hk : y.slot.kind = x.slot.kind) (hq : y.queue = x.queue) :
    x.Grows p n y :=
  ⟨hp, hk, ⟨[], by simp [hq], Nat.zero_le n, nofun⟩, fun h => hq ▸ h⟩

theorem Grows.trans (hxy : x.Grows p n y) (hyz : y.Grows p m z) : x.Grows p (n + m) z := by
  obtain ⟨l, hl, hln, hlu⟩ := hxy.tail
  obtain ⟨k, hk, hkm, hku⟩ := hyz.tail
  rw [hxy.pid, hxy.kind] at hku
  refine ⟨hyz.pid.trans hxy.pid, hyz.kind.trans hxy.kind, ⟨l ++ k, ?_, ?_, ?_⟩, hyz.room ∘ hxy.room⟩
  · rw [hk, hl, List.append_assoc]
  · rw [List.length_append]
    omega
  · intro u hu
    exact (List.mem_append.mp hu).elim (hlu u) (hku u)

theorem Grows.mono (h : x.Grows p n y) (hnm : n ≤ m) : x.Grows p m y := by
  obtain ⟨l, hl, hln, hlu⟩ := h.tail
  exact ⟨h.pid, h.kind, ⟨l, hl, hln.trans hnm, hlu⟩, h.room⟩

theorem deliver_grows (p : Params) (u : Bytes) (x : Reassembly) : x.Grows p 1 (x.deliver p u) := by
  rcases x.deliver_queue p u with hq | ⟨v, hv, hroom, hq⟩
  · exact .of_eq (by simp) (by simp) hq
  · refine ⟨by simp, by simp, ⟨[⟨x.slot.pid, v⟩], hq, Nat.le_refl 1, ?_⟩, fun h => ?_⟩
    · intro w hw
      obtain rfl := List.mem_singleton.mp hw
      exact ⟨rfl, u, hv⟩
    · rw [hq, List.length_append, List.length_singleton]
      omega

theorem advance_grows (p : Params) (x : Reassembly) : x.Grows p 1 (x.advance p) := by
  rcases x.advance_cases p with ⟨-, h⟩ | ⟨-, -, h⟩ | ⟨k, -, -, h⟩
  · rw [h]
    exact .of_eq rfl rfl rfl
  · rw [h]
    exact .of_eq rfl rfl rfl
  · rw [h]
    have hidle : x.Grows p 0 x.toIdle := .of_eq rfl rfl rfl
    exact hidle.trans (x.toIdle.deliver_grows p (x.slot.buf.take k))

theorem progress_grows (p : Params) (x : Reassembly) : x.Grows p 1 (x.progress p) := by
  have htarget : x.Grows p 0 { x with slot := x.slot.withTarget } := .of_eq (by simp) (by simp) rfl
  exact htarget.trans (advance_grows p _)

theorem append_grows (p : Params) (d : Bytes) (x : Reassembly) : x.Grows p 1 (x.append p d) := by
  have hbuf : x.Grows p 0 { x with slot := { x.slot with buf := x.slot.buf ++ d } } := .of_eq rfl rfl rfl
  exact hbuf.trans (progress_grows p _)

/-- A started unit is accumulated in a slot that has only its PID and kind from before (R284). -/
theorem start_eq (p : Params) (d : Bytes) (x : Reassembly) :
    ∃ ev, x.start p d = progress p ⟨⟨x.slot.pid, x.slot.kind, .accumulating, d, .unknown⟩, x.queue, ev⟩ := by
  unfold start
  split
  · exact ⟨_, rfl⟩
  · exact ⟨_, rfl⟩

theorem start_grows (p : Params) (d : Bytes) (x : Reassembly) : x.Grows p 1 (x.start p d) := by
  obtain ⟨ev, h⟩ := x.start_eq p d
  have hfresh : x.Grows p 0 ⟨⟨x.slot.pid, x.slot.kind, .accumulating, d, .unknown⟩, x.queue, ev⟩ := .of_eq rfl rfl rfl
  rw [h]
  exact hfresh.trans (progress_grows p _)

theorem start_wf (p : Params) (d : Bytes) (x : Reassembly) : (x.start p d).slot.wf p := by
  obtain ⟨ev, h⟩ := x.start_eq p d
  rw [h]
  exact progress_wf p _ rfl (.inl rfl)

/-- Bytes after the length field leave the target as it is declared (R288), so `progress` applies. -/
theorem append_wf (d : Bytes) (hacc : x.slot.state = .accumulating) (h : x.slot.wf p) : (x.append p d).slot.wf p := by
  refine progress_wf p _ hacc ?_
  by_cases ht : x.slot.target = .unknown
  · exact .inl ht
  · rw [h.target_eq] at ht
    exact .inr (h.target_eq.trans (declaredTarget_append _ _ d ht).symm)

/-- Everything the payload stage of FEED can do (R284, R287, R290, R295): nothing, Ignored, PointerOverrun, a start, an
append, or an append of a pointer tail with a start behind it. -/
inductive PayloadStep (p : Params) (x : Reassembly) : Reassembly → Prop
  | kept : PayloadStep p x x
  | ignored : PayloadStep p x (x.emit evIgnored)
  | overrun : PayloadStep p x (x.emit evDroppedPointerOverrun).drop
  | started (d : Bytes) : PayloadStep p x (x.start p d)
  | appended (d : Bytes) (hacc : x.slot.state = .accumulating) : PayloadStep p x (x.append p d)
  | tailed (a d : Bytes) (hacc : x.slot.state = .accumulating) : PayloadStep p x ((x.append p a).start p d)

theorem startPsi_step (p : Params) (pay : Bytes) (x : Reassembly) : PayloadStep p x (x.startPsi p pay) := by
  unfold startPsi
  split
  · exact .overrun
  · split
    · exact .overrun
    · split
      · rename_i hacc
        exact .tailed _ _ hacc
      · exact .started _

theorem startUnit_step (p : Params) (pay : Bytes) (x : Reassembly) : PayloadStep p x (x.startUnit p pay) := by
  unfold startUnit
  split
  · exact startPsi_step p pay x
  · exact .started pay

theorem continueUnit_step (p : Params) (pay : Bytes) (x : Reassembly) : PayloadStep p x (x.continueUnit p pay) := by
  unfold continueUnit
  split
  · rename_i hacc
    exact .appended pay hacc
  · exact .ignored

theorem takePayload_step (p : Params) (pkt : TsPacket) (x : Reassembly) : PayloadStep p x (x.takePayload p pkt) := by
  unfold takePayload
  split
  · exact .kept
  · split
    · exact startUnit_step p _ x
    · exact continueUnit_step p _ x

/-- The payload of one packet completes at most two units: a pointer tail and the one it starts (R287). -/
theorem PayloadStep.grows (h : PayloadStep p x y) : x.Grows p 2 y := by
  cases h with
  | kept => exact .of_eq rfl rfl rfl
  | ignored => exact .of_eq rfl rfl rfl
  | overrun => exact .of_eq rfl rfl rfl
  | started d => exact (x.start_grows p d).mono (by decide)
  | appended d => exact (x.append_grows p d).mono (by decide)
  | tailed a d => exact (x.append_grows p a).trans (start_grows p d _)

theorem PayloadStep.wf (h : PayloadStep p x y) (hx : x.slot.wf p) : y.slot.wf p := by
  cases h with
  | kept => exact hx
  | ignored => exact hx
  | overrun => exact Slot.emptied_wf p x.slot .discarding (by decide)
  | started d => exact x.start_wf p d
  | appended d hacc => exact append_wf d hacc hx
  | tailed a d => exact start_wf p d _

/-- Losing the unit in progress only empties the slot (R286). -/
theorem lose_slot (x : Reassembly) : x.lose.slot = x.slot.emptied .discarding := by
  unfold lose
  split <;> rfl

theorem lose_queue (x : Reassembly) : x.lose.queue = x.queue := by
  unfold lose
  split <;> rfl

theorem run_grows (p : Params) (pkt : TsPacket) (v : Verdict) (x : Reassembly) : x.Grows p 2 (x.run p pkt v) := by
  cases v with
  | continuous => exact (x.takePayload_step p pkt).grows
  | discontinuous =>
    have hlose : x.Grows p 0 x.lose := .of_eq (by simp [lose_slot]) (by simp [lose_slot]) x.lose_queue
    exact hlose.trans (x.lose.takePayload_step p pkt).grows
  | duplicate => exact .of_eq rfl rfl rfl

theorem run_wf (pkt : TsPacket) (v : Verdict) (hx : x.slot.wf p) : (x.run p pkt v).slot.wf p := by
  cases v with
  | continuous => exact (x.takePayload_step p pkt).wf hx
  | discontinuous =>
    refine (x.lose.takePayload_step p pkt).wf ?_
    rw [lose_slot]
    exact Slot.emptied_wf p x.slot .discarding (by decide)
  | duplicate => exact hx

theorem finish_grows (p : Params) (x : Reassembly) : x.Grows p 1 (x.finish p) := by
  have hidle : ∀ y : Reassembly, y.Grows p 0 y.toIdle := fun y => .of_eq rfl rfl rfl
  unfold finish
  split
  · split
    · exact ((hidle x).trans (x.toIdle.deliver_grows p x.slot.buf)).trans (hidle _)
    · exact .of_eq rfl rfl rfl
  · exact .of_eq rfl rfl rfl

/-- FINISH always ends in Idle (R296). -/
theorem finish_wf (p : Params) (x : Reassembly) : (x.finish p).slot.wf p := Slot.emptied_wf p _ .idle (by decide)

end Reassembly

end Sys2Proof.Machine
end

section
/-! What the section and PES codecs give is of its type (10_state.md R31, R37). -/

namespace Sys2Proof.Machine

/-- A descriptor loop holds descriptors of at most 255 bytes (R35). -/
theorem DescriptorLoop.wellTyped {ds : List Descriptor} {x : Bytes} (h : DescriptorLoop ds x) :
    ds.all Descriptor.wellTyped = true := by
  obtain ⟨hlen, -⟩ := h
  exact List.all_eq_true.mpr fun d hd => decide_eq_true (Nat.le_of_lt_succ (hlen d hd))

/-- A PMT that parses is well typed: its loops are descriptor loops (42_psi.md R198, R199). -/
theorem parsePmt_wellTyped {x : Bytes} {pcrPid : Pid} {info : List Descriptor} {streams : List PmtStream}
    (h : parsePmt x = .ok (pcrPid, info, streams)) (n : BitVec 16) (c : SectionCommon) :
    (Section.pmt n c pcrPid info streams).wellTyped = true := by
  obtain ⟨head, rows, -, ⟨_, _, _, _, _, -, -, -, hinfo⟩, hrows, rfl⟩ := (parsePmt_ok_iff x pcrPid info streams).mp h
  have hstreams : (rows.map Prod.fst).all (fun st => st.esInfo.all Descriptor.wellTyped) = true := by
    refine List.all_eq_true.mpr fun st hst => ?_
    obtain ⟨e, he, rfl⟩ := List.mem_map.mp hst
    obtain ⟨_, _, _, _, _, -, -, -, hloop⟩ := hrows e he
    exact DescriptorLoop.wellTyped hloop
  rw [Section.wellTyped, DescriptorLoop.wellTyped hinfo, hstreams]
  rfl

/-- The table dispatch gives an Other only for a table_id that is neither PAT's nor PMT's (42_psi.md R196). -/
theorem dispatchTable_inType {s data : Bytes} {v : Section} (h : dispatchTable s data = .ok v) : v.inType = true := by
  unfold dispatchTable at h
  split at h
  · split at h
    · cases h
    · cases h
      rfl
  · rename_i hpat
    split at h
    · split at h
      · cases h
      · rename_i hpmt
        cases h
        simp [Section.inType, parsePmt_wellTyped hpmt]
    · rename_i hpmt
      cases h
      simp only [Section.inType, Section.wellTyped, Bool.true_and, Bool.and_eq_true, bne_iff_ne]
      exact ⟨hpat, hpmt⟩

/-- A section that decodes passed the header checks and the CRC gate, and is what the table dispatch gave (R193). -/
theorem decodeSection_dispatch {x : Bytes} {v : Section} (h : decodeSection x = .ok v) :
    ∃ data, dispatchTable x data = .ok v := by
  simp only [decodeSection] at h
  split at h
  · cases h
  split at h
  · cases h
  split at h
  · cases h
  split at h
  · cases h
  split at h
  · cases h
  split at h
  · cases h
  exact ⟨_, h⟩

/-- What a PSI slot's codec gives is a section (R31). -/
theorem decodeUnit_psi {u : Bytes} {v : UnitValue} (h : decodeUnit .psi u = .ok v) :
    ∃ s, decodeSection u = .ok s ∧ v = .sec s := by
  cases hd : decodeSection u with
  | error e => simp [decodeUnit, hd, Except.map] at h
  | ok s => exact ⟨s, rfl, by simpa [decodeUnit, hd, Except.map] using h.symm⟩

/-- What a PES slot's codec gives is a PES packet (R31). -/
theorem decodeUnit_pes {u : Bytes} {v : UnitValue} (h : decodeUnit .pes u = .ok v) :
    ∃ q, decodePes u = .ok q ∧ v = .pes q := by
  cases hd : decodePes u with
  | error e => simp [decodeUnit, hd, Except.map] at h
  | ok q => exact ⟨q, rfl, by simpa [decodeUnit, hd, Except.map] using h.symm⟩

/-- The codec of a slot's kind gives a value of that kind (10_state.md R31). -/
theorem decodeUnit_kind {k : Kind} {b : Bytes} {v : UnitValue} (h : decodeUnit k b = .ok v) :
    if k = .psi then ∃ x, v = .sec x else ∃ x, v = .pes x := by
  cases k with
  | psi => exact (decodeUnit_psi h).imp fun _ hx => hx.2
  | pes => exact (decodeUnit_pes h).imp fun _ hx => hx.2

/-- A delivered unit is of its type. -/
theorem decodeUnit_inType {k : Kind} {b : Bytes} {c : CompletedUnit} (h : decodeUnit k b = .ok c.value) :
    c.inType = true := by
  unfold CompletedUnit.inType
  cases k with
  | psi =>
    obtain ⟨v, hd, hv⟩ := decodeUnit_psi h
    obtain ⟨data, hdata⟩ := decodeSection_dispatch hd
    rw [hv]
    exact dispatchTable_inType hdata
  | pes =>
    obtain ⟨q, -, hv⟩ := decodeUnit_pes h
    rw [hv]

end Sys2Proof.Machine
end

section
/-! The invariant of the block (10_state.md R20, R25 to R31): each operation on the state keeps it, so every way of
writing does. -/

namespace Sys2Proof.Machine

variable {s t : State}

/-- A slot of a good state is good (R27). -/
theorem State.Inv.slot_wf (h : s.Inv) {pid : Pid} {sl : Slot} (hs : s.slot pid = some sl) : sl.wf s.params := by
  obtain ⟨-, -, -, -, -, -, hgood, -, -⟩ := h
  simpa [entryWf] using hgood (some sl) (s.slot_some pid sl hs).1

theorem State.Inv.clear (h : s.Inv) : s.clear.Inv := by
  obtain ⟨hlegal, -⟩ := h
  exact State.resetWith_inv hlegal

theorem State.Inv.writeW (h : s.Inv) (pid : Pid) (c : Counter) : (s.writeW pid c).Inv := by
  obtain ⟨hlegal, hW, hzero, hrest⟩ := h
  exact ⟨hlegal, s.writeW_wf pid c hW, s.writeW_noZero pid c hzero, hrest⟩

theorem State.Inv.writeR (h : s.Inv) (pid : Pid) (r : Option Counter) : (s.writeR pid r).Inv := by
  obtain ⟨hlegal, hW, hzero, hR, hrest⟩ := h
  exact ⟨hlegal, hW, hzero, s.writeR_wf pid r hR, hrest⟩

/-- PIDs are apart in a good state (R28). -/
theorem State.Inv.apart (h : s.Inv) : s.S.Pairwise (fun a b => slotsApart a b = true) := by
  obtain ⟨-, -, -, -, -, hapart, -⟩ := h
  exact hapart

/-- The queue of a good state (R30, R31). -/
theorem State.Inv.queue (h : s.Inv) : s.Q.length ≤ s.params.qdepth ∧ ∀ c ∈ s.Q, c.inType = true := by
  obtain ⟨-, -, -, -, -, -, -, hQ⟩ := h
  exact hQ

/-- One good entry more or in the place of another, with the PIDs still apart. -/
theorem State.Inv.replaceEntry (h : s.Inv) {S' : List (Option Slot)} {v : Option Slot}
    (hS : S'.length = s.S.length ∧ S'.Pairwise (fun a b => slotsApart a b = true) ∧ ∀ o ∈ S', o ∈ s.S ∨ o = v)
    (hv : entryWf s.params v = true) : ({ s with S := S' } : State).Inv := by
  obtain ⟨hlegal, hW, hzero, hR, hlen, -, hgood, hQ⟩ := h
  obtain ⟨hlen', hapart', hmem⟩ := hS
  refine ⟨hlegal, hW, hzero, hR, hlen'.trans hlen, hapart', fun o ho => ?_, hQ⟩
  rcases hmem o ho with hold | rfl
  · exact hgood o hold
  · exact hv

theorem State.Inv.putSlot (h : s.Inv) {pid : Pid} {sl : Slot} {v : Option Slot} (hs : s.slot pid = some sl)
    (hpid : ∀ w ∈ v, w.pid = pid) (hv : entryWf s.params v = true) : (s.putSlot pid v).Inv :=
  h.replaceEntry (s.putSlot_keeps pid sl v hs hpid h.apart) hv

theorem State.Inv.fillFree (h : s.Inv) {v : Slot} (hfree : s.hasFree = true) (hs : s.slot v.pid = none)
    (hv : entryWf s.params (some v) = true) : (s.fillFree v).Inv :=
  h.replaceEntry (s.fillFree_keeps v hfree hs h.apart) hv

theorem State.Inv.putQ (h : s.Inv) {q : List CompletedUnit} (hlen : q.length ≤ s.params.qdepth)
    (htype : ∀ c ∈ q, c.inType = true) : (s.putQ q).Inv := by
  obtain ⟨hlegal, hW, hzero, hR, hslots, hapart, hgood, -, -⟩ := h
  exact ⟨hlegal, hW, hzero, hR, hslots, hapart, hgood, hlen, htype⟩

/-- A fresh slot is Idle and empty (45_depacketizer.md R281). -/
theorem freshSlot_entryWf (p : Params) (pid : Pid) (kind : Kind) : entryWf p (some (freshSlot pid kind)) = true :=
  decide_eq_true (Slot.emptied_wf p (freshSlot pid kind) .idle (by decide))

/-- What the reassembly machine leaves of a good state's slot and queue is written back. -/
theorem State.Inv.reassembled (h : s.Inv) {pid : Pid} {sl : Slot} (hs : s.slot pid = some sl) {n : Nat}
    {y : Reassembly} (hy : Reassembly.Grows s.params n ⟨sl, s.Q, []⟩ y) (hwf : y.slot.wf s.params) :
    ((s.putSlot pid (some y.slot)).putQ y.queue).Inv := by
  have hpid : y.slot.pid = pid := hy.pid.trans (s.slot_some pid sl hs).2
  have hslot : (s.putSlot pid (some y.slot)).Inv := h.putSlot hs (by simpa using hpid) (decide_eq_true hwf)
  obtain ⟨hlen, htype⟩ := h.queue
  refine hslot.putQ (hy.room hlen) fun c hc => ?_
  obtain ⟨l, hl, -, hunits⟩ := hy.tail
  rw [hl] at hc
  rcases List.mem_append.mp hc with hold | hnew
  · exact htype c hold
  · obtain ⟨-, b, hb⟩ := hunits c hnew
    exact decodeUnit_inType hb

/-- Every way of writing keeps the invariant. -/
theorem Effect.inv {i : Instr} {u : State} (he : Effect i s u) (h : s.Inv) : u.Inv := by
  cases he with
  | kept => exact h
  | cleared => exact h.clear
  | stamped pid c => exact h.writeW pid c
  | cut kind pid c => exact h.writeW pid c
  | validated cc di hb pid r => exact h.writeR pid r
  | @reopened _ kind pid sl hs =>
    exact (h.putSlot hs (by simp [freshSlot]) (freshSlot_entryWf _ pid kind)).writeR pid none
  | @opened _ kind pid hs hfree =>
    exact (h.fillFree hfree hs (freshSlot_entryWf _ pid kind)).writeR pid none
  | @closed _ pid sl hs => exact (h.putSlot hs (by simp) rfl).writeR pid none
  | @fed _ b p sl v r hb hp hs =>
    exact (h.writeR p.pid r).reassembled (by simpa using hs) (Reassembly.run_grows s.params p v ⟨sl, s.Q, []⟩)
      (Reassembly.run_wf p v (h.slot_wf hs))
  | @finished _ pid sl hs =>
    exact h.reassembled hs (Reassembly.finish_grows s.params ⟨sl, s.Q, []⟩) (Reassembly.finish_wf s.params _)
  | @taken _ c rest hq =>
    obtain ⟨hlen, htype⟩ := h.queue
    rw [hq] at hlen htype
    exact h.putQ (Nat.le_of_succ_le hlen) fun d hd => htype d (List.mem_cons_of_mem c hd)

theorem exec_inv {i : Instr} (h : s.Inv) (he : exec i s = .next t) : t.Inv := by
  obtain ⟨u, r, heffect, rfl⟩ := exec_written he
  exact heffect.inv h

end Sys2Proof.Machine
end

section
/-! The claims about the reset state, about what every step keeps, and about what a FEED can write. -/

namespace Sys2Proof.Machine

/-- Settles O6: the tables and the queue are empty, and every slot has valid = 0. -/
theorem resetStateValues : Obligations.ResetStateValues :=
  ⟨fun _ => ⟨fun _ => ⟨rfl, rfl⟩, List.length_replicate, fun _ ho => List.eq_of_mem_replicate ho, rfl⟩, rfl⟩

/-- Settles O8: the steps that are no commands keep the state or reset it, and every command writes it in a way that
keeps the invariant. -/
theorem stepKeepsInvariant : Obligations.StepKeepsInvariant := by
  intro s t h hstep
  rcases step_cases hstep with rfl | rfl | ⟨w, rfl⟩ | ⟨i, hi⟩
  · exact h
  · exact h.clear
  · exact h
  · exact exec_inv h hi

/-- Settles O57: the slot afterwards is a good one (O8), and the target its length field declares has these bounds. -/
theorem buffersAreBounded : Obligations.BuffersAreBounded := by
  intro s t pid sl h hstep hs
  have hwf : sl.wf t.params := (stepKeepsInvariant s t h hstep).slot_wf hs
  have htarget := hwf.target_eq
  have hwithin := hwf.withinTarget
  refine ⟨hwf.empty, fun hu => ?_, fun n hn => ?_, fun hu => ?_⟩
  · exact length_lt_of_declaredTarget_unknown (htarget.symm.trans hu)
  · exact ⟨by simpa [Slot.withinTarget, hn] using hwithin, declaredTarget_bounded_le (htarget.symm.trans hn)⟩
  · exact ⟨kind_of_declaredTarget_unbounded (htarget.symm.trans hu), by simpa [Slot.withinTarget, hu] using hwithin⟩

/-- Settles O55: FEED writes back what the machine of the packet's slot leaves, and that machine delivers at most two
units. -/
theorem feedWritesOnlyItsPid : Obligations.FeedWritesOnlyItsPid := by
  intro s t b p hb hp hfeed
  obtain ⟨u, resp, he, rfl⟩ := exec_written hfeed
  cases he with
  | kept => exact ⟨fun q _ => ⟨rfl, rfl⟩, rfl, [], by simp, by simp, nofun⟩
  | @fed _ b' p' sl v r hb' hp' hs =>
    obtain rfl : b = b' := Operand.bytes.inj (hb.symm.trans hb')
    obtain rfl : p = p' := Except.ok.inj (hp.symm.trans hp')
    have hgrows := Reassembly.run_grows s.params p v ⟨sl, s.Q, []⟩
    have hpid : (Reassembly.run s.params p v ⟨sl, s.Q, []⟩).slot.pid = p.pid :=
      hgrows.pid.trans (s.slot_some p.pid sl hs).2
    obtain ⟨l, hl, hlen, hunits⟩ := hgrows.tail
    refine ⟨fun q hq => ⟨?_, ?_⟩, by simp, l, by simpa using hl, hlen, fun c hc => ?_⟩
    · simp [State.readR_writeR_other _ _ _ _ hq]
    · rw [State.answer_slot, State.putQ_slot,
        State.slot_putSlot_other (s.writeR p.pid r) p.pid q sl _ (by simpa using hs) hq (by simpa using hpid),
        State.writeR_slot]
    · obtain ⟨hcpid, x, hx⟩ := hunits c hc
      exact ⟨hcpid.trans (s.slot_some p.pid sl hs).2, sl, hs, decodeUnit_kind hx⟩

end Sys2Proof.Machine
end

section
/-! The decoder against the encoder: the words read as a command are the one word assembled for it (30_encoding.md R83,
R85, R86), so each command's word is a number. -/

namespace Sys2Proof

/-- The word of a command decodes to it (R85). -/
theorem decode_encode (i : Instr) : decode (encode i) = .ok i := by
  cases i with
  | split k _ | openPid k _ => simp [decode, encode, wordFields_assemble, decodeFields, flagPidWord, kindOfBit_bitOfKind]
  | _ => simp [decode, encode, wordFields_assemble, decodeFields, plainWord, pidWord, flagPidWord]

theorem encode_of_plainWord {f : WordFields} {op : Byte} {i j : Instr} (hop : f.op = op)
    (hi : encode i = assemble op 0 0 0 0) (h : plainWord f i = .ok j) :
    encode j = assemble f.op f.ccv f.di f.flag f.pid := by
  obtain ⟨hccv, hdi, hflag, hpid, rfl⟩ := plainWord_ok h
  rw [hi, hop, hccv, hdi, hflag, hpid]

theorem encode_of_pidWord {f : WordFields} {op : Byte} {i : Pid → Instr} {j : Instr} (hop : f.op = op)
    (hi : ∀ pid, encode (i pid) = assemble op 0 0 0 pid) (h : pidWord f i = .ok j) :
    encode j = assemble f.op f.ccv f.di f.flag f.pid := by
  obtain ⟨hccv, hdi, hflag, rfl⟩ := pidWord_ok h
  rw [hi, hop, hccv, hdi, hflag]

theorem encode_of_flagPidWord {f : WordFields} {op : Byte} {i : Bit → Pid → Instr} {j : Instr} (hop : f.op = op)
    (hi : ∀ flag pid, encode (i flag pid) = assemble op 0 0 flag pid) (h : flagPidWord f i = .ok j) :
    encode j = assemble f.op f.ccv f.di f.flag f.pid := by
  obtain ⟨hccv, hdi, rfl⟩ := flagPidWord_ok h
  rw [hi, hop, hccv, hdi]

/-- An `if` that gives `r` gives it in one of its branches. -/
theorem of_ite_eq {α : Type} {c p : Prop} [Decidable c] {x y r : α} (h : (if c then x else y) = r)
    (hx : c → x = r → p) (hy : y = r → p) : p := by
  split at h
  · exact hx ‹_› h
  · exact hy h

/-- Fields that decode have their reserved bits 0 (R86). -/
theorem reserved_of_decodeFields_ok {f : WordFields} {i : Instr} (h : decodeFields f = .ok i) :
    f.rsv1 = 0 ∧ f.rsv0 = 0 := by
  by_contra hrsv
  rw [decodeFields, if_pos (not_and_or.mp hrsv)] at h
  cases h

/-- Fields that decode are those of the command's word, opcode by opcode in the order of R83. -/
theorem encode_of_decodeFields_ok {f : WordFields} {i : Instr} (h : decodeFields f = .ok i) :
    encode i = assemble f.op f.ccv f.di f.flag f.pid := by
  unfold decodeFields at h
  refine of_ite_eq h (fun _ h => nomatch h) fun h => ?_
  refine of_ite_eq h (fun hop h => encode_of_plainWord hop rfl h) fun h => ?_
  refine of_ite_eq h (fun hop h => encode_of_plainWord hop rfl h) fun h => ?_
  refine of_ite_eq h (fun hop h => encode_of_plainWord hop rfl h) fun h => ?_
  refine of_ite_eq h (fun hop h => encode_of_plainWord hop rfl h) fun h => ?_
  refine of_ite_eq h (fun hop h => encode_of_flagPidWord hop (fun _ _ => rfl) h) fun h => ?_
  refine of_ite_eq h (fun hop h => by cases h; rw [encode, hop]) fun h => ?_
  refine of_ite_eq h (fun hop h => encode_of_plainWord hop rfl h) fun h => ?_
  refine of_ite_eq h (fun hop h => encode_of_plainWord hop rfl h) fun h => ?_
  refine of_ite_eq h (fun hop h => encode_of_plainWord hop rfl h) fun h => ?_
  refine of_ite_eq h (fun hop h => encode_of_plainWord hop rfl h) fun h => ?_
  refine of_ite_eq h (fun hop h => encode_of_plainWord hop rfl h) fun h => ?_
  refine of_ite_eq h (fun hop h => encode_of_flagPidWord hop (fun _ _ => by rw [encode, bitOfKind_kindOfBit]) h) fun h => ?_
  refine of_ite_eq h (fun hop h => encode_of_flagPidWord hop (fun _ _ => by rw [encode, bitOfKind_kindOfBit]) h) fun h => ?_
  refine of_ite_eq h (fun hop h => encode_of_pidWord hop (fun _ => rfl) h) fun h => ?_
  refine of_ite_eq h (fun hop h => encode_of_plainWord hop rfl h) fun h => ?_
  refine of_ite_eq h (fun hop h => encode_of_pidWord hop (fun _ => rfl) h) fun h => ?_
  refine of_ite_eq h (fun hop h => encode_of_plainWord hop rfl h) fun h => ?_
  refine of_ite_eq h (fun hop h => encode_of_pidWord hop (fun _ => rfl) h) fun h => ?_
  cases h

/-- A word is read as a command exactly when it is the command's word. -/
theorem decode_eq_ok_iff (w : CommandWord) (i : Instr) : decode w = .ok i ↔ encode i = w := by
  constructor
  · intro h
    obtain ⟨hrsv1, hrsv0⟩ := reserved_of_decodeFields_ok h
    rw [encode_of_decodeFields_ok h, assemble_wordFields w hrsv1 hrsv0]
  · rintro rfl
    exact decode_encode i

namespace Machine

/-- The number of a command's word, for the claims that give it. -/
theorem wordIs_of_encode_toNat {i : Instr} {n : Nat} (h : (encode i).toNat = n) : WordIs i n := by
  intro w
  rw [decode_eq_ok_iff, ← h, ← BitVec.toNat_inj, eq_comm]

end Machine
end Sys2Proof
end

section
/-! Every command answers a next state on its typed IN operand and is refused on any other (46_control.md R334; log 9). -/

namespace Sys2Proof.Machine

/-! Each typed form accepts exactly the operands R61 gives its commands. -/

theorem State.inPacket188_isSome (s : State) : s.inPacket188.isSome = operandTyped .feed s.operand := by
  unfold State.inPacket188
  cases s.operand with
  | bytes b => cases h : isPacket188 b <;> simp [operandTyped, h]
  | _ => rfl

theorem State.inBytes_isSome (s : State) : s.inBytes.isSome = operandTyped .crc32 s.operand := by
  unfold State.inBytes
  cases s.operand <;> rfl

theorem State.inTsPacket_isSome (s : State) : s.inTsPacket.isSome = operandTyped .encodePacket s.operand := by
  unfold State.inTsPacket
  cases s.operand with
  | tsPacket p => cases h : p.wellTyped <;> simp [operandTyped, h]
  | _ => rfl

theorem State.inSection_isSome (s : State) : s.inSection.isSome = operandTyped .encodeSection s.operand := by
  unfold State.inSection
  cases s.operand with
  | sec v => cases h : v.wellTyped <;> simp [operandTyped, h]
  | _ => rfl

theorem State.inPes_isSome (s : State) : s.inPes.isSome = operandTyped .encodePes s.operand := by
  unfold State.inPes
  cases s.operand <;> rfl

/-- A command with an IN operand whose meaning answers every typed value is answered or refused by the type alone. -/
theorem withOperand_answers_of_typed {α : Type} {o : Option α} {k : α → Host.Outcome State Fault Refusal}
    {typed : Bool} (htyped : o.isSome = typed) (hk : ∀ v, ∃ t, k v = .next t) :
    if typed = true then ∃ t, withOperand o k = .next t else withOperand o k = .refused .illTypedOperand := by
  subst htyped
  cases o with
  | none => rfl
  | some v => exact hk v

/-- A command that ends in `return v` from the state it was issued in answers only. -/
theorem answersOnly_of_complete {i : Instr} {s : State} {out : Output} (h : exec i s = complete s out) :
    AnswersOnly i s (okResponse out []) :=
  ⟨_, h, ⟨rfl, rfl, rfl, rfl, rfl⟩, rfl, rfl⟩

/-! The meanings that branch: each branch completes or raises. -/

theorem execCcNext_answers (h : Bit) (pid : Pid) (s : State) : ∃ t, execCcNext h pid s = .next t := by
  unfold execCcNext
  split <;> exact ⟨_, rfl⟩

theorem execOpen_answers (kind : Kind) (pid : Pid) (s : State) : ∃ t, execOpen kind pid s = .next t := by
  unfold execOpen
  split
  · exact ⟨_, rfl⟩
  · split <;> exact ⟨_, rfl⟩

theorem execClose_answers (pid : Pid) (s : State) : ∃ t, execClose pid s = .next t := by
  unfold execClose
  split <;> exact ⟨_, rfl⟩

/-- FEED of 188 bytes: the packet is raised or fed (45_depacketizer.md R284). -/
theorem execFeed_answers_of_typed (s : State) :
    if operandTyped .feed s.operand = true then ∃ t, execFeed s = .next t
    else execFeed s = .refused .illTypedOperand := by
  refine withOperand_answers_of_typed s.inPacket188_isSome fun b => ?_
  cases decodePacket b <;> exact ⟨_, rfl⟩

theorem execFinish_answers (pid : Pid) (s : State) : ∃ t, execFinish pid s = .next t := by
  unfold execFinish
  split <;> exact ⟨_, rfl⟩

theorem execTakeCompleted_answers (s : State) : ∃ t, execTakeCompleted s = .next t := by
  unfold execTakeCompleted
  split <;> exact ⟨_, rfl⟩

theorem execSlotState_answers (pid : Pid) (s : State) : ∃ t, execSlotState pid s = .next t := by
  unfold execSlotState
  split <;> exact ⟨_, rfl⟩

/-- Settles O11: a command without an IN operand answers in each of its branches, and the others test the operand
once, by its type. -/
theorem typedOperandsAreAnswered : Obligations.TypedOperandsAreAnswered := by
  intro i s
  cases i with
  | nop => exact ⟨_, rfl⟩
  | reset => exact ⟨_, rfl⟩
  | decodePacket => exact withOperand_answers_of_typed s.inPacket188_isSome fun _ => ⟨_, rfl⟩
  | encodePacket => exact withOperand_answers_of_typed s.inTsPacket_isSome fun _ => ⟨_, rfl⟩
  | ccNext h pid => exact execCcNext_answers h pid s
  | ccValidate => exact ⟨_, rfl⟩
  | crc32 => exact withOperand_answers_of_typed s.inBytes_isSome fun _ => ⟨_, rfl⟩
  | decodeSection => exact withOperand_answers_of_typed s.inBytes_isSome fun _ => ⟨_, rfl⟩
  | encodeSection => exact withOperand_answers_of_typed s.inSection_isSome fun _ => ⟨_, rfl⟩
  | decodePes => exact withOperand_answers_of_typed s.inBytes_isSome fun _ => ⟨_, rfl⟩
  | encodePes => exact withOperand_answers_of_typed s.inPes_isSome fun _ => ⟨_, rfl⟩
  | split => exact withOperand_answers_of_typed s.inBytes_isSome fun _ => ⟨_, rfl⟩
  | openPid kind pid => exact execOpen_answers kind pid s
  | closePid pid => exact execClose_answers pid s
  | feed => exact execFeed_answers_of_typed s
  | finish pid => exact execFinish_answers pid s
  | takeCompleted => exact execTakeCompleted_answers s
  | slotState pid => exact execSlotState_answers pid s

end Sys2Proof.Machine
end

section
/-! CRC32 against the bit-serial register (42_psi.md R190): adding message bits to the register ahead of the shifts is
the same as taking each in as its shift comes. -/

namespace Sys2Proof.Machine

/-- One shift of a register with the message `y` added takes in the top bit of `y` and leaves the rest added. -/
theorem crcShift_xor (c y : BitVec 32) : crcShift (c ^^^ y) = crcBit c y.msb ^^^ y <<< 1 := by
  unfold crcShift crcBit
  rw [BitVec.msb_xor, BitVec.shiftLeft_xor_distrib]
  split
  · rw [BitVec.xor_assoc, BitVec.xor_comm (y <<< 1), BitVec.xor_assoc]
  · rfl

/-- `n` shifts of a register with `y` added take in the `n` top bits of `y`, the most significant first. -/
theorem crcShifts_xor (n : Nat) (c y : BitVec 32) :
    crcShifts n (c ^^^ y) = ((List.range n).map y.getMsbD).foldl crcBit c ^^^ y <<< n := by
  induction n generalizing c y with
  | zero => simp [crcShifts]
  | succ n ih =>
    have htail : (List.range n).map (y <<< 1).getMsbD = ((List.range n).map Nat.succ).map y.getMsbD := by
      rw [List.map_map]
      exact List.map_congr_left fun i _ => BitVec.getMsbD_shiftLeft y 1
    rw [crcShifts, crcShift_xor, ih, htail, ← BitVec.shiftLeft_add, Nat.add_comm 1 n, List.range_succ_eq_map,
      List.map_cons, List.foldl_cons, BitVec.msb_eq_getMsbD_zero]

/-- The top bits of a byte put at the top of the register are its bits, bit 7 first (20_memory.md R64). -/
theorem map_getMsbD_byte (x : Byte) :
    (List.range 8).map (x.setWidth 32 <<< 24).getMsbD = bitsMsbFirst x := by
  simp [bitsMsbFirst, List.range_succ, BitVec.getMsbD]

/-- A byte into the register is its eight bits into the register. -/
theorem crcByte_eq_foldl (c : BitVec 32) (x : Byte) : crcByte c x = (bitsMsbFirst x).foldl crcBit c := by
  rw [crcByte, crcShifts_xor, map_getMsbD_byte, ← BitVec.shiftLeft_add,
    BitVec.shiftLeft_eq_zero (Nat.le_refl 32), BitVec.xor_zero]

/-- The checker is the bit-serial register run over the message bits. -/
theorem crc32_eq_foldl (x : Bytes) : crc32 x = (x.flatMap bitsMsbFirst).foldl crcBit 0xFFFFFFFF := by
  rw [crc32, List.foldl_flatMap, funext₂ crcByte_eq_foldl]

theorem exec_crc32 {s : State} {x : Bytes} (h : s.operand = .bytes x) :
    exec .crc32 s = complete s (.crc (crc32 x)) := by
  rw [exec, execCrc32, s.inBytes_eq x h, withOperand_some]

/-- Settles O24: each byte goes into the register as its eight bits do, most significant first. -/
theorem crcIsBitSerialRemainder : Obligations.CrcIsBitSerialRemainder := by
  refine ⟨wordIs_of_encode_toNat rfl, fun s x h => ?_⟩
  rw [← crc32_eq_foldl]
  exact answersOnly_of_complete (exec_crc32 h)

end Sys2Proof.Machine
end

section
/-! The claims about the command word (30_encoding.md R80, R83, R85, R86). -/

namespace Sys2Proof

/-- Settles O5: a word that decodes has its reserved bits 0 and is assembled from its fields, and every command's word
decodes to it. -/
theorem decodeAndEncodeAgree : Obligations.DecodeAndEncodeAgree := decode_eq_ok_iff

/-- Settles O4: each legal word is the word of its command, and the two illegal ones are computed. -/
theorem sampleWordsDecode : Obligations.SampleWordsDecode :=
  ⟨decode_encode .nop, decode_encode (.ccNext 1 0x100), decode_encode (.ccValidate 5 0 1 0x21),
    decode_encode (.split .psi 0), decode_encode (.openPid .psi 0x100), decode_encode (.closePid 0x44),
    decode_encode .feed, decode_encode (.slotState 0x1FFF), rfl, rfl⟩

end Sys2Proof
end

section
/-! Bit fields and slices of bytes laid out in order (00_scope.md R10 to R12): what the codecs read, as numbers and as
parts. -/

namespace Sys2Proof.Machine

theorem bits_toNat {n : Nat} (v : BitVec n) (lo w : Nat) : (bits v lo w).toNat = v.toNat / 2 ^ lo % 2 ^ w := by
  simp [bits, Nat.shiftRight_eq_div_pow]

theorem bits_toNat_top {n lo w : Nat} (v : BitVec n) (h : n ≤ lo + w) : (bits v lo w).toNat = v.toNat / 2 ^ lo := by
  rw [bits_toNat, Nat.mod_eq_of_lt]
  refine Nat.div_lt_of_lt_mul ?_
  rw [← Nat.pow_add]
  exact v.isLt.trans_le (Nat.pow_le_pow_right Nat.two_pos h)

theorem bits_toNat_low {n : Nat} (v : BitVec n) (w : Nat) : (bits v 0 w).toNat = v.toNat % 2 ^ w := by
  rw [bits_toNat, Nat.pow_zero, Nat.div_one]

theorem bits_eq_iff {n lo w : Nat} (v : BitVec n) (c : BitVec w) :
    bits v lo w = c ↔ v.toNat / 2 ^ lo % 2 ^ w = c.toNat := by
  rw [← BitVec.toNat_inj, bits_toNat]

theorem field_two_toNat {b : Bytes} {i : Nat} (w : Nat) (h : i + 2 ≤ b.length) :
    (field b i 2 0 w).toNat = ((byteAt b i).toNat * 256 + (byteAt b (i + 1)).toNat) % 2 ^ w := by
  rw [field, memRead_two h, Nat.shiftRight_zero, BitVec.toNat_ofNat]

theorem slice_append_append {a b c : Bytes} {i j : Nat} (hi : i = a.length) (hj : j = a.length + b.length) :
    slice (a ++ b ++ c) i j = b := by
  subst hi hj
  simp [slice]

theorem slice_eq_drop {b : Bytes} {i j : Nat} (h : b.length ≤ j) : slice b i j = b.drop i := by
  rw [slice, List.take_of_length_le]
  rw [List.length_drop]
  omega

theorem byteAt_slice (b : Bytes) {i j k : Nat} (h : k < j - i) : byteAt (slice b i j) k = byteAt b (i + k) := by
  simp [byteAt, slice, h]

/-- The four bytes of a 32-bit value spell it (20_memory.md R64). -/
theorem beNat_be32 (v : BitVec 32) : beNat (be32 v) = v.toNat := by
  have hv := v.isLt
  simp only [be32, beNat, List.foldl_cons, List.foldl_nil, bits_toNat]
  omega

/-- A command answered with `r` from the state it was issued in answers only. -/
theorem answersOnly_of_next {i : Instr} {s : State} {r : Response} (h : exec i s = .next (s.answer r)) :
    AnswersOnly i s r :=
  ⟨_, h, ⟨rfl, rfl, rfl, rfl, rfl⟩, rfl, rfl⟩

theorem decodePacket_answersOnly {s : State} {b : Bytes} (h : s.operand = .bytes b) (hb : b.length = 188) :
    AnswersOnly .decodePacket s (resultResponse .tsPacket (decodePacket b)) :=
  answersOnly_of_next (by rw [exec, execDecodePacket, s.inPacket188_eq b h hb, withOperand_some])

theorem decodeSection_answersOnly {s : State} {x : Bytes} (h : s.operand = .bytes x) :
    AnswersOnly .decodeSection s (resultResponse .sec (decodeSection x)) :=
  answersOnly_of_next (by rw [exec, execDecodeSection, s.inBytes_eq x h, withOperand_some])

theorem decodePes_answersOnly {s : State} {e : Bytes} (h : s.operand = .bytes e) :
    AnswersOnly .decodePes s (resultResponse .pes (decodePes e)) :=
  answersOnly_of_next (by rw [exec, execDecodePes, s.inBytes_eq e h, withOperand_some])

end Sys2Proof.Machine
end

section
/-! DECODE_PACKET on packets laid out as 30_encoding.md R90 to R96 say, and the adaptation field body as numbers
(40_ts_packet.md R147). -/

namespace Sys2Proof.Machine

/-- The header bits of a packet value at their places (30_encoding.md R90). -/
theorem packetOf_header (b1 b2 b3 : Byte) (rest : Bytes) (af : AdaptationField) (pos : Nat) :
    let p := packetOf (0x47 :: b1 :: b2 :: b3 :: rest) af pos
    p.tei.toNat = b1.toNat / 128 ∧ p.pusi.toNat = b1.toNat / 64 % 2 ∧ p.tp.toNat = b1.toNat / 32 % 2 ∧
      p.pid.toNat = b1.toNat % 32 * 256 + b2.toNat ∧ p.tsc.toNat = b3.toNat / 64 ∧ p.cc.toNat = b3.toNat % 16 := by
  have hpid : (field (0x47 :: b1 :: b2 :: b3 :: rest) 1 2 0 13).toNat = (b1.toNat * 256 + b2.toNat) % 2 ^ 13 :=
    field_two_toNat 13 (by simp)
  have hb2 := b2.isLt
  exact ⟨bits_toNat_top b1 (by decide), bits_toNat b1 6 1, bits_toNat b1 5 1, by rw [packetOf, hpid]; omega,
    bits_toNat_top b3 (by decide), bits_toNat_low b3 4⟩

/-- The payload is there where bit 4 of the last header byte is 1 (30_encoding.md R91, R92). -/
theorem packetOf_payload (b : Bytes) (af : AdaptationField) (pos : Nat) :
    (packetOf b af pos).payload = if (byteAt b 3).toNat / 16 % 2 = 1 then some (slice b pos 188) else none := by
  simp [packetOf, bits_eq_iff]

/-- adaptation_field_control 01: the payload starts behind the header (30_encoding.md R91). -/
theorem decodePacket_payloadOnly (b1 b2 b3 : Byte) (pay : Bytes) (hafc : b3.toNat / 16 % 4 = 1) :
    decodePacket (0x47 :: b1 :: b2 :: b3 :: pay) =
      .ok (packetOf (0x47 :: b1 :: b2 :: b3 :: pay) AdaptationField.empty 4) := by
  have hb3 : byteAt (0x47 :: b1 :: b2 :: b3 :: pay) 3 = b3 := rfl
  have hvalid : bits b3 4 2 ≠ 0 := by rw [ne_eq, bits_eq_iff]; exact ne_of_eq_of_ne hafc (by decide)
  have hnofield : bits b3 5 1 ≠ 1 := by rw [ne_eq, bits_eq_iff]; simp; omega
  rw [decodePacket, hb3, if_neg (by simp [byteAt]), if_neg hvalid, if_neg hnofield]

/-- adaptation_field_control 10 or 11: the adaptation field fills the bytes its length byte counts, and the payload
starts behind it (30_encoding.md R92, 40_ts_packet.md R142). -/
theorem decodePacket_adaptationField {b1 b2 b3 l : Byte} {field pay : Bytes} {af : AdaptationField}
    (hafc : 2 ≤ b3.toNat / 16 % 4) (hl : l.toNat = field.length) (hfit : l.toNat ≤ 183)
    (haf : decodeAf l field = .ok af) :
    decodePacket (0x47 :: b1 :: b2 :: b3 :: l :: (field ++ pay)) =
      .ok (packetOf (0x47 :: b1 :: b2 :: b3 :: l :: (field ++ pay)) af (5 + l.toNat)) := by
  have hb3 : byteAt (0x47 :: b1 :: b2 :: b3 :: l :: (field ++ pay)) 3 = b3 := rfl
  have hb4 : byteAt (0x47 :: b1 :: b2 :: b3 :: l :: (field ++ pay)) 4 = l := rfl
  have hvalid : bits b3 4 2 ≠ 0 := by rw [ne_eq, bits_eq_iff]; simp; omega
  have hfield : bits b3 5 1 = 1 := by rw [bits_eq_iff]; simp; omega
  have hbody : slice (0x47 :: b1 :: b2 :: b3 :: l :: (field ++ pay)) 5 (5 + l.toNat) = field :=
    slice_append_append (a := [0x47, b1, b2, b3, l]) (b := field) rfl (by rw [hl]; rfl)
  rw [decodePacket, hb3, hb4, hbody, haf, if_neg (by simp [byteAt]), if_neg hvalid, if_pos hfield, if_neg (by omega)]

/-- Settles O16: the header bits, and the payload behind them. -/
theorem payloadOnlyPacketDecodes : Obligations.PayloadOnlyPacketDecodes := by
  intro s b1 b2 b3 pay hs hpay hafc
  have hlen : (0x47 :: b1 :: b2 :: b3 :: pay : Bytes).length = 188 := by simp [hpay]
  have hans := decodePacket_answersOnly hs hlen
  rw [decodePacket_payloadOnly b1 b2 b3 pay hafc] at hans
  obtain ⟨htei, hpusi, htp, hpid, htsc, hcc⟩ := packetOf_header b1 b2 b3 pay AdaptationField.empty 4
  refine ⟨_, hans, htei, hpusi, htp, hpid, htsc, hcc, rfl, ?_⟩
  rw [packetOf_payload, slice_eq_drop (Nat.le_of_eq hlen)]
  exact if_pos (show b3.toNat / 16 % 2 = 1 by omega)

/-- Settles O17: the field is empty or decodes by `decodeAf_whole`; the header bits and the payload stand around it. -/
theorem adaptationFieldDecodes : Obligations.AdaptationFieldDecodes := by
  intro s b1 b2 b3 l af field pay hs hfield hl hfit hafc
  have hlen : (0x47 :: b1 :: b2 :: b3 :: l :: (field ++ pay) : Bytes).length = 188 := by simp; omega
  have haf : decodeAf l field = .ok af := by
    rcases hfield with ⟨rfl, rfl⟩ | ⟨r, r', f, x, stuffing, rfl, hx⟩
    · rfl
    · exact decodeAf_whole l stuffing hx
  have hans := decodePacket_answersOnly hs hlen
  rw [decodePacket_adaptationField hafc hl (by omega) haf] at hans
  obtain ⟨htei, hpusi, htp, hpid, htsc, hcc⟩ := packetOf_header b1 b2 b3 (l :: (field ++ pay)) af (5 + l.toNat)
  refine ⟨_, hans, htei, hpusi, htp, hpid, htsc, hcc, rfl, ?_⟩
  have hpay : (0x47 :: b1 :: b2 :: b3 :: l :: (field ++ pay) : Bytes).drop (5 + l.toNat) = pay := by
    simp [hl, Nat.add_comm 5]
  have hflag : b3.toNat / 16 % 2 = 1 ↔ b3.toNat / 16 % 4 = 3 := by omega
  rw [packetOf_payload, slice_eq_drop (Nat.le_of_eq hlen), hpay, ← if_congr hflag rfl rfl]
  rfl

/-! The adaptation field body (40_ts_packet.md R147). -/

/-- The flags byte: three flags, then one bit for each optional field, on where the field is there (R93). -/
theorem afFlags_toNat (af : AdaptationField) :
    (afFlags af).toNat = af.di.toNat * 128 + af.rai.toNat * 64 + af.espi.toNat * 32 +
      (if af.pcr.isSome then 16 else 0) + (if af.opcr.isSome then 8 else 0) +
      (if af.spliceCountdown.isSome then 4 else 0) + (if af.privateData.isSome then 2 else 0) +
      (if af.extension.isSome then 1 else 0) := by
  simp only [afFlags, toNat_append_eq, flag_eq]
  omega

/-- The bytes written for a PCR or OPCR, the reserved bits ones (R95). -/
theorem clockBytes_pcrBytes (v : Option Pcr) : ClockBytes 63 v ((v.map pcrBytes).getD []) := by
  cases v with
  | none => rfl
  | some c =>
    refine ⟨_, _, _, _, _, _, rfl, ?_⟩
    have hbase := c.base.isLt
    have hext := c.ext.isLt
    simp only [toNat_append_eq, bits_toNat]
    omega

/-- The bytes written for private_data or an extension, of at most 255 bytes (R94). -/
theorem countedBytes_countedBytes {v : Option Bytes} (h : (v.all fun d => decide (d.length ≤ 255)) = true) :
    CountedBytes v ((v.map countedBytes).getD []) := by
  cases v with
  | none => rfl
  | some d =>
    have hlen : d.length ≤ 255 := by simpa using h
    exact ⟨_, rfl, by rw [BitVec.toNat_ofNat]; omega⟩

/-- Settles O19: each part of the body is laid out by its own lemma. -/
theorem adaptationFieldBytes : Obligations.AdaptationFieldBytes := by
  intro af hwt
  split
  · rename_i hempty
    rw [hempty, afContent_empty]
  · rename_i hne
    obtain ⟨hpriv, hext⟩ := Bool.and_eq_true_iff.mp hwt
    exact ⟨_, _, if_neg hne, afFlags_toNat af, _, _, _, _, rfl, clockBytes_pcrBytes af.pcr,
      clockBytes_pcrBytes af.opcr, countedBytes_countedBytes hpriv, countedBytes_countedBytes hext⟩

end Sys2Proof.Machine
end

section
/-! DECODE_SECTION on sections laid out as 30_encoding.md R98 says and closed by their CRC: the header checks and the
CRC gate pass (42_psi.md R191, R192), and the table data decides (R196 to R199). -/

namespace Sys2Proof.Machine

theorem byteAt_append_left {a b : Bytes} {i : Nat} (h : i < a.length) : byteAt (a ++ b) i = byteAt a i := by
  simp [byteAt, List.getElem?_append_left h]

/-- A section of eight header bytes, its table data and a good CRC, with any bytes behind it, reaches the table
dispatch with exactly its table data (R192, R193, R195). -/
theorem decodeSection_withCrc {head data trailing : Bytes} (hhead : head.length = 8)
    (hsyntax : 128 ≤ (byteAt head 1).toNat)
    (hlength : (byteAt head 1).toNat % 16 * 256 + (byteAt head 2).toNat = 9 + data.length)
    (hmax : data.length ≤ 1012) :
    decodeSection (withCrc (head ++ data) ++ trailing) = dispatchTable (withCrc (head ++ data) ++ trailing) data := by
  have hbyte : ∀ i < 8, byteAt (withCrc (head ++ data) ++ trailing) i = byteAt head i := by
    intro i hi
    rw [withCrc, List.append_assoc, List.append_assoc, byteAt_append_left (by omega)]
  have hx : (withCrc (head ++ data) ++ trailing).length = 12 + data.length + trailing.length := by
    simp [withCrc, hhead]
    omega
  have hend : 3 + (9 + data.length) - 4 = head.length + data.length := by omega
  have hsl : sectionLength (withCrc (head ++ data) ++ trailing) = 9 + data.length := by
    have hlow := (byteAt head 2).isLt
    rw [sectionLength, field_two_toNat 12 (by omega), hbyte 1 (by decide), hbyte 2 (by decide), ← hlength]
    omega
  have hbody : slice (withCrc (head ++ data) ++ trailing) 0 (head.length + data.length) = head ++ data := by
    rw [withCrc, List.append_assoc]
    exact slice_append_append (a := []) rfl (by simp)
  have hdata : slice (withCrc (head ++ data) ++ trailing) 8 (head.length + data.length) = data := by
    rw [withCrc, List.append_assoc]
    exact slice_append_append hhead.symm rfl
  have hcrc : storedCrc (withCrc (head ++ data) ++ trailing) (9 + data.length) = crc32 (head ++ data) := by
    have hfour : slice (withCrc (head ++ data) ++ trailing) (head.length + data.length)
        (head.length + data.length + 4) = be32 (crc32 (head ++ data)) :=
      slice_append_append (by simp) (by simp)
    rw [storedCrc, hend, field, memRead, hfour, beNat_be32, Nat.shiftRight_zero, BitVec.ofNat_toNat,
      BitVec.setWidth_eq]
  have hsyntax' : bits (byteAt head 1) 7 1 ≠ 0 := by
    rw [ne_eq, ← BitVec.toNat_inj, bits_toNat_top _ (by decide)]
    simp
    omega
  simp only [decodeSection, hsl, hbyte 1 (by decide), hend, hbody, hdata, hcrc]
  rw [if_neg (by omega), if_neg hsyntax', if_neg (by omega), if_neg (by omega), if_neg (by omega), if_neg (by simp)]

/-- DECODE_SECTION answers such a section as the table dispatch does. -/
theorem dispatch_answersOnly {s : State} {head data trailing : Bytes}
    (hs : s.operand = .bytes (withCrc (head ++ data) ++ trailing)) (hhead : head.length = 8)
    (hsyntax : 128 ≤ (byteAt head 1).toNat)
    (hlength : (byteAt head 1).toNat % 16 * 256 + (byteAt head 2).toNat = 9 + data.length)
    (hmax : data.length ≤ 1012) :
    AnswersOnly .decodeSection s
      (resultResponse .sec (dispatchTable (withCrc (head ++ data) ++ trailing) data)) := by
  rw [← decodeSection_withCrc hhead hsyntax hlength hmax]
  exact decodeSection_answersOnly hs

/-- The long-form header fields at their bits (R98). -/
theorem sectionHeader_fields (tid b1 b2 e1 e2 b5 sn lsn : Byte) (rest : Bytes) :
    let s := tid :: b1 :: b2 :: e1 :: e2 :: b5 :: sn :: lsn :: rest
    (field s 3 2 0 16).toNat = e1.toNat * 256 + e2.toNat ∧ (commonOf s).version.toNat = b5.toNat / 2 % 32 ∧
      (commonOf s).currentNext.toNat = b5.toNat % 2 ∧ (commonOf s).sectionNumber = sn ∧
      (commonOf s).lastSectionNumber = lsn := by
  have hext : (field (tid :: b1 :: b2 :: e1 :: e2 :: b5 :: sn :: lsn :: rest) 3 2 0 16).toNat =
      (e1.toNat * 256 + e2.toNat) % 2 ^ 16 := field_two_toNat 16 (by simp)
  have he1 := e1.isLt
  have he2 := e2.isLt
  exact ⟨by rw [hext]; omega, bits_toNat b5 1 5, bits_toNat_low b5 1, rfl, rfl⟩

/-! The table dispatch by table_id (R196). -/

theorem dispatchTable_other {s data : Bytes} (hpat : byteAt s 0 ≠ 0x00) (hpmt : byteAt s 0 ≠ 0x02) :
    dispatchTable s data =
      .ok (.other (byteAt s 0) (bits (byteAt s 1) 6 1) (field s 3 2 0 16) (commonOf s) data) := by
  rw [dispatchTable, if_neg hpat, if_neg hpmt]

theorem dispatchTable_pat {s data : Bytes} (htid : byteAt s 0 = 0x00) :
    dispatchTable s data = (parsePat data).map fun programs => .pat (field s 3 2 0 16) (commonOf s) programs := by
  rw [dispatchTable, if_pos htid]
  cases parsePat data <;> rfl

theorem dispatchTable_pmt {s data : Bytes} (htid : byteAt s 0 = 0x02) :
    dispatchTable s data = (parsePmt data).map fun t => .pmt (field s 3 2 0 16) (commonOf s) t.1 t.2.1 t.2.2 := by
  rw [dispatchTable, if_neg (by rw [htid]; decide), if_pos htid]
  cases parsePmt data <;> rfl

/-- Settles O26: the section reaches the dispatch with its data, and the header fields stand at their bits. -/
theorem otherSectionDecodes : Obligations.OtherSectionDecodes := by
  intro s tid b1 b2 e1 e2 b5 sn lsn data trailing hs hsyntax hlength hmax hpat hpmt
  have hans := dispatch_answersOnly (head := [tid, b1, b2, e1, e2, b5, sn, lsn]) hs rfl hsyntax hlength hmax
  rw [dispatchTable_other ?pat ?pmt] at hans
  case pat => exact hpat
  case pmt => exact hpmt
  exact ⟨_, _, _, hans, bits_toNat b1 6 1, sectionHeader_fields tid b1 b2 e1 e2 b5 sn lsn _⟩

/-! PAT table data (R197). -/

/-- The four bytes of a PAT entry with the reserved bits anything (30_encoding.md R100). -/
def patRow (e : BitVec 3 × PatEntry) : Bytes :=
  [bits e.2.programNumber 8 8, bits e.2.programNumber 0 8, e.1 ++ bits e.2.pid 8 5, bits e.2.pid 0 8]

theorem field_programNumber (n : BitVec 16) : field [bits n 8 8, bits n 0 8] 0 2 0 16 = n := by
  have hn := n.isLt
  rw [← BitVec.toNat_inj, field_two_toNat 16 (by simp)]
  simp only [byteAt, List.getD_cons_zero, List.getD_cons_succ, bits_toNat]
  omega

theorem field_reservedPid (r : BitVec 3) (pid : Pid) : field [r ++ bits pid 8 5, bits pid 0 8] 0 2 0 13 = pid := by
  have hpid := pid.isLt
  rw [← BitVec.toNat_inj, field_two_toNat 13 (by simp)]
  simp only [byteAt, List.getD_cons_zero, List.getD_cons_succ, bits_toNat, toNat_append_eq]
  omega

/-- `parse_pat` reads whole entries in encounter order, and one to three bytes too many are MalformedTable. -/
theorem parsePat_rows (rows : List (BitVec 3 × PatEntry)) {more : Bytes} (hmore : more.length < 4) :
    parsePat (rows.flatMap patRow ++ more) =
      if more = [] then .ok (rows.map Prod.snd) else .error .malformedTable := by
  induction rows with
  | nil =>
    match more, hmore with
    | [], _ | [_], _ | [_, _], _ | [_, _, _], _ => rfl
  | cons e rows ih =>
    simp only [List.flatMap_cons, patRow, List.cons_append, List.nil_append, parsePat, field_programNumber,
      field_reservedPid]
    rw [ih]
    by_cases hnil : more = []
    · rw [if_pos hnil, if_pos hnil]
      rfl
    · rw [if_neg hnil, if_neg hnil]

/-- Settles O27: the table data is whole entries with `more` behind them. -/
theorem patSectionDecodes : Obligations.PatSectionDecodes := by
  intro s b1 b2 e1 e2 b5 sn lsn rows more trailing data hs hsyntax hlength hmax hmore
  have hans := dispatch_answersOnly (head := [0x00, b1, b2, e1, e2, b5, sn, lsn]) (data := data) hs rfl hsyntax hlength
    hmax
  have hrows : parsePat data = _ := parsePat_rows rows hmore
  rw [dispatchTable_pat rfl, hrows] at hans
  split
  · rename_i hnil
    rw [if_pos hnil] at hans
    exact ⟨_, _, hans, sectionHeader_fields 0x00 b1 b2 e1 e2 b5 sn lsn _⟩
  · rename_i hmalformed
    rwa [if_neg hmalformed] at hans

/-! PMT table data (R198, R199): the one error its parsers raise is MalformedTable. -/

theorem parseDescFuel_error {n : Nat} {x : Bytes} {e : ErrorStatus} (h : parseDescFuel n x = .error e) :
    e = .malformedTable := by
  induction n generalizing x with
  | zero => cases x <;> simp_all [parseDescFuel]
  | succ n ih =>
    match x with
    | [] => cases h
    | [_] => cases h; rfl
    | tag :: k :: rest =>
      rw [parseDescFuel] at h
      split at h
      · cases h; rfl
      · cases hrest : parseDescFuel n (rest.drop k.toNat) with
        | error e' => rw [hrest] at h; cases h; exact ih hrest
        | ok ds => rw [hrest] at h; cases h

theorem parseStreamsFuel_error {n : Nat} {x : Bytes} {e : ErrorStatus} (h : parseStreamsFuel n x = .error e) :
    e = .malformedTable := by
  induction n generalizing x with
  | zero => cases x <;> simp_all [parseStreamsFuel]
  | succ n ih =>
    cases x with
    | nil => cases h
    | cons a x =>
      simp only [parseStreamsFuel] at h
      split at h
      · cases h; rfl
      · split at h
        · cases h; rfl
        · split at h
          · rename_i hdesc
            cases h
            exact parseDescFuel_error hdesc
          · split at h
            · rename_i hrest
              cases h
              exact ih hrest
            · cases h

theorem parsePmt_error {x : Bytes} {e : ErrorStatus} (h : parsePmt x = .error e) : e = .malformedTable := by
  simp only [parsePmt] at h
  split at h
  · cases h; rfl
  · split at h
    · cases h; rfl
    · split at h
      · rename_i hdesc
        cases h
        exact parseDescFuel_error hdesc
      · split at h
        · rename_i hstreams
          cases h
          exact parseStreamsFuel_error hstreams
        · cases h

/-- Bytes that are no PMT table data are MalformedTable. -/
theorem parsePmt_malformed {x : Bytes} (h : ¬ ∃ pcrPid info streams, PmtTableData pcrPid info streams x) :
    parsePmt x = .error .malformedTable := by
  cases hx : parsePmt x with
  | error e => rw [parsePmt_error hx]
  | ok t => exact absurd ⟨t.1, t.2.1, t.2.2, (parsePmt_ok_iff x _ _ _).mp hx⟩ h

/-- PMT table data holds its four header bytes and the program_info they announce (30_encoding.md R101). -/
theorem PmtTableData.programInfo_within {pcrPid : Pid} {info : List Descriptor} {streams : List PmtStream} {x : Bytes}
    (h : PmtTableData pcrPid info streams x) :
    4 + ((byteAt x 2).toNat % 16 * 256 + (byteAt x 3).toNat) ≤ x.length := by
  obtain ⟨head, rows, rfl, ⟨a1, a0, l1, l0, y, rfl, -, hlen, -⟩, -, -⟩ := h
  have h2 : byteAt ((a1 :: a0 :: l1 :: l0 :: y) ++ rows.flatMap fun e => e.1.streamType :: e.2) 2 = l1 := rfl
  have h3 : byteAt ((a1 :: a0 :: l1 :: l0 :: y) ++ rows.flatMap fun e => e.1.streamType :: e.2) 3 = l0 := rfl
  rw [h2, h3, hlen]
  simp
  omega

/-- Settles O28: `parsePmt_ok_iff` decides which table data decodes, and an overrun is no table data. -/
theorem pmtHeaderOverrun : Obligations.PmtHeaderOverrun := by
  intro s b1 b2 e1 e2 b5 sn lsn data trailing hs hsyntax hlength hmax
  have hans := dispatch_answersOnly (head := [0x02, b1, b2, e1, e2, b5, sn, lsn]) hs rfl hsyntax hlength hmax
  rw [dispatchTable_pmt rfl] at hans
  have hmalformed : (¬ ∃ pcrPid info streams, PmtTableData pcrPid info streams data) →
      AnswersOnly .decodeSection s ⟨0x12, .none, []⟩ := by
    intro hno
    rwa [parsePmt_malformed hno] at hans
  refine ⟨fun pcrPid info streams htable => ?_, fun hover => hmalformed ?_, hmalformed⟩
  · rw [(parsePmt_ok_iff data pcrPid info streams).mpr htable] at hans
    exact ⟨_, _, hans, sectionHeader_fields 0x02 b1 b2 e1 e2 b5 sn lsn _⟩
  · rintro ⟨pcrPid, info, streams, htable⟩
    have := htable.programInfo_within
    omega

end Sys2Proof.Machine
end

section
/-! The packet checks of DECODE_PES (43_pes.md R232 to R234) as numbers, and the answer of a codec's check. -/

namespace Sys2Proof.Machine

/-- A check of a codec, as its command's answer: what follows from the answer in each branch. -/
theorem ite_of_answersOnly {α : Type} {i : Instr} {s : State} {out : α → Output} {c P Q : Prop} [Decidable c]
    {x y : Except ErrorStatus α} (h : AnswersOnly i s (resultResponse out (if c then x else y)))
    (hx : c → AnswersOnly i s (resultResponse out x) → P) (hy : ¬ c → AnswersOnly i s (resultResponse out y) → Q) :
    if c then P else Q := by
  by_cases hc : c
  · rw [if_pos hc] at h ⊢
    exact hx hc h
  · rw [if_neg hc] at h ⊢
    exact hy hc h

theorem slice_three {b : Bytes} (h : 3 ≤ b.length) : slice b 0 3 = [byteAt b 0, byteAt b 1, byteAt b 2] := by
  match b with
  | [] | [_] | [_, _] => simp at h
  | _ :: _ :: _ :: _ => rfl

/-- `decode_pes` with its start code byte by byte and its PES_packet_length `l` as a number (30_encoding.md R104). -/
theorem decodePes_eq {e : Bytes} {l : Nat} (hl : (byteAt e 4).toNat * 256 + (byteAt e 5).toNat = l) :
    decodePes e =
      if e.length < 6 then .error (.incompletePayload 6 e.length)
      else if byteAt e 0 ≠ 0 ∨ byteAt e 1 ≠ 0 ∨ byteAt e 2 ≠ 1 ∨ (byteAt e 3).toNat < 0xBC then
        .error (.invalidStartCode (byteAt e 3))
      else if l ≠ 0 ∧ e.length < 6 + l then .error (.incompletePayload (6 + l) e.length)
      else decodePesClass (byteAt e 3) (if l = 0 then 1 else 0) ((if l = 0 then e else e.take (6 + l)).drop 6) := by
  rw [decodePes]
  by_cases hlen : e.length < 6
  · rw [if_pos hlen, if_pos hlen]
  have hread : memRead e 4 2 = l := (memRead_two (by omega)).trans hl
  have hcode : (slice e 0 3 ≠ [0x00, 0x00, 0x01] ∨ (byteAt e 3).toNat < 0xBC) ↔
      (byteAt e 0 ≠ 0 ∨ byteAt e 1 ≠ 0 ∨ byteAt e 2 ≠ 1 ∨ (byteAt e 3).toNat < 0xBC) := by
    rw [slice_three (by omega)]
    simp only [ne_eq, List.cons.injEq, and_true, not_and_or, or_assoc]
  rw [if_neg hlen, if_neg hlen, if_congr hcode rfl rfl, hread]
  by_cases hzero : l = 0
  · simp [hzero]
  · simp [hzero, slice, List.drop_take]

theorem hasOptHeader_iff (sid : Byte) :
    hasOptHeader sid = true ↔ sid ∉ ([0xBC, 0xBE, 0xBF, 0xF0, 0xF1, 0xF2, 0xF8, 0xFF] : Bytes) := by
  simp [hasOptHeader]

/-- Settles O32: the checks stand in `decodePes_eq`, and the stream id class is the list's. -/
theorem pesChecksInOrder : Obligations.PesChecksInOrder := by
  intro s e hs
  have hans := decodePes_answersOnly hs
  rw [decodePes_eq rfl] at hans
  refine ite_of_answersOnly hans (fun _ hans => hans) fun _ hans => ?_
  refine ite_of_answersOnly hans (fun _ hans => hans) fun _ hans => ?_
  refine ite_of_answersOnly hans (fun _ hans => hans) fun _ hans => ?_
  split
  · rename_i hmem
    have hclass : ¬ hasOptHeader (byteAt e 3) = true := by
      rw [hasOptHeader_iff]
      exact not_not_intro hmem
    rwa [decodePesClass, if_neg hclass] at hans
  · exact ⟨_, hans⟩

/-- The length field `l1`, `l0` counts the body, or it is 0 and nothing stands behind the body (R233, R234). -/
abbrev LengthFieldFits (l1 l0 : Byte) (body trailing : Bytes) : Prop :=
  (l1.toNat * 256 + l0.toNat = body.length ∧ 0 < body.length) ∨ (l1 = 0 ∧ l0 = 0 ∧ trailing = [])

/-- A packet with a good start code and a length field that fits: the body goes to its stream id class. -/
theorem decodePes_framed {sid l1 l0 : Byte} {body trailing : Bytes} (hsid : 0xBC ≤ sid.toNat)
    (hlength : LengthFieldFits l1 l0 body trailing) :
    decodePes (0x00 :: 0x00 :: 0x01 :: sid :: l1 :: l0 :: (body ++ trailing)) =
      decodePesClass sid (if l1 = 0 ∧ l0 = 0 then 1 else 0) body := by
  have hcode : ¬ ((0 : Byte) ≠ 0 ∨ (0 : Byte) ≠ 0 ∨ (1 : Byte) ≠ 1 ∨ sid.toNat < 0xBC) := by simpa using hsid
  rcases hlength with ⟨hlength, hpos⟩ | ⟨rfl, rfl, rfl⟩
  · have hne : ¬ (l1 = 0 ∧ l0 = 0) := by
      rintro ⟨rfl, rfl⟩
      exact hpos.ne hlength
    rw [decodePes_eq (e := _ :: _ :: _ :: _ :: l1 :: l0 :: _) hlength]
    simp only [byteAt, List.getD_cons_zero, List.getD_cons_succ]
    rw [if_neg (by simp), if_neg hcode, if_neg (by simp; omega), if_neg hne, if_neg (by omega), if_neg (by omega),
      Nat.add_comm 6]
    simp
  · have hzero : (0 : Byte).toNat * 256 + (0 : Byte).toNat = 0 := rfl
    rw [decodePes_eq (e := _ :: _ :: _ :: _ :: 0 :: 0 :: _) hzero]
    simp only [byteAt, List.getD_cons_zero, List.getD_cons_succ]
    rw [if_neg (by simp), if_neg hcode, List.append_nil]
    rfl

end Sys2Proof.Machine
end

section
/-! The five bytes of a timestamp (43_pes.md R231, 30_encoding.md R107), written and read. -/

namespace Sys2Proof

open Machine in
/-- Settles O34: each byte joins its bit fields. -/
theorem timestampBytes : Obligations.TimestampBytes := by
  intro pfx v
  have hv := v.isLt
  have hmarker : (1 : BitVec 1).toNat = 1 := rfl
  refine ⟨_, _, _, _, _, rfl, ?_, bits_toNat v 22 8, ?_, bits_toNat v 7 8, ?_⟩
  · rw [toNat_append_eq, toNat_append_eq, bits_toNat_top v (by decide), hmarker]
    omega
  · rw [toNat_append_eq, bits_toNat, hmarker, Nat.pow_one]
  · rw [toNat_append_eq, bits_toNat_low, hmarker, Nat.pow_one]

namespace Machine

/-- `ts_parse` gives back the value `ts_bytes` wrote. -/
theorem tsParse_tsBytes (pfx : BitVec 4) (v : BitVec 33) : tsParse (tsBytes pfx v) pfx = .ok v := by
  obtain ⟨t0, t1, t2, t3, t4, ht, h0, h1, h2, h3, h4⟩ := Sys2Proof.timestampBytes pfx v
  have hv := v.isLt
  have hpfx := pfx.isLt
  have hmarker : (1 : BitVec 1).toNat = 1 := rfl
  rw [ht, tsParse, if_neg]
  · congr 1
    simp only [← BitVec.toNat_inj, byteAt, List.getD_cons_zero, List.getD_cons_succ, toNat_append_eq, bits_toNat]
    omega
  · simp only [byteAt, List.getD_cons_zero, List.getD_cons_succ, ne_eq, bits_eq_iff, hmarker]
    omega

/-- The timestamp field of a body at byte `i` has a wrong first nibble or a marker bit 0 (R231). -/
abbrev TimestampWrong (body : Bytes) (i pfx : Nat) : Prop :=
  (byteAt body i).toNat / 16 ≠ pfx ∨ (byteAt body i).toNat % 2 = 0 ∨ (byteAt body (i + 2)).toNat % 2 = 0 ∨
    (byteAt body (i + 4)).toNat % 2 = 0

/-- The test of `ts_parse` on the five bytes at `i`, as numbers. -/
theorem timestampWrong_iff (body : Bytes) (i : Nat) (pfx : BitVec 4) :
    (bits (byteAt (slice body i (i + 5)) 0) 4 4 ≠ pfx ∨ bits (byteAt (slice body i (i + 5)) 0) 0 1 ≠ 1 ∨
      bits (byteAt (slice body i (i + 5)) 2) 0 1 ≠ 1 ∨ bits (byteAt (slice body i (i + 5)) 4) 0 1 ≠ 1) ↔
    TimestampWrong body i pfx.toNat := by
  have hbyte : ∀ k < 5, byteAt (slice body i (i + 5)) k = byteAt body (i + k) :=
    fun k hk => byteAt_slice body (by omega)
  have hmarker : (1 : BitVec 1).toNat = 1 := rfl
  have hfirst := (byteAt body i).isLt
  rw [hbyte 0 (by decide), hbyte 2 (by decide), hbyte 4 (by decide), Nat.add_zero]
  simp only [ne_eq, bits_eq_iff, hmarker]
  omega

theorem tsParse_slice_wrong {body : Bytes} {i : Nat} {pfx : BitVec 4} (h : TimestampWrong body i pfx.toNat) :
    tsParse (slice body i (i + 5)) pfx = .error .invalidTimestampMarker := by
  rw [tsParse, if_pos ((timestampWrong_iff body i pfx).mpr h)]

theorem tsParse_slice_good {body : Bytes} {i : Nat} {pfx : BitVec 4} (h : ¬ TimestampWrong body i pfx.toNat) :
    ∃ v, tsParse (slice body i (i + 5)) pfx = .ok v := by
  rw [tsParse, if_neg (mt (timestampWrong_iff body i pfx).mp h)]
  exact ⟨_, rfl⟩

end Machine
end Sys2Proof
end

section
/-! The header checks of DECODE_PES (43_pes.md R232, R235): the timestamps by PTS_DTS_flags, then the body. -/

namespace Sys2Proof.Machine

/-- PTS_DTS_flags 10: the PTS alone. -/
theorem parseTimestamps_pts (body : Bytes) :
    parseTimestamps 2 body = (tsParse (slice body 3 8) 2).map fun pts => (some pts, none) := by
  rw [parseTimestamps, if_pos rfl]
  cases tsParse (slice body 3 8) 2 <;> rfl

/-- PTS_DTS_flags 11: the PTS, then the DTS. -/
theorem parseTimestamps_both (body : Bytes) :
    parseTimestamps 3 body = (tsParse (slice body 3 8) 3).bind fun pts =>
      (tsParse (slice body 8 13) 1).map fun dts => (some pts, some dts) := by
  rw [parseTimestamps, if_neg (by decide), if_pos rfl]
  cases tsParse (slice body 3 8) 3
  · rfl
  · cases tsParse (slice body 8 13) 1 <;> rfl

theorem ptsDtsFlags_cases (f : BitVec 2) : f = 0 ∨ f = 1 ∨ f = 2 ∨ f = 3 := by
  revert f
  decide

theorem parseTimestamps_pts_wrong {f : BitVec 2} {body : Bytes} (h0 : f.toNat ≠ 0) (h1 : f.toNat ≠ 1)
    (hpts : TimestampWrong body 3 f.toNat) : parseTimestamps f body = .error .invalidTimestampMarker := by
  obtain rfl | rfl | rfl | rfl := ptsDtsFlags_cases f
  · exact absurd rfl h0
  · exact absurd rfl h1
  · rw [parseTimestamps_pts, show tsParse (slice body 3 8) 2 = _ from tsParse_slice_wrong hpts]
    rfl
  · rw [parseTimestamps_both, show tsParse (slice body 3 8) 3 = _ from tsParse_slice_wrong hpts]
    rfl

theorem parseTimestamps_dts_wrong {body : Bytes} (hpts : ¬ TimestampWrong body 3 3) (hdts : TimestampWrong body 8 1) :
    parseTimestamps 3 body = .error .invalidTimestampMarker := by
  obtain ⟨pts, hp⟩ := tsParse_slice_good (pfx := 3) hpts
  rw [parseTimestamps_both, show tsParse (slice body 3 8) 3 = _ from hp,
    show tsParse (slice body 8 13) 1 = _ from tsParse_slice_wrong hdts]
  rfl

theorem parseTimestamps_good {f : BitVec 2} {body : Bytes} (hpts : f.toNat ≠ 0 → ¬ TimestampWrong body 3 f.toNat)
    (hdts : f.toNat = 3 → ¬ TimestampWrong body 8 1) : ∃ t, parseTimestamps f body = .ok t := by
  obtain rfl | rfl | rfl | rfl := ptsDtsFlags_cases f
  · exact ⟨_, rfl⟩
  · exact ⟨_, rfl⟩
  · obtain ⟨pts, hp⟩ := tsParse_slice_good (pfx := 2) (hpts (by decide))
    rw [parseTimestamps_pts, show tsParse (slice body 3 8) 2 = _ from hp]
    exact ⟨_, rfl⟩
  · obtain ⟨pts, hp⟩ := tsParse_slice_good (pfx := 3) (hpts (by decide))
    obtain ⟨dts, hd⟩ := tsParse_slice_good (pfx := 1) (hdts rfl)
    rw [parseTimestamps_both, show tsParse (slice body 3 8) 3 = _ from hp,
      show tsParse (slice body 8 13) 1 = _ from hd]
    exact ⟨_, rfl⟩

/-- The value of a body with an optional header and the timestamps `t` (30_encoding.md R106). -/
def pesOfBody (sid : Byte) (unb : Bit) (body : Bytes) (t : Option (BitVec 33) × Option (BitVec 33)) : PesPacket :=
  { streamId := sid
    header := some
      { scramblingControl := bits (byteAt body 0) 4 2, priority := bits (byteAt body 0) 3 1,
        dataAlignmentIndicator := bits (byteAt body 0) 2 1, copyright := bits (byteAt body 0) 1 1,
        originalOrCopy := bits (byteAt body 0) 0 1, pts := t.1, dts := t.2 }
    unbounded := unb
    payload := body.drop (3 + (byteAt body 2).toNat) }

/-- A body with an optional header: its checks in their order, as numbers, then the timestamps. -/
theorem decodePesBody_eq (sid : Byte) (unb : Bit) (body : Bytes) :
    decodePesBody sid unb body =
      let f := (byteAt body 1).toNat / 64
      let h := (byteAt body 2).toNat
      if body.length < 3 then .error (shortBody unb 9 (6 + body.length))
      else if (byteAt body 0).toNat / 64 ≠ 2 ∨ f = 1 ∨ h < (if f = 0 then 0 else if f = 2 then 5 else 10) then
        .error .malformedPesHeader
      else if body.length < 3 + h then .error (shortBody unb (9 + h) (6 + body.length))
      else (parseTimestamps (bits (byteAt body 1) 6 2) body).map (pesOfBody sid unb body) := by
  have htop : ∀ (x : Byte) (c : BitVec 2), bits x 6 2 = c ↔ x.toNat / 64 = c.toNat := by
    intro x c
    rw [← BitVec.toNat_inj, bits_toNat_top x (by decide)]
    rfl
  simp only [decodePesBody, timestampNeed, htop, ite_or, ne_eq]
  cases parseTimestamps (bits (byteAt body 1) 6 2) body <;> rfl

/-- The error of a body that is too short, as a response (R235). -/
theorem errorResponse_shortBody (c : Prop) [Decidable c] (declared supplied : Nat) :
    errorResponse (shortBody (if c then 1 else 0) declared supplied) =
      if c then ⟨0x09, .lengthInfo declared supplied, []⟩ else ⟨0x13, .none, []⟩ := by
  split <;> rfl

/-- A packet with a good start code and a length field that fits whose stream id has an optional header. -/
theorem decodePes_optHeader {sid l1 l0 : Byte} {body trailing : Bytes} (hsid : 0xBC ≤ sid.toNat)
    (hclass : sid ∉ ([0xBC, 0xBE, 0xBF, 0xF0, 0xF1, 0xF2, 0xF8, 0xFF] : Bytes))
    (hlength : LengthFieldFits l1 l0 body trailing) :
    decodePes (0x00 :: 0x00 :: 0x01 :: sid :: l1 :: l0 :: (body ++ trailing)) =
      decodePesBody sid (if l1 = 0 ∧ l0 = 0 then 1 else 0) body := by
  rw [decodePes_framed hsid hlength, decodePesClass, if_pos ((hasOptHeader_iff sid).mpr hclass)]

/-- Settles O33: the checks stand in `decodePesBody_eq`, and the timestamp fields are tested in their order. -/
theorem pesHeaderErrorsInOrder : Obligations.PesHeaderErrorsInOrder := by
  intro s sid l1 l0 body hs hsid hclass hlength
  have hzero : l1.toNat * 256 + l0.toNat = 0 → l1 = 0 ∧ l0 = 0 := by
    exact fun h => ⟨BitVec.eq_of_toNat_eq (by simp; omega), BitVec.eq_of_toNat_eq (by simp; omega)⟩
  have hlength' : LengthFieldFits l1 l0 body [] := by
    by_cases hl : l1.toNat * 256 + l0.toNat = 0
    · exact .inr ⟨(hzero hl).1, (hzero hl).2, rfl⟩
    · exact .inl (by omega)
  have hdec := decodePes_optHeader hsid hclass hlength'
  rw [List.append_nil, decodePesBody_eq] at hdec
  have hans := decodePes_answersOnly hs
  rw [hdec] at hans
  have hflags : (bits (byteAt body 1) 6 2).toNat = (byteAt body 1).toNat / 64 := bits_toNat_top _ (by decide)
  dsimp only
  refine ite_of_answersOnly hans (fun _ hans => ?_) fun _ hans => ?_
  · rwa [← errorResponse_shortBody]
  refine ite_of_answersOnly hans (fun _ hans => hans) fun hheader hans => ?_
  refine ite_of_answersOnly hans (fun _ hans => ?_) fun _ hans => ?_
  · rwa [← errorResponse_shortBody]
  rw [← hflags] at hheader ⊢
  have hnot01 : (bits (byteAt body 1) 6 2).toNat ≠ 1 := fun h => hheader (.inr (.inl h))
  split
  · rename_i hpts
    rwa [parseTimestamps_pts_wrong hpts.1 hnot01 hpts.2] at hans
  rename_i hpts
  split
  · rename_i hdts
    have h3 : bits (byteAt body 1) 6 2 = 3 := BitVec.eq_of_toNat_eq hdts.1
    rw [h3] at hpts hans
    rwa [parseTimestamps_dts_wrong (not_and.mp hpts (by decide)) hdts.2] at hans
  · rename_i hdts
    obtain ⟨t, ht⟩ := parseTimestamps_good (not_and.mp hpts) (not_and.mp hdts)
    rw [ht] at hans
    exact ⟨_, hans⟩

/-! A packet with an optional header that decodes (R239, R241). -/

/-- A body of the three fixed header bytes, the header bytes `opt` they count and a payload, its timestamps good. -/
theorem decodePesBody_whole {sid m n : Byte} {unb : Bit} {flags : BitVec 2} {anc : BitVec 6} {opt pay : Bytes}
    {t : Option (BitVec 33) × Option (BitVec 33)} (hm : m.toNat / 64 = 2) (hn : n.toNat = opt.length)
    (hflags : flags.toNat ≠ 1)
    (hneed : (if flags.toNat = 0 then 0 else if flags.toNat = 2 then 5 else 10) ≤ opt.length)
    (hstamps : parseTimestamps flags (m :: (flags ++ anc) :: n :: (opt ++ pay)) = .ok t) :
    decodePesBody sid unb (m :: (flags ++ anc) :: n :: (opt ++ pay)) =
      .ok { pesOfBody sid unb (m :: (flags ++ anc) :: n :: (opt ++ pay)) t with payload := pay } := by
  have hf : (flags ++ anc).toNat / 64 = flags.toNat := by
    have hanc := anc.isLt
    rw [toNat_append_eq]
    omega
  have hbits : bits (flags ++ anc) 6 2 = flags := by
    rw [← BitVec.toNat_inj, bits_toNat_top _ (by decide)]
    exact hf
  have hpay : (m :: (flags ++ anc) :: n :: (opt ++ pay)).drop (3 + n.toNat) = pay := by
    simp [hn, Nat.add_comm 3]
  rw [decodePesBody_eq]
  simp only [byteAt, List.getD_cons_zero, List.getD_cons_succ, hf, hbits, hstamps]
  rw [if_neg (by simp), if_neg (by omega), if_neg (by simp; omega), Except.map, pesOfBody]
  simp only [byteAt, List.getD_cons_zero, List.getD_cons_succ, hpay]

/-- DECODE_PES of a packet with any PTS_DTS_flags other than 01 and good timestamp fields, its header bits at their
places. -/
theorem pesHeaderDecodes_of_stamps {s : State} {sid l1 l0 m : Byte} {flags : BitVec 2} {anc : BitVec 6}
    {opt pay trailing : Bytes} {t : Option (BitVec 33) × Option (BitVec 33)} (hflags : flags.toNat ≠ 1)
    (hneed : (if flags.toNat = 0 then 0 else if flags.toNat = 2 then 5 else 10) ≤ opt.length)
    (hstamps : parseTimestamps flags (m :: (flags ++ anc) :: BitVec.ofNat 8 opt.length :: (opt ++ pay)) = .ok t)
    (hs : s.operand = .bytes (0x00 :: 0x00 :: 0x01 :: sid :: l1 :: l0 :: m :: (flags ++ anc) ::
      BitVec.ofNat 8 opt.length :: (opt ++ pay ++ trailing)))
    (hsid : 0xBC ≤ sid.toNat) (hclass : sid ∉ ([0xBC, 0xBE, 0xBF, 0xF0, 0xF1, 0xF2, 0xF8, 0xFF] : Bytes))
    (hm : m.toNat / 64 = 2) (hmax : opt.length ≤ 255)
    (hlength : l1.toNat * 256 + l0.toNat = 3 + opt.length + pay.length ∨ (l1 = 0 ∧ l0 = 0 ∧ trailing = [])) :
    ∃ hd : PesHeader,
      AnswersOnly .decodePes s ⟨0x00, .pes ⟨sid, some hd, if l1 = 0 ∧ l0 = 0 then 1 else 0, pay⟩, []⟩ ∧
      hd.scramblingControl.toNat = m.toNat / 16 % 4 ∧ hd.priority.toNat = m.toNat / 8 % 2 ∧
      hd.dataAlignmentIndicator.toNat = m.toNat / 4 % 2 ∧ hd.copyright.toNat = m.toNat / 2 % 2 ∧
      hd.originalOrCopy.toNat = m.toNat % 2 ∧ hd.pts = t.1 ∧ hd.dts = t.2 := by
  have hans := decodePes_answersOnly hs
  have hdec := decodePes_optHeader (body := m :: (flags ++ anc) :: BitVec.ofNat 8 opt.length :: (opt ++ pay)) hsid hclass
    (hlength.imp_left fun h => ⟨by simp; omega, by simp⟩)
  rw [decodePesBody_whole hm (by rw [BitVec.toNat_ofNat]; omega) hflags hneed hstamps] at hdec
  exact ⟨_, hdec ▸ hans, bits_toNat m 4 2, bits_toNat m 3 1, bits_toNat m 2 1, bits_toNat m 1 1, bits_toNat_low m 1, rfl,
    rfl⟩

/-- Settles O35: without timestamps there is nothing to parse, and `tsParse_tsBytes` reads back each that is there. -/
theorem pesHeaderDecodes : Obligations.PesHeaderDecodes := by
  intro s sid l1 l0 m anc stamps skipped pay trailing
  match stamps with
  | none => exact pesHeaderDecodes_of_stamps (flags := 0) (t := (none, none)) (by decide) (Nat.zero_le _) rfl
  | some (pts, none) =>
    refine pesHeaderDecodes_of_stamps (flags := 2) (t := (some pts, none)) (by decide) (by simp) ?_
    rw [parseTimestamps_pts, show slice _ 3 8 = tsBytes 2 pts from rfl, tsParse_tsBytes]
    rfl
  | some (pts, some dts) =>
    refine pesHeaderDecodes_of_stamps (flags := 3) (t := (some pts, some dts)) (by decide) (by simp; omega) ?_
    rw [parseTimestamps_both, show slice _ 3 8 = tsBytes 3 pts from rfl, show slice _ 8 13 = tsBytes 1 dts from rfl,
      tsParse_tsBytes, Except.bind, tsParse_tsBytes]
    rfl

end Sys2Proof.Machine
end

section
/-! The checks of DECODE_PACKET (40_ts_packet.md R140, R141) as numbers, and the one error its adaptation field parser
raises (R143). -/

namespace Sys2Proof.Machine

theorem takePcr_error {len : Byte} {flag : Bit} {rest : Bytes} {e : ErrorStatus}
    (h : takePcr len flag rest = .error e) : e = .invalidAdaptationFieldLength len := by
  unfold takePcr at h
  split at h
  · split at h
    · exact (Except.error.inj h).symm
    · cases h
  · cases h

theorem takeSplice_error {len : Byte} {flag : Bit} {rest : Bytes} {e : ErrorStatus}
    (h : takeSplice len flag rest = .error e) : e = .invalidAdaptationFieldLength len := by
  unfold takeSplice at h
  split at h
  · split at h
    · exact (Except.error.inj h).symm
    · cases h
  · cases h

theorem takeCounted_error {len : Byte} {flag : Bit} {rest : Bytes} {e : ErrorStatus}
    (h : takeCounted len flag rest = .error e) : e = .invalidAdaptationFieldLength len := by
  unfold takeCounted at h
  split at h
  · split at h
    · exact (Except.error.inj h).symm
    · split at h
      · exact (Except.error.inj h).symm
      · cases h
  · cases h

/-- A computation in sequence fails in its first part or in the rest. -/
theorem bind_error {α β : Type} {x : Except ErrorStatus α} {k : α → Except ErrorStatus β} {e : ErrorStatus}
    (h : (x >>= k) = .error e) : x = .error e ∨ ∃ v, k v = .error e := by
  cases x with
  | error e' =>
    obtain rfl : e' = e := Except.error.inj h
    exact .inl rfl
  | ok v => exact .inr ⟨v, h⟩

/-- `decode_af` raises nothing but InvalidAdaptationFieldLength(L) (R143). -/
theorem decodeAf_error {len : Byte} {body : Bytes} {e : ErrorStatus} (h : decodeAf len body = .error e) :
    e = .invalidAdaptationFieldLength len := by
  cases body with
  | nil => cases h
  | cons f r0 =>
    obtain h | ⟨_, h⟩ := bind_error h
    · exact takePcr_error h
    obtain h | ⟨_, h⟩ := bind_error h
    · exact takePcr_error h
    obtain h | ⟨_, h⟩ := bind_error h
    · exact takeSplice_error h
    obtain h | ⟨_, h⟩ := bind_error h
    · exact takeCounted_error h
    obtain h | ⟨_, h⟩ := bind_error h
    · exact takeCounted_error h
    cases h

/-- `decode_packet` with adaptation_field_control and adaptation_field_length as numbers. -/
theorem decodePacket_eq (b0 b1 b2 b3 l : Byte) (rest : Bytes) :
    decodePacket (b0 :: b1 :: b2 :: b3 :: l :: rest) =
      if b0 ≠ 0x47 then .error (.syncByteMismatch b0)
      else if b3.toNat / 16 % 4 = 0 then .error (.reservedAdaptationFieldControl 0)
      else if 2 ≤ b3.toNat / 16 % 4 ∧ 183 < l.toNat then .error (.invalidAdaptationFieldLength l)
      else if 2 ≤ b3.toNat / 16 % 4 then
        (decodeAf l (rest.take l.toNat)).map (packetOf (b0 :: b1 :: b2 :: b3 :: l :: rest) · (5 + l.toNat))
      else .ok (packetOf (b0 :: b1 :: b2 :: b3 :: l :: rest) AdaptationField.empty 4) := by
  generalize hb : b0 :: b1 :: b2 :: b3 :: l :: rest = b
  have hb0 : byteAt b 0 = b0 := hb ▸ rfl
  have hb3 : byteAt b 3 = b3 := hb ▸ rfl
  have hb4 : byteAt b 4 = l := hb ▸ rfl
  have hbody : slice b 5 (5 + l.toNat) = rest.take l.toNat := by rw [← hb]; simp [slice]
  have hreserved : bits b3 4 2 = 0 ↔ b3.toNat / 16 % 4 = 0 := bits_eq_iff b3 0
  have hfield : bits b3 5 1 = 1 ↔ 2 ≤ b3.toNat / 16 % 4 := by rw [bits_eq_iff]; simp; omega
  rw [decodePacket, hb0, hb3, hb4, hbody]
  by_cases hsync : b0 ≠ 0x47
  · rw [if_pos hsync, if_pos hsync]
  rw [if_neg hsync, if_neg hsync]
  by_cases hres : bits b3 4 2 = 0
  · rw [if_pos hres, if_pos (hreserved.mp hres), hres]
  rw [if_neg hres, if_neg (mt hreserved.mpr hres)]
  by_cases haf : bits b3 5 1 = 1
  · have hafc := hfield.mp haf
    rw [if_pos haf, if_pos hafc]
    by_cases hl : 183 < l.toNat
    · rw [if_pos (by omega), if_pos ⟨hafc, hl⟩]
    · rw [if_neg (by omega), if_neg fun h => hl h.2]
      cases decodeAf l (rest.take l.toNat) <;> rfl
  · have hafc := mt hfield.mpr haf
    rw [if_neg haf, if_neg fun h => hafc h.1, if_neg hafc]

/-- Settles O15: each check answers with its error; behind them the packet decodes or its adaptation field overruns
itself. -/
theorem packetChecksInOrder : Obligations.PacketChecksInOrder := by
  intro s b0 b1 b2 b3 l rest hs hrest
  have hans := decodePacket_answersOnly hs (by simp [hrest])
  rw [decodePacket_eq] at hans
  refine ite_of_answersOnly hans (fun _ h => h) fun _ hans => ite_of_answersOnly hans (fun _ h => h) fun _ hans =>
    ite_of_answersOnly hans (fun _ h => h) fun _ hans => ?_
  by_cases hafc : 2 ≤ b3.toNat / 16 % 4
  · rw [if_pos hafc] at hans
    cases hbody : decodeAf l (rest.take l.toNat) with
    | error e =>
      obtain rfl := decodeAf_error hbody
      rw [hbody] at hans
      exact .inl ⟨hans, hafc⟩
    | ok af =>
      rw [hbody] at hans
      exact .inr ⟨_, hans⟩
  · rw [if_neg hafc] at hans
    exact .inr ⟨_, hans⟩

/-- Settles O18: the header checks pass, and `decode_af` gets the flags byte and the cut fields. -/
theorem adaptationFieldOverrun : Obligations.AdaptationFieldOverrun := by
  intro s b1 b2 b3 l f r r' af x rest cut hs hx hcut hl hlen hafc
  have htake : (x.take cut).length = cut := by rw [List.length_take]; omega
  have hbody : (f :: (x.take cut ++ rest)).take l.toNat = f :: x.take cut := by
    rw [hl, Nat.add_comm, List.take_succ_cons, List.take_left' htake]
  have hans := decodePacket_answersOnly hs (by simp only [List.length_cons, List.length_append, htake]; omega)
  rw [decodePacket_eq, if_neg (not_not.mpr rfl), if_neg (by omega), if_neg (by omega), if_pos hafc, hbody,
    decodeAf_cut l cut hx hcut] at hans
  exact hans

end Sys2Proof.Machine
end

section
/-! ENCODE_PACKET byte by byte (40_ts_packet.md R146 to R149): the size without stuffing decides, and a packet that fits
is the header, the stuffed adaptation field and the payload. -/

namespace Sys2Proof.Machine

theorem encodePacket_answersOnly {s : State} {p : TsPacket} (h : s.operand = .tsPacket p) (hp : p.wellTyped = true) :
    AnswersOnly .encodePacket s (resultResponse .bytes (encodePacket p)) :=
  answersOnly_of_next (by rw [exec, execEncodePacket, s.inTsPacket_eq p h hp, withOperand_some])

theorem fullPayload_iff (p : TsPacket) : fullPayload p = true ↔ (p.payload.getD []).length = 184 := beq_iff_eq

/-- `need` (R146) as a number. -/
theorem packetNeed_eq (p : TsPacket) :
    packetNeed p = 4 + (p.payload.getD []).length +
      (if afContent p.af = [] then 0 else 1 + (afContent p.af).length) := by
  rw [packetNeed]
  cases afContent p.af <;> simp

/-- `encode_packet` raises exactly where the size without stuffing exceeds a packet (R146). -/
theorem encodePacket_eq (p : TsPacket) :
    encodePacket p =
      if packetNeed p > 188 then .error (.payloadTooLarge (packetNeed p)) else .ok (framePacket p) := by
  have hneed : packetNeed p = 4 + (p.payload.getD []).length +
    (if (afContent p.af).length > 0 then 1 + (afContent p.af).length else 0) := rfl
  rw [encodePacket]
  by_cases hbig : (p.payload.getD []).length > 184
  · rw [if_pos hbig, if_pos (by omega)]
  rw [if_neg hbig]
  by_cases hfull : fullPayload p = true
  · rw [if_pos hfull]
    rw [fullPayload_iff] at hfull
    exact if_congr (by split at hneed <;> omega) rfl rfl
  · rw [if_neg hfull]
    rw [fullPayload_iff] at hfull
    exact if_congr (by split at hneed <;> omega) rfl rfl

/-- The header bytes as numbers (30_encoding.md R90). -/
theorem headerBytes_layout (p : TsPacket) (afc : BitVec 2) :
    ∃ h1 h2 h3 : Byte, headerBytes p afc = [0x47, h1, h2, h3] ∧
      h1.toNat = p.tei.toNat * 128 + p.pusi.toNat * 64 + p.tp.toNat * 32 + p.pid.toNat / 256 ∧
      h2.toNat = p.pid.toNat % 256 ∧ h3.toNat = p.tsc.toNat * 64 + afc.toNat * 16 + p.cc.toNat := by
  refine ⟨_, _, _, rfl, ?_, bits_toNat_low p.pid 8, ?_⟩
  · rw [toNat_append_eq, toNat_append_eq, toNat_append_eq, bits_toNat_top p.pid (by decide)]
    omega
  · rw [toNat_append_eq, toNat_append_eq]
    omega

/-- The adaptation field that fills `n + 1` bytes: its length, its content (the flags byte alone where there is no
content and room for it), and stuffing (R146, R148). -/
theorem afBytes_layout {c : Bytes} {n : Nat} (hc : c.length ≤ n) (hn : n < 256) :
    ∃ (l : Byte) (k : Nat), l.toNat = n ∧
      afBytes c (n + 1) = l :: ((if c = [] ∧ l ≠ 0 then [0x00] else c) ++ List.replicate k 0xFF) := by
  have hl : (BitVec.ofNat 8 n).toNat = n := by rw [BitVec.toNat_ofNat]; omega
  have hzero : BitVec.ofNat 8 n = 0 ↔ n = 0 := by rw [← BitVec.toNat_inj, hl]; rfl
  rw [afBytes, Nat.add_sub_cancel]
  by_cases hn0 : n = 0
  · obtain rfl : c = [] := List.length_eq_zero_iff.mp (by omega)
    exact ⟨_, 0, hl, by simp [hn0]⟩
  by_cases hcnil : c = []
  · refine ⟨_, n - 1, hl, ?_⟩
    rw [if_neg hn0, if_pos hcnil, if_pos ⟨hcnil, mt hzero.mp hn0⟩, List.singleton_append]
  · exact ⟨_, n - c.length, hl, by simp [hn0, hcnil]⟩

/-- adaptation_field_control of a packet with an adaptation field: 10 without a payload, 11 with one (R91). -/
theorem fieldControl_toNat (o : Option Bytes) :
    ((1 : BitVec 1) ++ presentBit o).toNat = if o = none then 2 else 3 := by
  rw [toNat_append_eq]
  cases o <;> rfl

/-- What the bytes of a packet hold: the header fields of `p`, and an adaptation field `field` that fills what the
payload leaves. -/
abbrev PacketLayout (p : TsPacket) (h1 h2 h3 : Byte) (field : Bytes) : Prop :=
  h1.toNat = p.tei.toNat * 128 + p.pusi.toNat * 64 + p.tp.toNat * 32 + p.pid.toNat / 256 ∧
  h2.toNat = p.pid.toNat % 256 ∧
  h3.toNat = p.tsc.toNat * 64 + (if field = [] then 1 else if p.payload = none then 2 else 3) * 16 + p.cc.toNat ∧
  field.length + (p.payload.getD []).length = 184 ∧
  (field ≠ [] → ∃ (l : Byte) (n : Nat), l.toNat = 183 - (p.payload.getD []).length ∧
    field = l :: ((if afContent p.af = [] ∧ l ≠ 0 then [0x00] else afContent p.af) ++ List.replicate n 0xFF))

/-- A packet value that fits, byte by byte (R146): with a full payload there is no adaptation field, otherwise it fills
what the payload leaves. -/
theorem framePacket_layout {p : TsPacket} (hneed : packetNeed p ≤ 188) :
    ∃ (h1 h2 h3 : Byte) (field : Bytes),
      framePacket p = 0x47 :: h1 :: h2 :: h3 :: (field ++ p.payload.getD []) ∧ PacketLayout p h1 h2 h3 field := by
  rw [packetNeed_eq] at hneed
  generalize hpay : p.payload.getD [] = pay at hneed
  by_cases hfull : pay.length = 184
  · obtain ⟨h1, h2, h3, hheader, hh1, hh2, hh3⟩ := headerBytes_layout p 0b01
    rw [framePacket, if_pos ((fullPayload_iff p).mpr (hpay ▸ hfull)), hheader, hpay]
    exact ⟨h1, h2, h3, [], rfl, hh1, hh2, hh3, by rw [hpay, hfull]; rfl, fun h => absurd rfl h⟩
  · have hshort : pay.length < 184 := by omega
    have hcontent : (afContent p.af).length ≤ 183 - pay.length := by
      split at hneed
      · rename_i hnil
        exact hnil ▸ Nat.zero_le _
      · omega
    obtain ⟨h1, h2, h3, hheader, hh1, hh2, hh3⟩ := headerBytes_layout p ((1 : BitVec 1) ++ presentBit p.payload)
    obtain ⟨l, n, hl, hfield⟩ := afBytes_layout hcontent (by omega)
    have hroom : 184 - pay.length = 183 - pay.length + 1 := by omega
    have hlen := afBytes_length (afContent p.af) (184 - pay.length) (by omega) (by omega)
    rw [hroom, hfield] at hlen
    rw [framePacket, if_neg fun h => hfull (hpay ▸ (fullPayload_iff p).mp h), hheader, hpay, hroom, hfield]
    refine ⟨h1, h2, h3, l :: _, rfl, hh1, hh2, ?_, by rw [hpay]; omega, fun _ => ⟨l, n, hpay ▸ hl, rfl⟩⟩
    rw [hh3, fieldControl_toNat, if_neg (List.cons_ne_nil _ _)]

/-- A packet value that fits is framed in 188 bytes (R149). -/
theorem framePacket_length_of_fits {p : TsPacket} (hneed : packetNeed p ≤ 188) : (framePacket p).length = 188 := by
  obtain ⟨h1, h2, h3, field, hframe, -, -, -, hlen, -⟩ := framePacket_layout hneed
  simp only [hframe, List.length_cons, List.length_append]
  omega

/-- Settles O20: the size without stuffing decides, and what fits is laid out by `framePacket_layout`. -/
theorem encodePacketResult : Obligations.EncodePacketResult := by
  refine ⟨wordIs_of_encode_toNat rfl, fun s p hs hp => ?_⟩
  have hans := encodePacket_answersOnly hs hp
  rw [encodePacket_eq, packetNeed_eq] at hans
  refine ite_of_answersOnly hans (fun _ h => h) fun hfits hans => ?_
  rw [← packetNeed_eq] at hfits
  obtain ⟨h1, h2, h3, field, hframe, hlayout⟩ := framePacket_layout (Nat.not_lt.mp hfits)
  rw [hframe] at hans
  exact ⟨h1, h2, h3, field, hans, hlayout⟩

end Sys2Proof.Machine
end

section
/-! The inverse law of the TS packet codec (40_ts_packet.md R150): what ENCODE_PACKET lays out, DECODE_PACKET reads. -/

namespace Sys2Proof.Machine

/-- A command that gives a next state had a typed operand (46_control.md R334). -/
theorem operandTyped_of_next {i : Instr} {s t : State} (h : exec i s = .next t) : operandTyped i s.operand = true := by
  by_contra hill
  have hrefused := typedOperandsAreAnswered i s
  rw [if_neg hill, h] at hrefused
  cases hrefused

/-- A command gives one response. -/
theorem response_unique {i : Instr} {s t : State} {r r' : Response} (h : AnswersOnly i s r) (hnext : exec i s = .next t)
    (hr : t.responses = s.responses ++ [r']) : r' = r := by
  obtain ⟨t', hnext', -, -, hr'⟩ := h
  obtain rfl : t = t' := Host.Outcome.next.inj (hnext.symm.trans hnext')
  exact List.singleton_inj.mp (List.append_cancel_left (hr.symm.trans hr'))

/-- Only AF_EMPTY has no content (40_ts_packet.md R147, R33). -/
theorem afContent_eq_nil_iff (af : AdaptationField) : afContent af = [] ↔ af = AdaptationField.empty := by
  rw [afContent]
  split <;> simp [*]

/-- adaptation_field_control, read from the header bytes of a layout. -/
theorem PacketLayout.control {p : TsPacket} {h1 h2 h3 : Byte} {field : Bytes} (h : PacketLayout p h1 h2 h3 field) :
    h3.toNat / 16 % 4 = if field = [] then 1 else if p.payload = none then 2 else 3 := by
  obtain ⟨-, -, hh3, -, -⟩ := h
  generalize hafc : (if field = [] then 1 else if p.payload = none then 2 else 3) = afc at hh3 ⊢
  have hsmall : afc < 4 := by split_ifs at hafc <;> omega
  omega

/-- The payload flag of a layout (30_encoding.md R91). -/
theorem PacketLayout.payloadFlag {p : TsPacket} {h1 h2 h3 : Byte} {field : Bytes} (h : PacketLayout p h1 h2 h3 field) :
    h3.toNat / 16 % 2 = 1 ↔ p.payload ≠ none := by
  have hcontrol := h.control
  obtain ⟨-, -, -, hlen, -⟩ := h
  split at hcontrol
  · rename_i hnil
    refine iff_of_true (by omega) fun hnone => ?_
    simp [hnil, hnone] at hlen
  · split at hcontrol
    · exact iff_of_false (by omega) (not_not.mpr ‹_›)
    · exact iff_of_true (by omega) ‹_›

/-- A packet value is determined by its header fields as numbers, its adaptation field and its payload. -/
theorem tsPacket_eq_of_toNat_eq {p q : TsPacket} (htei : p.tei.toNat = q.tei.toNat)
    (hpusi : p.pusi.toNat = q.pusi.toNat) (htp : p.tp.toNat = q.tp.toNat)
    (hpid : p.pid.toNat = q.pid.toNat) (htsc : p.tsc.toNat = q.tsc.toNat) (hcc : p.cc.toNat = q.cc.toNat)
    (haf : p.af = q.af) (hpayload : p.payload = q.payload) : p = q := by
  cases p
  cases q
  simp only [TsPacket.mk.injEq, ← BitVec.toNat_inj]
  exact ⟨htei, hpusi, htp, hpid, htsc, hcc, haf, hpayload⟩

/-- The payload of a layout stands behind its adaptation field, up to the end of the packet. -/
theorem PacketLayout.payload_slice {p : TsPacket} {h1 h2 h3 : Byte} {field : Bytes}
    (h : PacketLayout p h1 h2 h3 field) :
    slice (0x47 :: h1 :: h2 :: h3 :: (field ++ p.payload.getD [])) (4 + field.length) 188 = p.payload.getD [] := by
  obtain ⟨-, -, -, hlen, -⟩ := h
  rw [slice_eq_drop (by simp only [List.length_cons, List.length_append]; omega)]
  simp [Nat.add_comm 4]

/-- The packet value read from a layout is the one laid out. -/
theorem packetOf_layout {p : TsPacket} {h1 h2 h3 : Byte} {field : Bytes} (h : PacketLayout p h1 h2 h3 field) :
    packetOf (0x47 :: h1 :: h2 :: h3 :: (field ++ p.payload.getD [])) p.af (4 + field.length) = p := by
  obtain ⟨htei, hpusi, htp, hpid, htsc, hcc⟩ :=
    packetOf_header h1 h2 h3 (field ++ p.payload.getD []) p.af (4 + field.length)
  have hpayload : (packetOf (0x47 :: h1 :: h2 :: h3 :: (field ++ p.payload.getD [])) p.af (4 + field.length)).payload =
      p.payload := by
    rw [packetOf_payload, h.payload_slice, show byteAt _ 3 = h3 from rfl, if_congr h.payloadFlag rfl rfl]
    cases p.payload <;> rfl
  have hcontrol := h.control
  obtain ⟨hh1, hh2, hh3, -, -⟩ := h
  rw [← hcontrol] at hh3
  refine tsPacket_eq_of_toNat_eq (htei.trans ?_) (hpusi.trans ?_) (htp.trans ?_) (hpid.trans ?_) (htsc.trans ?_)
    (hcc.trans ?_) rfl hpayload <;> omega

/-- `decode_af` reads back the adaptation field body ENCODE_PACKET writes, behind whichever length byte. -/
theorem decodeAf_written {af : AdaptationField} (hwt : af.wellTyped = true) {l : Byte} {n : Nat} {body : Bytes}
    (hbody : body = (if afContent af = [] ∧ l ≠ 0 then [0x00] else afContent af) ++ List.replicate n 0xFF)
    (hl : l.toNat = body.length) : decodeAf l body = .ok af := by
  have hbytes := adaptationFieldBytes af hwt
  by_cases hempty : af = AdaptationField.empty
  · subst hempty
    rw [afContent_empty] at hbody
    by_cases hl0 : l = 0
    · subst hl0
      rw [List.length_eq_zero_iff.mp hl.symm]
      rfl
    · rw [if_pos ⟨rfl, hl0⟩] at hbody
      rw [hbody]
      exact decodeAf_whole l (r := 0) (r' := 0) (x := []) _ ⟨rfl, [], [], [], [], rfl, rfl, rfl, rfl, rfl⟩
  · rw [if_neg hempty] at hbytes
    obtain ⟨f, x, hc, hx⟩ := hbytes
    rw [hc, if_neg fun h => List.cons_ne_nil _ _ h.1] at hbody
    rw [hbody]
    exact decodeAf_whole l _ hx

/-- DECODE_PACKET of the bytes of a packet value that fits (R150). -/
theorem decodePacket_framePacket {p : TsPacket} (hwt : p.wellTyped = true) (hneed : packetNeed p ≤ 188) :
    decodePacket (framePacket p) = .ok p := by
  obtain ⟨h1, h2, h3, field, hframe, hlayout⟩ := framePacket_layout hneed
  have hvalue := packetOf_layout hlayout
  have hcontrol := hlayout.control
  obtain ⟨-, -, -, hlen, hfield⟩ := hlayout
  rw [hframe]
  cases field with
  | nil =>
    have haf : p.af = AdaptationField.empty := by
      rw [← afContent_eq_nil_iff]
      by_contra hne
      rw [packetNeed_eq, if_neg hne] at hneed
      simp only [List.length_nil] at hlen
      omega
    rw [haf] at hvalue
    exact (decodePacket_payloadOnly h1 h2 h3 _ hcontrol).trans (congrArg Except.ok hvalue)
  | cons l body =>
    obtain ⟨l', n, hl, hbody⟩ := hfield (List.cons_ne_nil _ _)
    obtain ⟨rfl, hbody⟩ := List.cons.inj hbody
    rw [List.length_cons] at hlen
    have hl : l.toNat = body.length := by omega
    have hafc : 2 ≤ h3.toNat / 16 % 4 := by
      rw [hcontrol, if_neg (List.cons_ne_nil _ _)]
      split <;> decide
    have hpos : 4 + (l :: body).length = 5 + l.toNat := by simp only [List.length_cons]; omega
    rw [hpos] at hvalue
    exact (decodePacket_adaptationField hafc hl (by omega) (decodeAf_written hwt hbody hl)).trans
      (congrArg Except.ok hvalue)

/-- Settles O21: an OK answer holds the bytes of a packet value that fits, and those decode to it. -/
theorem packetRoundTrip : Obligations.PacketRoundTrip := by
  intro s t s' p b hs hnext hr hs'
  have hwt : p.wellTyped = true := by simpa [hs, operandTyped] using operandTyped_of_next hnext
  have hresponse := response_unique (encodePacket_answersOnly hs hwt) hnext hr
  rw [encodePacket_eq] at hresponse
  split at hresponse
  · cases hresponse
  · rename_i hfits
    cases hresponse
    have hneed := Nat.not_lt.mp hfits
    have hans := decodePacket_answersOnly hs' (framePacket_length_of_fits hneed)
    rw [decodePacket_framePacket hwt hneed] at hans
    exact hans

end Sys2Proof.Machine
end

section
/-! The continuity tracker (41_continuity.md): each command's word as a number, and what CC_NEXT and CC_VALIDATE leave. -/

namespace Sys2Proof.Machine

theorem encode_ccNext_toNat (h : Bit) (pid : Pid) :
    (encode (.ccNext h pid)).toNat = 0x20 * 2 ^ 24 + h.toNat * 2 ^ 15 + pid.toNat := by
  simp [encode, assemble_toNat]

theorem encode_ccValidate_toNat (cc : Counter) (di h : Bit) (pid : Pid) :
    (encode (.ccValidate cc di h pid)).toNat =
      0x21 * 2 ^ 24 + cc.toNat * 2 ^ 20 + di.toNat * 2 ^ 19 + h.toNat * 2 ^ 15 + pid.toNat := by
  simp [encode, assemble_toNat]

/-- With H = 1 CC_NEXT stamps the writer counter and advances it (R170). -/
theorem exec_ccNext_payload (pid : Pid) (s : State) :
    exec (.ccNext 1 pid) s = complete (s.writeW pid (s.readW pid + 1)) (.counter (s.readW pid)) := rfl

/-- With H = 0 CC_NEXT stamps the counter before the writer counter and writes nothing (R170). -/
theorem exec_ccNext_flat (pid : Pid) (s : State) :
    exec (.ccNext 0 pid) s = complete s (.counter (s.readW pid + 15)) := rfl

/-- CC_VALIDATE answers the tracker's verdict and makes the reader entry the received counter (R171, R172). -/
theorem exec_ccValidate (cc : Counter) (di h : Bit) (pid : Pid) (s : State) :
    exec (.ccValidate cc di h pid) s =
      complete (s.writeR pid (some cc)) (.verdict (ccCheck (s.readR pid) cc h di).1) := by
  rw [exec, execCcValidate, (ccCheck_spec (s.readR pid) cc h di).1]

/-- Settles O22: a packet with payload advances the writer counter, one without repeats the counter before it. -/
theorem ccNextResult : Obligations.CcNextResult := by
  refine ⟨fun h pid => wordIs_of_encode_toNat (encode_ccNext_toNat h pid), fun s h pid hinv => ?_⟩
  obtain ⟨-, hW, -⟩ := hinv
  by_cases hh : h = 1
  · subst hh
    refine ⟨_, s.readW pid, exec_ccNext_payload pid s, ⟨rfl, rfl⟩, fun _ => ⟨rfl, ?_⟩, fun h0 => absurd h0 (by decide),
      fun q hq => s.readW_writeW_other pid q _ hq, rfl, rfl, rfl, rfl⟩
    rw [State.answer_readW, s.readW_writeW_same pid _ hW, BitVec.toNat_add]
    rfl
  · obtain rfl : h = 0 := by bv_omega
    exact ⟨_, s.readW pid + 15, exec_ccNext_flat pid s, ⟨rfl, rfl⟩, fun h1 => absurd h1 hh,
      fun _ => ⟨BitVec.toNat_add _ _, rfl⟩, fun _ _ => rfl, rfl, rfl, rfl, rfl⟩

/-- Settles O23: the verdict is the tracker's, and a repeat writes the entry the table already holds. -/
theorem ccValidateResult : Obligations.CcValidateResult := by
  refine ⟨fun cc di h pid => wordIs_of_encode_toNat (encode_ccValidate_toNat cc di h pid), ⟨rfl, rfl, rfl⟩,
    fun s cc di h pid hinv => ?_⟩
  obtain ⟨-, -, -, hR, -⟩ := hinv
  obtain ⟨-, hcontinuous, hduplicate, hdiscontinuous⟩ := ccCheck_spec (s.readR pid) cc h di
  have hrepeat : s.readR pid = some cc → (s.writeR pid (some cc)).R = s.R := fun hentry => by
    rw [← hentry, s.writeR_readR pid hR]
  exact ⟨_, _, exec_ccValidate cc di h pid s, ⟨rfl, rfl⟩, s.readR_writeR_same pid _ hR, hcontinuous,
    fun hrep => ⟨hduplicate hrep, hrepeat hrep.1⟩, hdiscontinuous,
    fun q hq => s.readR_writeR_other pid q _ hq, rfl, rfl, rfl, rfl⟩

end Sys2Proof.Machine
end

section
/-! ENCODE_SECTION byte by byte (42_psi.md R200, R201): the header bytes and the table data as numbers. -/

namespace Sys2Proof.Machine

theorem encodeSection_answersOnly {s : State} {v : Section} (h : s.operand = .sec v) (hv : v.wellTyped = true) :
    AnswersOnly .encodeSection s (resultResponse .bytes (encodeSection v)) :=
  answersOnly_of_next (by rw [exec, execEncodeSection, s.inSection_eq v h hv, withOperand_some])

theorem byte_eq_ofNat {x : Byte} {n : Nat} (h : x.toNat = n) : x = BitVec.ofNat 8 n := by
  rw [← h, BitVec.ofNat_toNat, BitVec.setWidth_eq]

theorem be16_eq (v : BitVec 16) : be16 v = [BitVec.ofNat 8 (v.toNat / 256), BitVec.ofNat 8 (v.toNat % 256)] := by
  rw [be16, byte_eq_ofNat (bits_toNat_top v (by decide)), byte_eq_ofNat (bits_toNat_low v 8)]
  rfl

/-- A PID behind three reserved ones, as numbers. -/
def pidNumbers (pid : Pid) : Bytes := [BitVec.ofNat 8 (224 + pid.toNat / 256), BitVec.ofNat 8 (pid.toNat % 256)]

theorem pidField_eq (pid : Pid) : pidField pid = pidNumbers pid := by
  have hhigh : ((0b111 : BitVec 3) ++ bits pid 8 5).toNat = 224 + pid.toNat / 256 := by
    rw [toNat_append_eq, bits_toNat_top pid (by decide)]
    rfl
  rw [pidField, byte_eq_ofNat hhigh, byte_eq_ofNat (bits_toNat_low pid 8)]
  rfl

theorem lengthField_eq {n : Nat} (h : n < 4096) :
    lengthField n = [BitVec.ofNat 8 (240 + n / 256), BitVec.ofNat 8 (n % 256)] := by
  have hn : (BitVec.ofNat 12 n).toNat = n := by rw [BitVec.toNat_ofNat]; omega
  have hhigh : ((0b1111 : BitVec 4) ++ bits (BitVec.ofNat 12 n) 8 4).toNat = 240 + n / 256 := by
    rw [toNat_append_eq, bits_toNat_top _ (by decide), hn]
    rfl
  rw [lengthField, byte_eq_ofNat hhigh, byte_eq_ofNat (bits_toNat_low _ 8), hn]
  rfl

/-- The eight header bytes of a section with section_length `sl`, as numbers (30_encoding.md R98). -/
def sectionHeader (tid : Byte) (pi : Bit) (ext : BitVec 16) (c : SectionCommon) (sl : Nat) : Bytes :=
  [tid, BitVec.ofNat 8 (128 + pi.toNat * 64 + 48 + sl / 256), BitVec.ofNat 8 (sl % 256),
    BitVec.ofNat 8 (ext.toNat / 256), BitVec.ofNat 8 (ext.toNat % 256),
    BitVec.ofNat 8 (192 + c.version.toNat * 2 + c.currentNext.toNat), c.sectionNumber, c.lastSectionNumber]

/-- A section value is its header, its table data and their CRC, or too long (R194, R200). -/
theorem sectionBytes_eq (tid : Byte) (pi : Bit) (ext : BitVec 16) (c : SectionCommon) (data : Bytes) :
    sectionBytes tid pi ext c data =
      if 9 + data.length > 1021 then .error (.sectionTooLong (9 + data.length))
      else .ok (withCrc (sectionHeader tid pi ext c (9 + data.length) ++ data)) := by
  rw [sectionBytes]
  by_cases hbig : 9 + data.length > 1021
  · rw [if_pos hbig, if_pos hbig]
  generalize 9 + data.length = sl at hbig
  have hsl : (BitVec.ofNat 12 sl).toNat = sl := by rw [BitVec.toNat_ofNat]; omega
  have hsyntax : ((1 : BitVec 1) ++ pi ++ (0b11 : BitVec 2) ++ bits (BitVec.ofNat 12 sl) 8 4).toNat =
      128 + pi.toNat * 64 + 48 + sl / 256 := by
    rw [toNat_append_eq, toNat_append_eq, toNat_append_eq, bits_toNat_top _ (by decide), hsl]
    simp
    omega
  have hversion : ((0b11 : BitVec 2) ++ c.version ++ c.currentNext).toNat =
      192 + c.version.toNat * 2 + c.currentNext.toNat := by
    rw [toNat_append_eq, toNat_append_eq]
    simp
    omega
  rw [if_neg hbig, if_neg hbig, byte_eq_ofNat hsyntax, byte_eq_ofNat (bits_toNat_low _ 8), hsl,
    byte_eq_ofNat hversion, be16_eq]
  rfl

/-- A PID, the length of a descriptor loop, and the loop (30_encoding.md R101). -/
def pidAndLoop (pid : Pid) (ds : List Descriptor) : Bytes :=
  pidField pid ++ lengthField (descBytes ds).length ++ descBytes ds

/-- A stream of a PMT: its stream_type, then its PID and descriptor loop (R101). -/
def streamRow (st : PmtStream) : Bytes := st.streamType :: pidAndLoop st.elementaryPid st.esInfo

theorem pmtData_eq (pcrPid : Pid) (info : List Descriptor) (streams : List PmtStream) :
    pmtData pcrPid info streams = pidAndLoop pcrPid info ++ streams.flatMap streamRow := rfl

/-- Every descriptor loop of PMT table data is part of it. -/
theorem descBytes_length_le_pmtData (pcrPid : Pid) (info : List Descriptor) (streams : List PmtStream) :
    (descBytes info).length ≤ (pmtData pcrPid info streams).length ∧
      ∀ st ∈ streams, (descBytes st.esInfo).length ≤ (pmtData pcrPid info streams).length := by
  rw [pmtData_eq]
  refine ⟨?_, fun st hst => ?_⟩
  · simp only [pidAndLoop, List.length_append]
    omega
  · have hrow : (streamRow st).length ≤ (streams.flatMap streamRow).length :=
      (List.sublist_flatten_of_mem (List.mem_map_of_mem hst)).length_le
    simp only [streamRow, pidAndLoop, List.length_cons, List.length_append] at hrow ⊢
    omega

/-- The length of a descriptor loop and the loop, as numbers. -/
def loopNumbers (ds : List Descriptor) : Bytes :=
  [BitVec.ofNat 8 (240 + (descBytes ds).length / 256), BitVec.ofNat 8 ((descBytes ds).length % 256)] ++ descBytes ds

theorem pidAndLoop_eq (pid : Pid) {ds : List Descriptor} (h : (descBytes ds).length < 4096) :
    pidAndLoop pid ds = pidNumbers pid ++ loopNumbers ds := by
  rw [pidAndLoop, pidField_eq, lengthField_eq h, List.append_assoc]
  rfl

theorem pidAndLoop_length (pid : Pid) (ds : List Descriptor) :
    (pidAndLoop pid ds).length = (pidNumbers pid ++ loopNumbers ds).length := by
  simp only [pidAndLoop, loopNumbers, List.length_append, Nat.add_assoc]
  rfl

/-- PMT table data as numbers. -/
def pmtNumbers (pcrPid : Pid) (info : List Descriptor) (streams : List PmtStream) : Bytes :=
  pidNumbers pcrPid ++ loopNumbers info ++
    streams.flatMap fun st => [st.streamType] ++ pidNumbers st.elementaryPid ++ loopNumbers st.esInfo

theorem pmtData_length (pcrPid : Pid) (info : List Descriptor) (streams : List PmtStream) :
    (pmtData pcrPid info streams).length = (pmtNumbers pcrPid info streams).length := by
  have hrow : ∀ st : PmtStream, (streamRow st).length =
      ([st.streamType] ++ pidNumbers st.elementaryPid ++ loopNumbers st.esInfo).length :=
    fun st => congrArg Nat.succ (pidAndLoop_length st.elementaryPid st.esInfo)
  rw [pmtData_eq, pmtNumbers, List.length_append, List.length_append, pidAndLoop_length, List.length_flatMap,
    List.length_flatMap, funext hrow]

/-- PMT table data that fits a section is written with its lengths whole. -/
theorem pmtData_eq_pmtNumbers {pcrPid : Pid} {info : List Descriptor} {streams : List PmtStream}
    (h : (pmtData pcrPid info streams).length ≤ 1012) :
    pmtData pcrPid info streams = pmtNumbers pcrPid info streams := by
  obtain ⟨hinfo, hstreams⟩ := descBytes_length_le_pmtData pcrPid info streams
  have hrows : streams.flatMap streamRow =
      streams.flatMap fun st => [st.streamType] ++ pidNumbers st.elementaryPid ++ loopNumbers st.esInfo := by
    refine List.flatMap_congr fun st hst => ?_
    rw [streamRow, pidAndLoop_eq _ ((hstreams st hst).trans_lt (by omega))]
    rfl
  rw [pmtData_eq, pidAndLoop_eq _ (by omega), hrows, pmtNumbers]

theorem patData_eq (programs : List PatEntry) :
    patData programs = programs.flatMap fun e => [BitVec.ofNat 8 (e.programNumber.toNat / 256),
      BitVec.ofNat 8 (e.programNumber.toNat % 256)] ++ pidNumbers e.pid := by
  simp only [patData, be16_eq, pidField_eq]

/-- The answer of ENCODE_SECTION for a section of these fields: too long, or its bytes and how many they are (R200). -/
def SectionWritten (s : State) (tid : Byte) (pi : Bit) (ext : BitVec 16) (c : SectionCommon) (data : Bytes) : Prop :=
  if 9 + data.length > 1021 then AnswersOnly .encodeSection s ⟨0x04, .sizeInfo (9 + data.length), []⟩
  else
    AnswersOnly .encodeSection s
      ⟨0x00, .bytes (withCrc (sectionHeader tid pi ext c (9 + data.length) ++ data)), []⟩ ∧
    (withCrc (sectionHeader tid pi ext c (9 + data.length) ++ data)).length = 3 + (9 + data.length)

theorem sectionWritten_of_answer {s : State} {tid : Byte} {pi : Bit} {ext : BitVec 16} {c : SectionCommon}
    {data : Bytes}
    (h : AnswersOnly .encodeSection s (resultResponse .bytes (sectionBytes tid pi ext c data))) :
    SectionWritten s tid pi ext c data := by
  rw [sectionBytes_eq] at h
  refine ite_of_answersOnly h (fun _ h => h) fun _ h => ⟨h, ?_⟩
  simp only [withCrc, sectionHeader, List.length_append, List.length_cons, List.length_nil, be32_length]
  omega

/-- A section written from one form of its table data is written from every other form: the two have one length, and
they are one byte string where it fits. -/
theorem SectionWritten.congr_data {s : State} {tid : Byte} {pi : Bit} {ext : BitVec 16} {c : SectionCommon}
    {data data' : Bytes} (h : SectionWritten s tid pi ext c data) (hlen : data.length = data'.length)
    (hfits : data.length ≤ 1012 → data = data') : SectionWritten s tid pi ext c data' := by
  by_cases hbig : 9 + data.length > 1021
  · rw [SectionWritten, if_pos hbig, hlen] at h
    rwa [SectionWritten, if_pos (hlen ▸ hbig)]
  · rwa [← hfits (by omega)]

/-- Settles O29: the table data stands in the section bytes as numbers, and `sectionBytes_eq` decides whether it fits. -/
theorem encodeSectionResult : Obligations.EncodeSectionResult := by
  refine ⟨wordIs_of_encode_toNat rfl, fun s v hs hwt => ?_⟩
  have hans := encodeSection_answersOnly hs hwt
  cases v with
  | pat tsid c programs =>
    rw [encodeSection, patData_eq] at hans
    exact sectionWritten_of_answer hans
  | pmt pn c pcrPid info streams =>
    exact (sectionWritten_of_answer hans).congr_data (pmtData_length pcrPid info streams) pmtData_eq_pmtNumbers
  | other tid pi ext c data => exact ite_of_answersOnly hans (fun _ h => h) fun _ h => sectionWritten_of_answer h

end Sys2Proof.Machine
end

section
/-! The inverse law of the section codec (42_psi.md R202): what ENCODE_SECTION lays out, DECODE_SECTION reads. -/

namespace Sys2Proof.Machine

/-- The value in the OK answer of a codec command is its codec's result. -/
theorem codec_eq_ok_of_answer {α : Type} {i : Instr} {s t : State} {out : α → Output} {r : Except ErrorStatus α} {v : α}
    (h : AnswersOnly i s (resultResponse out r)) (hnext : exec i s = .next t)
    (hr : t.responses = s.responses ++ [⟨0x00, out v, []⟩]) (hout : Function.Injective out) : r = .ok v := by
  have hresponse := response_unique h hnext hr
  cases r with
  | error e => exact absurd (congrArg Response.status hresponse).symm e.code_ne_ok
  | ok w => rw [hout (congrArg Response.out hresponse)]

/-- Each field of a section header stands at its bits (30_encoding.md R98). -/
theorem sectionHeader_layout (tid : Byte) (pi : Bit) (ext : BitVec 16) (c : SectionCommon) {sl : Nat} (h : sl ≤ 1021) :
    ∃ b1 b2 e1 e2 b5 : Byte,
      sectionHeader tid pi ext c sl = [tid, b1, b2, e1, e2, b5, c.sectionNumber, c.lastSectionNumber] ∧
      128 ≤ b1.toNat ∧ b1.toNat / 64 % 2 = pi.toNat ∧ b1.toNat % 16 * 256 + b2.toNat = sl ∧
      e1.toNat * 256 + e2.toNat = ext.toNat ∧ b5.toNat / 2 % 32 = c.version.toNat ∧
      b5.toNat % 2 = c.currentNext.toNat := by
  have hpi := pi.isLt
  have hcurrent := c.currentNext.isLt
  have hversion := c.version.isLt
  have hext := ext.isLt
  refine ⟨_, _, _, _, _, rfl, ?_, ?_, ?_, ?_, ?_, ?_⟩
  all_goals
    simp only [BitVec.toNat_ofNat]
    omega

theorem sectionCommon_eq_of_toNat_eq {c d : SectionCommon} (hversion : c.version.toNat = d.version.toNat)
    (hcurrent : c.currentNext.toNat = d.currentNext.toNat) (hnumber : c.sectionNumber = d.sectionNumber)
    (hlast : c.lastSectionNumber = d.lastSectionNumber) : c = d := by
  cases c
  cases d
  rw [SectionCommon.mk.injEq]
  exact ⟨BitVec.eq_of_toNat_eq hversion, BitVec.eq_of_toNat_eq hcurrent, hnumber, hlast⟩

/-- DECODE_SECTION of section bytes with anything behind them reaches the table dispatch with the table data, the
header fields at their bits. -/
theorem decodeSection_sectionBytes {tid : Byte} {pi : Bit} {ext : BitVec 16} {c : SectionCommon} {data x : Bytes}
    (h : sectionBytes tid pi ext c data = .ok x) (trailing : Bytes) :
    data.length ≤ 1012 ∧ ∃ s, decodeSection (x ++ trailing) = dispatchTable s data ∧ byteAt s 0 = tid ∧
      bits (byteAt s 1) 6 1 = pi ∧ field s 3 2 0 16 = ext ∧ commonOf s = c := by
  rw [sectionBytes_eq] at h
  split at h
  · cases h
  cases h
  have hmax : data.length ≤ 1012 := by omega
  obtain ⟨b1, b2, e1, e2, b5, hheader, hsyntax, hindicator, hlength, hext, hversion, hcurrent⟩ :=
    sectionHeader_layout tid pi ext c (sl := 9 + data.length) (by omega)
  obtain ⟨hextRead, hversionRead, hcurrentRead, hnumber, hlast⟩ := sectionHeader_fields tid b1 b2 e1 e2 b5
    c.sectionNumber c.lastSectionNumber (data ++ be32 (crc32 (sectionHeader tid pi ext c (9 + data.length) ++ data)) ++
      trailing)
  rw [hheader] at hextRead hversionRead hcurrentRead hnumber hlast ⊢
  exact ⟨hmax, _, decodeSection_withCrc rfl hsyntax hlength hmax, rfl, (bits_eq_iff b1 pi).mpr hindicator,
    BitVec.eq_of_toNat_eq (hextRead.trans hext),
    sectionCommon_eq_of_toNat_eq (hversionRead.trans hversion) (hcurrentRead.trans hcurrent) hnumber hlast⟩

/-- PAT table data as ENCODE_SECTION writes it is its entries with the reserved bits 1. -/
theorem parsePat_patData (programs : List PatEntry) : parsePat (patData programs) = .ok programs := by
  have hrows := parsePat_rows (programs.map fun e => (0b111, e)) (more := []) (by decide)
  rw [if_pos rfl, List.append_nil, List.flatMap_map, List.map_map] at hrows
  exact hrows.trans (congrArg Except.ok (List.map_id programs))

theorem pidAndLoop_written {pid : Pid} {ds : List Descriptor} (hwt : ds.all Descriptor.wellTyped = true)
    (hlen : (descBytes ds).length < 4096) : PidAndLoop pid ds (pidAndLoop pid ds) := by
  have hpid := pid.isLt
  rw [pidAndLoop, pidField_eq, lengthField_eq hlen]
  refine ⟨_, _, _, _, descBytes ds, rfl, ?_, ?_, fun d hd => ?_, rfl⟩
  · simp only [BitVec.toNat_ofNat]
    omega
  · simp only [BitVec.toNat_ofNat]
    omega
  · exact Nat.lt_succ_of_le (of_decide_eq_true (List.all_eq_true.mp hwt d hd))

/-- PMT table data as ENCODE_SECTION writes it is table data of its value. -/
theorem pmtTableData_pmtData {n : BitVec 16} {c : SectionCommon} {pcrPid : Pid} {info : List Descriptor}
    {streams : List PmtStream} (hwt : (Section.pmt n c pcrPid info streams).wellTyped = true)
    (hlen : (pmtData pcrPid info streams).length ≤ 1012) :
    PmtTableData pcrPid info streams (pmtData pcrPid info streams) := by
  obtain ⟨hinfo, hstreams⟩ := Bool.and_eq_true_iff.mp hwt
  obtain ⟨hinfoLen, hstreamLen⟩ := descBytes_length_le_pmtData pcrPid info streams
  refine ⟨_, streams.map fun st => (st, pidAndLoop st.elementaryPid st.esInfo), ?_,
    pidAndLoop_written hinfo (by omega), fun e he => ?_, ?_⟩
  · rw [pmtData_eq, List.flatMap_map]
    rfl
  · obtain ⟨st, hst, rfl⟩ := List.mem_map.mp he
    exact pidAndLoop_written (List.all_eq_true.mp hstreams st hst) ((hstreamLen st hst).trans_lt (by omega))
  · rw [List.map_map]
    exact (List.map_id streams).symm

/-- DECODE_SECTION of the bytes of a section value (R202), with anything behind them (R195). -/
theorem decodeSection_encodeSection {v : Section} {x : Bytes} (hwt : v.wellTyped = true) (h : encodeSection v = .ok x)
    (trailing : Bytes) : decodeSection (x ++ trailing) = .ok v := by
  cases v with
  | pat tsid c programs =>
    obtain ⟨-, s, hdecode, htid, -, hext, hcommon⟩ := decodeSection_sectionBytes h trailing
    rw [hdecode, dispatchTable_pat htid, parsePat_patData, hext, hcommon]
    rfl
  | pmt pn c pcrPid info streams =>
    obtain ⟨hlen, s, hdecode, htid, -, hext, hcommon⟩ := decodeSection_sectionBytes h trailing
    have hparse := (parsePmt_ok_iff _ _ _ _).mpr (pmtTableData_pmtData hwt hlen)
    rw [hdecode, dispatchTable_pmt htid, hparse, hext, hcommon]
    rfl
  | other tid pi ext c data =>
    rw [encodeSection] at h
    split at h
    · cases h
    rename_i htable
    obtain ⟨hpat, hpmt⟩ := not_or.mp htable
    obtain ⟨-, s, hdecode, htid, hpi, hext, hcommon⟩ := decodeSection_sectionBytes h trailing
    rw [hdecode, dispatchTable_other (htid ▸ hpat) (htid ▸ hpmt), htid, hpi, hext, hcommon]

/-- Settles O30: an OK answer holds the bytes of the value, and those decode to it. -/
theorem sectionRoundTrip : Obligations.SectionRoundTrip := by
  intro s t s' v x trailing hs hnext hr hs'
  have hwt : v.wellTyped = true := by simpa [hs, operandTyped] using operandTyped_of_next hnext
  have hencode := codec_eq_ok_of_answer (encodeSection_answersOnly hs hwt) hnext hr fun _ _ => Output.bytes.inj
  have hans := decodeSection_answersOnly hs'
  rwa [decodeSection_encodeSection hwt hencode] at hans

end Sys2Proof.Machine
end

section
/-! The checks of DECODE_SECTION (42_psi.md R191, R192) as numbers, and the one error its table parsers raise (R196). -/

namespace Sys2Proof.Machine

theorem drop_eq_byteAt_cons {b : Bytes} {i : Nat} (h : i < b.length) : b.drop i = byteAt b i :: b.drop (i + 1) := by
  rw [List.drop_eq_getElem_cons h, byteAt, List.getD_eq_getElem _ _ h]

/-- The four bytes of CRC_32 behind section_length `sl` (30_encoding.md R98). -/
abbrev crcBytes (x : Bytes) (sl : Nat) : BitVec 32 :=
  byteAt x (sl - 1) ++ byteAt x sl ++ byteAt x (sl + 1) ++ byteAt x (sl + 2)

theorem storedCrc_eq {x : Bytes} {sl : Nat} (hpos : 1 ≤ sl) (hlen : 3 + sl ≤ x.length) :
    storedCrc x sl = crcBytes x sl := by
  obtain ⟨i, rfl⟩ := Nat.exists_eq_add_of_le' hpos
  have hfour : slice x i (i + 4) = [byteAt x i, byteAt x (i + 1), byteAt x (i + 1 + 1), byteAt x (i + 1 + 2)] := by
    rw [slice, drop_eq_byteAt_cons (by omega), drop_eq_byteAt_cons (by omega), drop_eq_byteAt_cons (by omega),
      drop_eq_byteAt_cons (by omega), Nat.add_sub_cancel_left]
    rfl
  have hstart : 3 + (i + 1) - 4 = i := by omega
  rw [storedCrc, hstart, field, memRead, hfour, ← BitVec.toNat_inj]
  simp only [crcBytes, Nat.add_sub_cancel, toNat_append_eq, beNat, List.foldl_cons, List.foldl_nil, Nat.shiftRight_zero,
    BitVec.toNat_ofNat]
  have h0 := (byteAt x i).isLt
  have h1 := (byteAt x (i + 1)).isLt
  have h2 := (byteAt x (i + 1 + 1)).isLt
  have h3 := (byteAt x (i + 1 + 2)).isLt
  omega

theorem sectionLength_eq {x : Bytes} (h : 3 ≤ x.length) :
    sectionLength x = (byteAt x 1).toNat % 16 * 256 + (byteAt x 2).toNat := by
  have hlow := (byteAt x 2).isLt
  have hread : (field x 1 2 0 12).toNat = ((byteAt x 1).toNat * 256 + (byteAt x 2).toNat) % 2 ^ 12 := field_two_toNat 12 h
  rw [sectionLength, hread]
  omega

/-- `decode_section` with section_syntax_indicator and section_length `sl` as numbers (R193). -/
theorem decodeSection_eq {x : Bytes} {sl : Nat} (hsl : (byteAt x 1).toNat % 16 * 256 + (byteAt x 2).toNat = sl) :
    decodeSection x =
      if x.length < 3 then .error (.incompletePayload 3 x.length)
      else if (byteAt x 1).toNat < 128 then .error (.invalidSectionSyntax (byteAt x 1))
      else if 1021 < sl then .error (.sectionTooLong sl)
      else if x.length < 3 + sl then .error (.incompletePayload (3 + sl) x.length)
      else if sl < 9 then .error .malformedTable
      else if crcBytes x sl ≠ crc32 (x.take (sl - 1)) then .error (.crcMismatch (crcBytes x sl) (crc32 (x.take (sl - 1))))
      else dispatchTable x (slice x 8 (sl - 1)) := by
  have hsyntax : bits (byteAt x 1) 7 1 = 0 ↔ (byteAt x 1).toNat < 128 := by
    rw [← BitVec.toNat_inj, bits_toNat_top _ (by decide)]
    simp
  dsimp only [decodeSection]
  by_cases hshort : x.length < 3
  · rw [if_pos hshort, if_pos hshort]
  rw [if_neg hshort, if_neg hshort, if_congr hsyntax rfl rfl, sectionLength_eq (Nat.not_lt.mp hshort), hsl]
  by_cases hcut : x.length < 3 + sl
  · simp only [if_pos hcut]
  by_cases hsmall : sl < 9
  · simp only [if_pos hsmall]
  have hend : 3 + sl - 4 = sl - 1 := by omega
  rw [storedCrc_eq (by omega) (Nat.not_lt.mp hcut), hend]
  rfl

theorem parsePat_error {x : Bytes} {e : ErrorStatus} (h : parsePat x = .error e) : e = .malformedTable := by
  induction x using parsePat.induct with
  | case1 => cases h
  | case2 a b c d rest e' hrest ih =>
    rw [parsePat, hrest] at h
    cases h
    exact ih hrest
  | case3 a b c d rest es hrest ih =>
    rw [parsePat, hrest] at h
    cases h
  | case4 x hnil hcons =>
    rw [parsePat] at h
    · cases h
      rfl
    · exact hnil
    · exact hcons

/-- The table dispatch raises nothing but MalformedTable (R196 to R199). -/
theorem dispatchTable_error {s data : Bytes} {e : ErrorStatus} (h : dispatchTable s data = .error e) :
    e = .malformedTable := by
  by_cases hpat : byteAt s 0 = 0x00
  · rw [dispatchTable_pat hpat] at h
    cases hparse : parsePat data with
    | error e' =>
      rw [hparse] at h
      cases h
      exact parsePat_error hparse
    | ok programs => rw [hparse] at h; cases h
  by_cases hpmt : byteAt s 0 = 0x02
  · rw [dispatchTable_pmt hpmt] at h
    cases hparse : parsePmt data with
    | error e' =>
      rw [hparse] at h
      cases h
      exact parsePmt_error hparse
    | ok t => rw [hparse] at h; cases h
  · rw [dispatchTable_other hpat hpmt] at h
    cases h

/-- Settles O25: the checks stand in `decodeSection_eq`, and the table dispatch behind them has one error. -/
theorem sectionChecksInOrder : Obligations.SectionChecksInOrder := by
  intro s x hs sl stored computed
  have hans := decodeSection_answersOnly hs
  rw [decodeSection_eq rfl] at hans
  refine ite_of_answersOnly hans (fun _ h => h) fun _ hans => ite_of_answersOnly hans (fun _ h => h) fun _ hans =>
    ite_of_answersOnly hans (fun _ h => h) fun _ hans => ite_of_answersOnly hans (fun _ h => h) fun _ hans =>
    ite_of_answersOnly hans (fun _ h => h) fun _ hans => ite_of_answersOnly hans (fun _ h => h) fun _ hans => ?_
  cases htable : dispatchTable x (slice x 8 (sl - 1)) with
  | error e =>
    obtain rfl := dispatchTable_error htable
    rw [htable] at hans
    exact .inl hans
  | ok v =>
    rw [htable] at hans
    exact .inr ⟨v, hans⟩

end Sys2Proof.Machine
end

section
/-! The CRC gate and a flipped bit (42_psi.md R192, R203): the register steps are one-to-one in the register and in the
byte taken in, so one changed byte always changes the CRC. -/

namespace Sys2Proof.Machine

/-- The bit a shift drops comes back as the lowest bit: the polynomial is odd. -/
theorem crcShift_getLsbD_zero (c : BitVec 32) : (crcShift c).getLsbD 0 = c.msb := by
  rw [crcShift]
  by_cases hmsb : c.msb = true
  · simp [hmsb]
  · simp [hmsb]

theorem crcShift_injective : Function.Injective crcShift := by
  intro c d h
  have hmsb : c.msb = d.msb := by rw [← crcShift_getLsbD_zero, h, crcShift_getLsbD_zero]
  have hshift : c <<< 1 = d <<< 1 := by
    rw [crcShift, crcShift, hmsb] at h
    split at h
    · exact (BitVec.xor_left_inj _).mp h
    · exact h
  refine BitVec.eq_of_getElem_eq fun i hi => ?_
  by_cases htop : i = 31
  · subst htop
    simpa [BitVec.msb_eq_getLsbD_last] using hmsb
  · have hbit := congrArg (BitVec.getLsbD · (i + 1)) hshift
    simpa [show i + 1 < 32 by omega] using hbit

theorem crcShifts_injective (n : Nat) : Function.Injective (crcShifts n) := by
  induction n with
  | zero => exact Function.injective_id
  | succ n ih => exact ih.comp crcShift_injective

theorem crcByte_register_injective (x : Byte) : Function.Injective (crcByte · x) :=
  fun _ _ h => (BitVec.xor_left_inj _).mp (crcShifts_injective 8 h)

theorem crcByte_byte_injective (c : BitVec 32) : Function.Injective (crcByte c) := by
  intro x y h
  have htop := congrArg BitVec.toNat ((BitVec.xor_right_inj _).mp (crcShifts_injective 8 h))
  have hx := x.isLt
  have hy := y.isLt
  rw [← BitVec.toNat_inj]
  simp only [BitVec.toNat_shiftLeft, BitVec.toNat_setWidth, Nat.shiftLeft_eq] at htop
  omega

theorem foldl_crcByte_injective (x : Bytes) : Function.Injective (x.foldl crcByte) := by
  induction x with
  | nil => exact Function.injective_id
  | cons a x ih => exact ih.comp (crcByte_register_injective a)

/-- One byte put in a message leaves its CRC only where it is the byte that stood there. -/
theorem eq_of_crc32_set {x : Bytes} {k : Nat} {y : Byte} (hk : k < x.length) (h : crc32 (x.set k y) = crc32 x) :
    y = byteAt x k := by
  have hx : x = x.take k ++ byteAt x k :: x.drop (k + 1) := by rw [← drop_eq_byteAt_cons hk, List.take_append_drop]
  have hset : x.set k y = x.take k ++ y :: x.drop (k + 1) := by rw [List.set_eq_take_append_cons_drop, if_pos hk]
  rw [hset, crc32, List.foldl_append] at h
  have hcrc : crc32 x = _ := congrArg crc32 hx
  rw [hcrc, crc32, List.foldl_append] at h
  exact crcByte_byte_injective _ (foldl_crcByte_injective _ h)

theorem byteAt_set_same {x : Bytes} {k : Nat} (y : Byte) (hk : k < x.length) : byteAt (x.set k y) k = y := by
  simp [byteAt, hk]

theorem byteAt_set_other {x : Bytes} {k i : Nat} (y : Byte) (hne : k ≠ i) : byteAt (x.set k y) i = byteAt x i := by
  simp [byteAt, hne]

/-- Equal stored CRCs are equal byte by byte. -/
theorem byteAt_eq_of_crcBytes_eq {x y : Bytes} {sl i : Nat} (h : crcBytes x sl = crcBytes y sl) (hi : sl - 1 ≤ i)
    (hend : i ≤ sl + 2) : byteAt x i = byteAt y i := by
  have h0 := (byteAt x (sl - 1)).isLt
  have h1 := (byteAt x sl).isLt
  have h2 := (byteAt x (sl + 1)).isLt
  have h3 := (byteAt x (sl + 2)).isLt
  have g0 := (byteAt y (sl - 1)).isLt
  have g1 := (byteAt y sl).isLt
  have g2 := (byteAt y (sl + 1)).isLt
  have g3 := (byteAt y (sl + 2)).isLt
  rw [← BitVec.toNat_inj] at h ⊢
  simp only [crcBytes, toNat_append_eq] at h
  obtain rfl | rfl | rfl | rfl : i = sl - 1 ∨ i = sl ∨ i = sl + 1 ∨ i = sl + 2 := by omega
  all_goals omega

/-- A section with a good CRC and one byte changed has a bad one, whichever byte of the section it is. -/
theorem crcBytes_set_ne {x : Bytes} {sl k : Nat} {y : Byte} (hlen : x.length = 3 + sl) (hk : k < x.length)
    (hgood : crcBytes x sl = crc32 (x.take (sl - 1))) (hy : y ≠ byteAt x k) :
    crcBytes (x.set k y) sl ≠ crc32 ((x.set k y).take (sl - 1)) := by
  intro h
  by_cases hbody : k < sl - 1
  · have hstored : crcBytes (x.set k y) sl = crcBytes x sl := by
      rw [crcBytes, byteAt_set_other y (by omega), byteAt_set_other y (by omega), byteAt_set_other y (by omega),
        byteAt_set_other y (by omega)]
    rw [hstored, hgood, List.take_set] at h
    have hbyte := eq_of_crc32_set (by rw [List.length_take]; omega) h.symm
    exact hy (hbyte.trans (byteAt_slice x (i := 0) hbody |>.trans (by rw [Nat.zero_add])))
  · rw [List.take_set_of_le (by omega), ← hgood] at h
    have hbyte := byteAt_eq_of_crcBytes_eq h (i := k) (by omega) (by omega)
    rw [byteAt_set_same y hk] at hbyte
    exact hy hbyte

/-- A section that decodes passed every check (R191, R192). -/
theorem checks_of_decodeSection_ok {x : Bytes} {v : Section} {sl : Nat}
    (hsl : (byteAt x 1).toNat % 16 * 256 + (byteAt x 2).toNat = sl) (h : decodeSection x = .ok v) :
    128 ≤ (byteAt x 1).toNat ∧ sl ≤ 1021 ∧ 9 ≤ sl ∧ crcBytes x sl = crc32 (x.take (sl - 1)) := by
  rw [decodeSection_eq hsl] at h
  split at h
  · cases h
  split at h
  · cases h
  split at h
  · cases h
  split at h
  · cases h
  split at h
  · cases h
  split at h
  · cases h
  · rename_i hcrc
    exact ⟨by omega, by omega, by omega, not_not.mp hcrc⟩

/-- Behind good header checks the CRC gate answers a bad CRC (R192). -/
theorem decodeSection_crcMismatch {x : Bytes} {sl : Nat}
    (hsl : (byteAt x 1).toNat % 16 * 256 + (byteAt x 2).toNat = sl) (hsyntax : 128 ≤ (byteAt x 1).toNat)
    (hmax : sl ≤ 1021) (hmin : 9 ≤ sl) (hlen : x.length = 3 + sl) (hcrc : crcBytes x sl ≠ crc32 (x.take (sl - 1))) :
    decodeSection x = .error (.crcMismatch (crcBytes x sl) (crc32 (x.take (sl - 1)))) := by
  rw [decodeSection_eq hsl, if_neg (by omega), if_neg (by omega), if_neg (by omega), if_neg (by omega),
    if_neg (by omega), if_pos hcrc]

theorem flipped_toNat (b : Byte) {j : Nat} (hj : j < 8) : (b ^^^ BitVec.ofNat 8 (2 ^ j)).toNat = b.toNat ^^^ 2 ^ j := by
  have hbit : 2 ^ j < 2 ^ 8 := Nat.pow_lt_pow_right (by decide) hj
  rw [BitVec.toNat_xor, BitVec.toNat_ofNat, Nat.mod_eq_of_lt hbit]

theorem flipped_ne (b : Byte) {j : Nat} (hj : j < 8) : b ^^^ BitVec.ofNat 8 (2 ^ j) ≠ b := by
  intro h
  have hzero := (flipped_toNat b hj).symm.trans (congrArg BitVec.toNat h)
  exact (Nat.two_pow_pos j).ne' (Nat.xor_right_injective (hzero.trans (Nat.xor_zero _).symm))

/-- A flip of bit 4, 5 or 6 leaves the top bit and the low half of a byte. -/
theorem flipped_kept (b : Byte) {j : Nat} (hlow : 4 ≤ j) (hhigh : j < 7) :
    (b ^^^ BitVec.ofNat 8 (2 ^ j)).toNat % 16 = b.toNat % 16 ∧
      (b ^^^ BitVec.ofNat 8 (2 ^ j)).toNat / 128 = b.toNat / 128 := by
  have hmod : 2 ^ j % 2 ^ 4 = 0 := Nat.mod_eq_zero_of_dvd (pow_dvd_pow 2 hlow)
  have hdiv : 2 ^ j / 2 ^ 7 = 0 := Nat.div_eq_of_lt (Nat.pow_lt_pow_right (by decide) hhigh)
  rw [flipped_toNat b (by omega)]
  constructor
  · exact (Nat.xor_mod_two_pow (n := 4)).trans (by rw [hmod, Nat.xor_zero])
  · exact (Nat.xor_div_two_pow (n := 7)).trans (by rw [hdiv, Nat.xor_zero])

/-- The top bit of a byte flipped from 1 is 128 less. -/
theorem flipped_top : ∀ b : Byte, 128 ≤ b.toNat →
    b ^^^ BitVec.ofNat 8 (2 ^ 7) = b - 128 ∧ (b ^^^ BitVec.ofNat 8 (2 ^ 7)).toNat < 128 := by
  decide

/-- A flip outside section_syntax_indicator and section_length leaves both (30_encoding.md R98). -/
theorem flipBit_header_kept {x : Bytes} {k j : Nat} (hk : k < x.length) (hj : j < 8) (hsyntax : k ≠ 1 ∨ j ≠ 7)
    (hhigh : k ≠ 1 ∨ 4 ≤ j) (hlow : k ≠ 2) :
    (byteAt (flipBit x k j) 1).toNat % 16 = (byteAt x 1).toNat % 16 ∧
      (byteAt (flipBit x k j) 1).toNat / 128 = (byteAt x 1).toNat / 128 ∧ byteAt (flipBit x k j) 2 = byteAt x 2 := by
  have h2 : byteAt (flipBit x k j) 2 = byteAt x 2 := byteAt_set_other _ hlow
  by_cases hone : k = 1
  · subst hone
    have hflipped := flipped_kept (byteAt x 1) (j := j) (by omega) (by omega)
    rw [flipBit, byteAt_set_same _ hk]
    exact ⟨hflipped.1, hflipped.2, h2⟩
  · rw [flipBit, byteAt_set_other _ hone]
    exact ⟨rfl, rfl, h2⟩

/-- Settles O31: the flip leaves the header checks, and `crcBytes_set_ne` says the CRC gate sees it. -/
theorem crcGateCatchesBitFlips : Obligations.CrcGateCatchesBitFlips := by
  intro s t s' x v k j hs hnext hr hlen hk hj hs'
  have hdecode := codec_eq_ok_of_answer (decodeSection_answersOnly hs) hnext hr fun _ _ => Output.sec.inj
  obtain ⟨hsyntax, hmax, hmin, hgood⟩ := checks_of_decodeSection_ok rfl hdecode
  have hans := decodeSection_answersOnly hs'
  have hlen' : (flipBit x k j).length = x.length := List.length_set
  refine ⟨fun hnot hhigh hlow => ?_, ?_⟩
  · obtain ⟨hmod, hdiv, h2⟩ := flipBit_header_kept hk hj hnot hhigh hlow
    have hsl : (byteAt (flipBit x k j) 1).toNat % 16 * 256 + (byteAt (flipBit x k j) 2).toNat =
        (byteAt x 1).toNat % 16 * 256 + (byteAt x 2).toNat := by rw [hmod, h2]
    rw [decodeSection_crcMismatch hsl (by omega) hmax hmin (hlen'.trans hlen)
      (crcBytes_set_ne hlen hk hgood (flipped_ne _ hj))] at hans
    exact ⟨_, _, hans⟩
  · rintro rfl rfl
    obtain ⟨htop, hclear⟩ := flipped_top (byteAt x 1) hsyntax
    have h1 : byteAt (flipBit x 1 7) 1 = byteAt x 1 ^^^ BitVec.ofNat 8 (2 ^ 7) := byteAt_set_same _ hk
    rw [decodeSection_eq rfl, h1, if_neg (by omega), if_pos hclear, htop] at hans
    exact hans

end Sys2Proof.Machine
end

section
/-! ENCODE_PES byte by byte (43_pes.md R237, R238): its checks in their order, the header bytes as numbers. -/

namespace Sys2Proof.Machine

theorem encodePes_answersOnly {s : State} {p : PesPacket} (h : s.operand = .pes p) :
    AnswersOnly .encodePes s (resultResponse .bytes (encodePes p)) :=
  answersOnly_of_next (by rw [exec, execEncodePes, s.inPes_eq p h, withOperand_some])

/-- The header of a PES value is there although its stream id has none, or the other way round (R230). -/
theorem hasOptHeader_ne_isSome_iff (p : PesPacket) :
    hasOptHeader p.streamId ≠ p.header.isSome ↔
      (p.streamId ∈ ([0xBC, 0xBE, 0xBF, 0xF0, 0xF1, 0xF2, 0xF8, 0xFF] : Bytes) ↔ p.header.isSome) := by
  rw [← not_iff_not (a := _ ∈ _), ← hasOptHeader_iff]
  cases hasOptHeader p.streamId <;> cases p.header.isSome <;> decide

theorem dtsWithoutPts_iff (p : PesPacket) :
    dtsWithoutPts p = true ↔ ∃ h, p.header = some h ∧ h.pts = none ∧ h.dts ≠ none := by
  cases hp : p.header with
  | none => simp [dtsWithoutPts, hp]
  | some h => simp [dtsWithoutPts, hp, Option.isSome_iff_ne_none, and_comm]

/-- `encode_pes` with its two header checks in one and its PES_packet_length `l`, 0 when unbounded (R237, R238). -/
theorem encodePes_eq {p : PesPacket} {l : Nat} (hl : (if p.unbounded = 1 then 0 else (pesBody p).length) = l) :
    encodePes p =
      if p.streamId.toNat < 0xBC then .error (.invalidStartCode p.streamId)
      else if (p.streamId ∈ ([0xBC, 0xBE, 0xBF, 0xF0, 0xF1, 0xF2, 0xF8, 0xFF] : Bytes) ↔ p.header.isSome) ∨
          (∃ h, p.header = some h ∧ h.pts = none ∧ h.dts ≠ none) then .error .malformedPesHeader
      else if 65535 < l then .error (.payloadTooLarge l)
      else if p.unbounded = 0 ∧ l = 0 then .error .malformedPesHeader
      else .ok (pesBytes p l) := by
  subst hl
  simp only [encodePes, ← hasOptHeader_ne_isSome_iff, ← dtsWithoutPts_iff, ite_or]
  obtain hunb | hunb : p.unbounded = 0 ∨ p.unbounded = 1 := BitVec.eq_zero_or_eq_one p.unbounded
  · simp [hunb]
  · simp [hunb]

/-- PES_packet_length as two bytes (30_encoding.md R104). -/
theorem pesBytes_eq (p : PesPacket) {l : Nat} (hl : l ≤ 65535) :
    pesBytes p l = [0x00, 0x00, 0x01, p.streamId, BitVec.ofNat 8 (l / 256), BitVec.ofNat 8 (l % 256)] ++ pesBody p := by
  have hlength : (BitVec.ofNat 16 l).toNat = l := by
    rw [BitVec.toNat_ofNat]
    omega
  rw [pesBytes, be16_eq, hlength]
  rfl

theorem timestampFlags_toNat (h : PesHeader) :
    (timestampFlags h).toNat = if h.pts = none then 0 else if h.dts = none then 2 else 3 := by
  cases hpts : h.pts <;> cases hdts : h.dts <;> simp [timestampFlags, hpts, hdts]

/-- The first byte of an optional header (30_encoding.md R106). -/
theorem headerBits_toNat (h : PesHeader) :
    ((0b10 : BitVec 2) ++ h.scramblingControl ++ h.priority ++ h.dataAlignmentIndicator ++ h.copyright ++
      h.originalOrCopy).toNat = 128 + h.scramblingControl.toNat * 16 + h.priority.toNat * 8 +
        h.dataAlignmentIndicator.toNat * 4 + h.copyright.toNat * 2 + h.originalOrCopy.toNat := by
  have hmarker : (0b10 : BitVec 2).toNat = 2 := rfl
  simp only [toNat_append_eq, hmarker]
  omega

/-- The optional header as numbers. -/
theorem pesHeaderBytes_eq (h : PesHeader) :
    pesHeaderBytes h = [BitVec.ofNat 8 (128 + h.scramblingControl.toNat * 16 + h.priority.toNat * 8 +
      h.dataAlignmentIndicator.toNat * 4 + h.copyright.toNat * 2 + h.originalOrCopy.toNat),
      BitVec.ofNat 8 ((if h.pts = none then 0 else if h.dts = none then 2 else 3) * 64),
      BitVec.ofNat 8 (timestampBytes h).length] ++ timestampBytes h := by
  have hflags : (timestampFlags h ++ (0 : BitVec 6)).toNat =
      (if h.pts = none then 0 else if h.dts = none then 2 else 3) * 64 := by
    rw [toNat_append_eq, timestampFlags_toNat]
    rfl
  rw [pesHeaderBytes, byte_eq_ofNat (headerBits_toNat h), byte_eq_ofNat hflags]

/-- Settles O36: the checks stand in `encodePes_eq`, and the header bytes are numbers by `pesHeaderBytes_eq`. -/
theorem encodePesResult : Obligations.EncodePesResult := by
  refine ⟨wordIs_of_encode_toNat rfl, fun s p hs => ?_⟩
  intro opt flags body l
  have hopt : ∀ h, opt h = timestampBytes h
    | ⟨_, _, _, _, _, none, _⟩ | ⟨_, _, _, _, _, some _, none⟩ | ⟨_, _, _, _, _, some _, some _⟩ => rfl
  have hbody : body = pesBody p := by
    simp only [body, flags, hopt, pesBody]
    cases p.header with
    | none => rfl
    | some h => exact congrArg (· ++ p.payload) (pesHeaderBytes_eq h).symm
  have hl : (if p.unbounded = 1 then 0 else (pesBody p).length) = l := by rw [← hbody]
  have hans := encodePes_answersOnly hs
  rw [encodePes_eq hl] at hans
  refine ite_of_answersOnly hans (fun _ hans => hans) fun _ hans => ?_
  refine ite_of_answersOnly hans (fun _ hans => hans) fun _ hans => ?_
  refine ite_of_answersOnly hans (fun _ hans => hans) fun hfits hans => ?_
  refine ite_of_answersOnly hans (fun _ hans => hans) fun _ hans => ?_
  rwa [pesBytes_eq p (by omega), ← hbody] at hans

end Sys2Proof.Machine
end

section
/-! The inverse law of the PES codec (43_pes.md R240): what ENCODE_PES lays out, DECODE_PES reads. -/

namespace Sys2Proof.Machine

/-- A value that encodes passed every check of R237. -/
theorem checks_of_encodePes_ok {p : PesPacket} {e : Bytes} {l : Nat}
    (hl : (if p.unbounded = 1 then 0 else (pesBody p).length) = l) (h : encodePes p = .ok e) :
    0xBC ≤ p.streamId.toNat ∧ hasOptHeader p.streamId = p.header.isSome ∧
      (∀ h, p.header = some h → h.pts = none → h.dts = none) ∧ l ≤ 65535 ∧ (p.unbounded = 0 → 0 < l) ∧
      e = pesBytes p l := by
  rw [encodePes_eq hl] at h
  split at h
  · cases h
  rename_i hsid
  split at h
  · cases h
  rename_i hheader
  obtain ⟨hclass, hlone⟩ := not_or.mp hheader
  have hdts : ∀ h, p.header = some h → h.pts = none → h.dts = none :=
    fun hd hp hpts => not_not.mp fun hne => hlone ⟨hd, hp, hpts, hne⟩
  split at h
  · cases h
  rename_i hfits
  split at h
  · cases h
  rename_i hempty
  exact ⟨by omega, not_not.mp (mt (hasOptHeader_ne_isSome_iff p).mp hclass), hdts, by omega,
    fun hunb => Nat.pos_of_ne_zero (not_and.mp hempty hunb), (Except.ok.inj h).symm⟩

/-- The timestamps of a header without a lone DTS: none, a PTS, or both (R106, R237). -/
theorem timestamps_cases {h : PesHeader} (hdts : h.pts = none → h.dts = none) :
    (h.pts = none ∧ h.dts = none ∧ timestampFlags h = 0 ∧ timestampBytes h = []) ∨
    (∃ pts, h.pts = some pts ∧ h.dts = none ∧ timestampFlags h = 2 ∧ timestampBytes h = tsBytes 2 pts) ∨
    (∃ pts dts, h.pts = some pts ∧ h.dts = some dts ∧ timestampFlags h = 3 ∧
      timestampBytes h = tsBytes 3 pts ++ tsBytes 1 dts) := by
  match h with
  | ⟨_, _, _, _, _, none, none⟩ => exact .inl ⟨rfl, rfl, rfl, rfl⟩
  | ⟨_, _, _, _, _, none, some _⟩ => cases hdts rfl
  | ⟨_, _, _, _, _, some pts, none⟩ => exact .inr (.inl ⟨pts, rfl, rfl, rfl, rfl⟩)
  | ⟨_, _, _, _, _, some pts, some dts⟩ => exact .inr (.inr ⟨pts, dts, rfl, rfl, rfl, rfl⟩)

/-- The timestamps of a header without a lone DTS are read back behind any three bytes and before any payload. -/
theorem parseTimestamps_timestampBytes {h : PesHeader} (hdts : h.pts = none → h.dts = none) (b0 b1 b2 : Byte)
    (pay : Bytes) :
    parseTimestamps (timestampFlags h) (b0 :: b1 :: b2 :: (timestampBytes h ++ pay)) = .ok (h.pts, h.dts) := by
  obtain ⟨hp, hd, hflags, hbytes⟩ | ⟨pts, hp, hd, hflags, hbytes⟩ | ⟨pts, dts, hp, hd, hflags, hbytes⟩ :=
    timestamps_cases hdts
  all_goals rw [hp, hd, hflags, hbytes]
  · rfl
  · rw [parseTimestamps_pts, show slice _ 3 8 = tsBytes 2 pts from rfl, tsParse_tsBytes]
    rfl
  · rw [parseTimestamps_both, show slice _ 3 8 = tsBytes 3 pts from rfl, show slice _ 8 13 = tsBytes 1 dts from rfl,
      tsParse_tsBytes, Except.bind, tsParse_tsBytes]
    rfl

/-- PTS_DTS_flags is not 01, and the timestamp bytes are as many as it needs (R232). -/
theorem timestampBytes_length {h : PesHeader} (hdts : h.pts = none → h.dts = none) :
    (timestampFlags h).toNat ≠ 1 ∧ (timestampBytes h).length ≤ 10 ∧
      (if (timestampFlags h).toNat = 0 then 0 else if (timestampFlags h).toNat = 2 then 5 else 10) =
        (timestampBytes h).length := by
  obtain ⟨-, -, hflags, hbytes⟩ | ⟨pts, -, -, hflags, hbytes⟩ | ⟨pts, dts, -, -, hflags, hbytes⟩ :=
    timestamps_cases hdts
  all_goals
    rw [hflags, hbytes]
    exact ⟨by decide, by simp [tsBytes], rfl⟩

/-- The bit fields of an optional header's first byte are read back. -/
theorem headerBits_fields {h : PesHeader} {m : Byte}
    (hm : m.toNat = 128 + h.scramblingControl.toNat * 16 + h.priority.toNat * 8 + h.dataAlignmentIndicator.toNat * 4 +
      h.copyright.toNat * 2 + h.originalOrCopy.toNat) :
    m.toNat / 64 = 2 ∧ bits m 4 2 = h.scramblingControl ∧ bits m 3 1 = h.priority ∧
      bits m 2 1 = h.dataAlignmentIndicator ∧ bits m 1 1 = h.copyright ∧ bits m 0 1 = h.originalOrCopy := by
  have hscrambling := h.scramblingControl.isLt
  have hpriority := h.priority.isLt
  have halignment := h.dataAlignmentIndicator.isLt
  have hcopyright := h.copyright.isLt
  have horiginal := h.originalOrCopy.isLt
  simp only [bits_eq_iff, hm]
  omega

/-- The body of a header without a lone DTS and a payload decodes to both. -/
theorem decodePesBody_pesHeaderBytes {h : PesHeader} (hdts : h.pts = none → h.dts = none) (sid : Byte) (unb : Bit)
    (pay : Bytes) : decodePesBody sid unb (pesHeaderBytes h ++ pay) = .ok ⟨sid, some h, unb, pay⟩ := by
  obtain ⟨hflags, hmax, hneed⟩ := timestampBytes_length hdts
  obtain ⟨htop, hscrambling, hpriority, halignment, hcopyright, horiginal⟩ := headerBits_fields (headerBits_toNat h)
  refine (decodePesBody_whole htop (by rw [BitVec.toNat_ofNat]; omega) hflags hneed.le
    (parseTimestamps_timestampBytes hdts _ _ _ pay)).trans ?_
  simp only [pesOfBody, byteAt, List.getD_cons_zero, hscrambling, hpriority, halignment, hcopyright, horiginal]

/-- The body of a value goes to its stream id class and comes back as the value (R230). -/
theorem decodePesClass_pesBody {p : PesPacket} (hclass : hasOptHeader p.streamId = p.header.isSome)
    (hdts : ∀ h, p.header = some h → h.pts = none → h.dts = none) :
    decodePesClass p.streamId p.unbounded (pesBody p) = .ok p := by
  obtain ⟨sid, header, unb, pay⟩ := p
  cases header with
  | none => exact if_neg (Bool.eq_false_iff.mp hclass)
  | some h => exact (if_pos hclass).trans (decodePesBody_pesHeaderBytes (hdts h rfl) sid unb pay)

/-- The PES_packet_length `l` of a value that encodes fits its body, and is 0 only in an unbounded one (R234, R238). -/
theorem lengthFieldFits_encoded {p : PesPacket} {l : Nat} {trailing : Bytes}
    (hl : (if p.unbounded = 1 then 0 else (pesBody p).length) = l) (hfits : l ≤ 65535)
    (hpos : p.unbounded = 0 → 0 < l) (htrailing : p.unbounded = 1 → trailing = []) :
    LengthFieldFits (BitVec.ofNat 8 (l / 256)) (BitVec.ofNat 8 (l % 256)) (pesBody p) trailing ∧
      (if BitVec.ofNat 8 (l / 256) = 0 ∧ BitVec.ofNat 8 (l % 256) = 0 then 1 else 0) = p.unbounded := by
  obtain hunb | hunb : p.unbounded = 0 ∨ p.unbounded = 1 := BitVec.eq_zero_or_eq_one p.unbounded
  · rw [hunb, if_neg (by decide)] at hl
    subst hl
    have hnonempty := hpos hunb
    have hread : (BitVec.ofNat 8 ((pesBody p).length / 256)).toNat * 256 +
        (BitVec.ofNat 8 ((pesBody p).length % 256)).toNat = (pesBody p).length := by
      simp only [BitVec.toNat_ofNat]
      omega
    refine ⟨.inl ⟨hread, hnonempty⟩, (if_neg ?_).trans hunb.symm⟩
    rintro ⟨hhigh, hlow⟩
    rw [hhigh, hlow] at hread
    exact hnonempty.ne hread
  · rw [hunb, if_pos rfl] at hl
    subst hl
    exact ⟨.inr ⟨rfl, rfl, htrailing hunb⟩, hunb.symm⟩

/-- DECODE_PES of the bytes of a PES value (R240), with anything behind a bounded packet (R233). -/
theorem decodePes_encodePes {p : PesPacket} {e trailing : Bytes} (h : encodePes p = .ok e)
    (htrailing : p.unbounded = 1 → trailing = []) : decodePes (e ++ trailing) = .ok p := by
  obtain ⟨hsid, hclass, hdts, hfits, hpos, rfl⟩ := checks_of_encodePes_ok rfl h
  obtain ⟨hlength, hunbounded⟩ := lengthFieldFits_encoded (p := p) rfl hfits hpos htrailing
  rw [pesBytes_eq p hfits, List.append_assoc]
  refine (decodePes_framed hsid hlength).trans ?_
  rw [hunbounded]
  exact decodePesClass_pesBody hclass hdts

/-- Settles O37: an OK answer holds the bytes of the value, and those decode to it. -/
theorem pesRoundTrip : Obligations.PesRoundTrip := by
  intro s t s' p e trailing hs hnext hr htrailing hs'
  have hencode := codec_eq_ok_of_answer (encodePes_answersOnly hs) hnext hr fun _ _ => Output.bytes.inj
  have hans := decodePes_answersOnly hs'
  rwa [decodePes_encodePes hencode htrailing] at hans

end Sys2Proof.Machine
end

section
/-! SPLIT's answer (44_packetizer.md R260, R265 to R267): how many packets, and the one write of W. -/

namespace Sys2Proof.Machine

theorem encode_split_toNat (kind : Kind) (pid : Pid) :
    (encode (.split kind pid)).toNat = 0x50 * 2 ^ 24 + (bitOfKind kind).toNat * 2 ^ 15 + pid.toNat := by
  simp [encode, assemble_toNat]

/-- What a key reads as is listed under it. -/
theorem mem_of_tableRead {α : Type} {t : List (Nat × α)} {k : Nat} {v : α} (h : tableRead t k = some v) :
    (k, v) ∈ t := by
  induction t with
  | nil => cases h
  | cons e rest ih =>
    obtain ⟨k', y⟩ := e
    rw [tableRead] at h
    split at h
    · rename_i hk
      cases h
      rw [hk]
      exact List.mem_cons_self
    · exact List.mem_cons_of_mem _ (ih h)

/-- Writing back a writer counter changes nothing: a PID that is listed does not read as 0 (10_state.md R25). -/
theorem State.writeW_readW (s : State) (pid : Pid) (hW : tableWf s.W) (hzero : noZero s.W) :
    s.writeW pid (s.readW pid) = s := by
  have hread : (if s.readW pid = 0 then none else some (s.readW pid)) = tableRead s.W pid.toNat := by
    cases hr : tableRead s.W pid.toNat with
    | none => simp [State.readW, hr]
    | some c =>
      have hc : c ≠ 0 := hzero _ (mem_of_tableRead hr)
      simp only [State.readW, hr, Option.getD_some, if_neg hc]
  rw [State.writeW, hread, tableWrite_read _ _ hW]

/-- SPLIT answers its packets and advances W once (R260, R266). -/
theorem exec_split {s : State} {x : Bytes} (h : s.operand = .bytes x) (kind : Kind) (pid : Pid) :
    exec (.split kind pid) s =
      .next ((s.writeW pid (s.readW pid + BitVec.ofNat 4 (splitCount kind x))).answer
        (okResponse (.packets (splitPackets kind pid (s.readW pid) x)) [])) := by
  rw [exec, execSplit, s.inBytes_eq x h, withOperand_some]
  rfl

/-- The packets in SPLIT's answer are those of R260. -/
theorem splitPackets_of_answer {s t : State} {kind : Kind} {pid : Pid} {x : Bytes} {l : List Bytes}
    (h : s.operand = .bytes x) (hnext : exec (.split kind pid) s = .next t)
    (hr : t.responses = s.responses ++ [⟨0x00, .packets l, []⟩]) : l = splitPackets kind pid (s.readW pid) x := by
  rw [exec_split h] at hnext
  cases hnext
  have hresponse := List.singleton_inj.mp (List.append_cancel_left hr)
  exact (Output.packets.inj (congrArg Response.out hresponse)).symm

theorem splitPackets_length (kind : Kind) (pid : Pid) (w : Counter) (x : Bytes) :
    (splitPackets kind pid w x).length = splitCount kind x := by
  rw [splitPackets, List.length_map, List.length_range]

/-- The packet count is the ceiling of R265. -/
theorem splitCount_bounds (kind : Kind) {x : Bytes} (hx : x ≠ []) :
    184 * (splitCount kind x - 1) < (splitStream kind x).length ∧
      (splitStream kind x).length ≤ 184 * splitCount kind x := by
  have hpos : 0 < (splitStream kind x).length := by
    cases kind with
    | psi => exact Nat.succ_pos _
    | pes => exact List.length_pos_of_ne_nil hx
  rw [splitCount, if_neg hx]
  omega

/-- Settles O38: the count is a ceiling by `splitCount_bounds`, and an empty input writes back the counter it read. -/
theorem splitResult : Obligations.SplitResult := by
  refine ⟨fun pid => ⟨wordIs_of_encode_toNat (encode_split_toNat .pes pid),
    wordIs_of_encode_toNat (encode_split_toNat .psi pid)⟩, fun s kind pid x hinv hs => ?_⟩
  obtain ⟨-, hW, hzero, -⟩ := hinv
  refine ⟨_, _, exec_split hs kind pid, ⟨rfl, rfl⟩, ?_, ?_, ?_, splitPackets_length188 kind pid _ x, ?_,
    fun q hq => s.readW_writeW_other pid q _ hq, rfl, rfl, rfl, rfl⟩
  · rintro rfl
    have hsame : s.readW pid + BitVec.ofNat 4 (splitCount kind []) = s.readW pid := BitVec.add_zero _
    exact ⟨rfl, by rw [State.answer_W, hsame, s.writeW_readW pid hW hzero]⟩
  · rintro hx rfl
    rw [splitPackets_length]
    exact splitCount_bounds .psi hx
  · rintro hx rfl
    rw [splitPackets_length]
    exact splitCount_bounds .pes hx
  · rw [State.answer_readW, s.readW_writeW_same pid _ hW, splitPackets_length, BitVec.toNat_add, BitVec.toNat_ofNat]
    omega

end Sys2Proof.Machine
end

section
/-! The packets of a split (44_packetizer.md R260 to R264): each is ENCODE_PACKET's answer to its packet value, and
their payloads cut one stream into pieces of 184 bytes. -/

namespace Sys2Proof.Machine

variable {kind : Kind} {x : Bytes} {i : Nat}

/-- What stands before the input (R262). -/
def pointerField : Kind → Bytes
  | .psi => [0x00]
  | .pes => []

/-- How many bytes fill the last packet of a section up (R263). -/
def splitFill (kind : Kind) (x : Bytes) : Nat :=
  match kind with
  | .psi => 184 * splitCount .psi x - (x.length + 1)
  | .pes => 0

/-- What follows the pointer field: the input and, for a section, the padding. -/
def paddedInput (kind : Kind) (x : Bytes) : Bytes := x ++ List.replicate (splitFill kind x) 0xFF

/-- All the bytes the packets of a split carry. -/
def carriedStream (kind : Kind) (x : Bytes) : Bytes := pointerField kind ++ paddedInput kind x

theorem carriedStream_eq (kind : Kind) (x : Bytes) :
    carriedStream kind x = splitStream kind x ++ List.replicate (splitFill kind x) 0xFF := by
  cases kind <;> rfl

/-- A split with a packet has an input. -/
theorem ne_nil_of_lt_splitCount (h : i < splitCount kind x) : x ≠ [] := by
  rintro rfl
  exact absurd h (Nat.not_lt_zero i)

/-- Where packet `i` ends in the stream: every packet but the last within it. -/
theorem splitStream_bounds (h : i < splitCount kind x) :
    184 * i < (splitStream kind x).length ∧ (splitStream kind x).length ≤ 184 * splitCount kind x ∧
      (i + 1 < splitCount kind x → 184 * (i + 1) < (splitStream kind x).length) := by
  obtain ⟨hlow, hhigh⟩ := splitCount_bounds kind (ne_nil_of_lt_splitCount h)
  omega

/-- The padding of a section ends with its last packet (R263). -/
theorem carriedStream_length_psi (hx : x ≠ []) : (carriedStream .psi x).length = 184 * splitCount .psi x := by
  obtain ⟨-, hhigh⟩ := splitCount_bounds .psi hx
  rw [carriedStream_eq, List.length_append, List.length_replicate]
  exact Nat.add_sub_cancel' hhigh

theorem carriedStream_length_le (hx : x ≠ []) : (carriedStream kind x).length ≤ 184 * splitCount kind x := by
  cases kind with
  | psi => exact (carriedStream_length_psi hx).le
  | pes =>
    rw [carriedStream_eq, splitFill, List.replicate_zero, List.append_nil]
    exact (splitCount_bounds .pes hx).2

/-- The payload of packet `i` is its 184 bytes of the stream (R260, R263). -/
theorem splitChunk_eq_slice (h : i < splitCount kind x) :
    splitChunk kind x i = slice (carriedStream kind x) (184 * i) (184 * (i + 1)) := by
  obtain ⟨hlow, hhigh, hnext⟩ := splitStream_bounds h
  rw [carriedStream_eq]
  cases kind with
  | pes => rw [splitFill, List.replicate_zero, List.append_nil]; rfl
  | psi =>
    have hfill : 184 - (slice (splitStream .psi x) (184 * i) (184 * (i + 1))).length =
        min (184 - ((splitStream .psi x).length - 184 * i)) (splitFill .psi x) := by
      have hlen : (splitStream .psi x).length = x.length + 1 := rfl
      rw [slice_length, splitFill]
      omega
    rw [splitChunk, hfill, slice, slice, List.drop_append_of_le_length hlow.le, List.take_append, List.length_drop,
      List.take_replicate, show 184 * (i + 1) - 184 * i = 184 by omega]

/-- All packets but the last carry 184 bytes (R261). -/
theorem splitChunk_length (h : i + 1 < splitCount kind x) : (splitChunk kind x i).length = 184 := by
  obtain ⟨-, -, hnext⟩ := splitStream_bounds (Nat.lt_of_succ_lt h)
  have hend := hnext h
  rw [splitChunk_eq_slice (Nat.lt_of_succ_lt h), slice_length, carriedStream_eq, List.length_append]
  omega

/-- Consecutive pieces of a byte string make up its beginning. -/
theorem flatMap_slice (b : Bytes) (n : Nat) :
    (List.range n).flatMap (fun i => slice b (184 * i) (184 * (i + 1))) = slice b 0 (184 * n) := by
  induction n with
  | zero => simp [slice]
  | succ n ih =>
    rw [List.range_succ, List.flatMap_append, ih, List.flatMap_singleton,
      slice_append_slice _ _ _ _ (Nat.zero_le _) (by omega)]

/-- The payloads of a split, one after the other, are the stream (R260). -/
theorem flatMap_splitChunk (hx : x ≠ []) :
    (List.range (splitCount kind x)).flatMap (splitChunk kind x) = carriedStream kind x := by
  rw [List.flatMap_congr fun i hi => splitChunk_eq_slice (List.mem_range.mp hi), flatMap_slice,
    slice_eq_drop (carriedStream_length_le hx), List.drop_zero]

/-- The packet values of a split, in order. -/
def splitValues (kind : Kind) (pid : Pid) (w : Counter) (x : Bytes) : List TsPacket :=
  (List.range (splitCount kind x)).map (splitPacket kind pid w x)

variable {pid : Pid} {w : Counter} {p : TsPacket}

theorem splitPackets_eq : splitPackets kind pid w x = (splitValues kind pid w x).map framePacket := by
  rw [splitPackets, splitValues, List.map_map]
  rfl

theorem splitValues_getElem? (h : (splitValues kind pid w x)[i]? = some p) :
    i < splitCount kind x ∧ p = splitPacket kind pid w x i := by
  obtain ⟨hi, rfl⟩ := List.getElem?_eq_some_iff.mp h
  simpa [splitValues] using hi

/-- Every packet value of a split fits a packet (R260). -/
theorem packetNeed_splitPacket_le (kind : Kind) (pid : Pid) (w : Counter) (x : Bytes) (i : Nat) :
    packetNeed (splitPacket kind pid w x i) ≤ 188 := by
  have hlen : ((splitPacket kind pid w x i).payload.getD []).length ≤ 184 := splitChunk_length_le kind x i
  have haf : afContent (splitPacket kind pid w x i).af = [] := afContent_empty
  rw [packetNeed_eq, if_pos haf]
  omega

theorem decodePacket_splitPacket (kind : Kind) (pid : Pid) (w : Counter) (x : Bytes) (i : Nat) :
    decodePacket (framePacket (splitPacket kind pid w x i)) = .ok (splitPacket kind pid w x i) :=
  decodePacket_framePacket rfl (packetNeed_splitPacket_le kind pid w x i)

/-- Settles O39: each packet value is coded both ways, and `flatMap_splitChunk` joins the payloads. -/
theorem splitPacketsCarryTheInput : Obligations.SplitPacketsCarryTheInput := by
  intro s t kind pid x l hs hx hnext hr
  obtain rfl := splitPackets_of_answer hs hnext hr
  have hlen : (splitValues kind pid (s.readW pid) x).length = splitCount kind x := by simp [splitValues]
  refine ⟨splitValues kind pid (s.readW pid) x, splitFill kind x, ?_, ?_, ?_, ?_, ?_, ?_⟩
  · rw [splitPackets_eq, splitValues, List.map_map, List.map_map, List.map_map]
    exact List.map_congr_left fun i _ => decodePacket_splitPacket kind pid _ x i
  · rw [splitPackets_eq, splitValues, List.map_map, List.map_map, List.map_map]
    exact List.map_congr_left fun i _ => encodePacket_splitPacket kind pid _ x i
  · intro i p b s' hp hb hs'
    rw [splitPackets_eq, List.getElem?_map, hp] at hb
    cases hb
    obtain ⟨-, rfl⟩ := splitValues_getElem? hp
    have hans := encodePacket_answersOnly hs' rfl
    rwa [encodePacket_splitPacket] at hans
  · intro i p hp
    obtain ⟨-, rfl⟩ := splitValues_getElem? hp
    refine ⟨rfl, rfl, rfl, rfl, rfl, rfl, rfl, ?_, fun hi => splitChunk_length (hlen ▸ hi)⟩
    rw [splitPacket, BitVec.toNat_add, BitVec.toNat_ofNat]
    omega
  · rw [splitValues, List.flatMap_map]
    exact (flatMap_splitChunk hx).trans (by cases kind <;> simp [carriedStream, paddedInput, pointerField])
  · rw [splitPackets_length]
    cases kind with
    | pes => rfl
    | psi =>
      obtain ⟨hlow, hhigh⟩ := splitCount_bounds .psi hx
      simp only [splitStream, List.length_cons] at hlow hhigh
      simp only [splitFill, reduceCtorEq, if_false]
      omega

end Sys2Proof.Machine
end
section
/-! The bytes of a section or of a bounded PES packet are a whole unit: their length field declares exactly them
(45_depacketizer.md R288), and the codec of their kind reads them back. -/

namespace Sys2Proof.Machine

/-- `x` is a whole unit of kind `kind`, of the value `v`. -/
structure WholeUnit (kind : Kind) (x : Bytes) (v : UnitValue) : Prop where
  target : declaredTarget kind x = .bounded x.length
  decodes : decodeUnit kind x = .ok v

theorem WholeUnit.ne_nil {kind : Kind} {x : Bytes} {v : UnitValue} (h : WholeUnit kind x v) : x ≠ [] := by
  rintro rfl
  have htarget := h.target
  rw [declaredTarget_nil] at htarget
  cases htarget

/-- section_length counts the bytes behind it (30_encoding.md R98). -/
theorem declaredTarget_sectionBytes {tid : Byte} {pi : Bit} {ext : BitVec 16} {c : SectionCommon} {data x : Bytes}
    (h : sectionBytes tid pi ext c data = .ok x) : declaredTarget .psi x = .bounded x.length := by
  rw [sectionBytes_eq] at h
  split at h
  · cases h
  cases h
  obtain ⟨b1, b2, e1, e2, b5, hheader, -, -, hlength, -, -, -⟩ :=
    sectionHeader_layout tid pi ext c (sl := 9 + data.length) (by omega)
  have hlen : (withCrc (sectionHeader tid pi ext c (9 + data.length) ++ data)).length = 3 + (9 + data.length) := by
    simp only [withCrc, sectionHeader, List.length_append, List.length_cons, List.length_nil, be32_length]
    omega
  rw [declaredTarget_psi, hlen, if_neg (by omega), hheader, ← hlength]
  rfl

/-- The bytes of a section value are a whole unit (42_psi.md R202). -/
theorem wholeUnit_encodeSection {v : Section} {x : Bytes} (h : encodeSection v = .ok x) (hwt : v.wellTyped = true) :
    WholeUnit .psi x (.sec v) := by
  have hdecode := decodeSection_encodeSection hwt h []
  rw [List.append_nil] at hdecode
  refine ⟨?_, by rw [decodeUnit, hdecode]; rfl⟩
  cases v with
  | pat tsid c programs => exact declaredTarget_sectionBytes h
  | pmt pn c pcrPid info streams => exact declaredTarget_sectionBytes h
  | other tid pi ext c data =>
    rw [encodeSection] at h
    split at h
    · cases h
    · exact declaredTarget_sectionBytes h

/-- The bytes of a bounded PES value are a whole unit (43_pes.md R238, R240). -/
theorem wholeUnit_encodePes {p : PesPacket} {x : Bytes} (h : encodePes p = .ok x) (hbounded : p.unbounded = 0) :
    WholeUnit .pes x (.pes p) := by
  have hdecode := decodePes_encodePes (trailing := []) h fun _ => rfl
  rw [List.append_nil] at hdecode
  refine ⟨?_, by rw [decodeUnit, hdecode]; rfl⟩
  obtain ⟨-, -, -, hfits, hpos, rfl⟩ := checks_of_encodePes_ok rfl h
  rw [hbounded, if_neg (by decide)] at hfits hpos ⊢
  have hnonempty := hpos rfl
  have hread : memRead (pesBytes p (pesBody p).length) 4 2 = (pesBody p).length := by
    rw [pesBytes_eq p hfits, memRead_two (by simp)]
    simp only [byteAt, List.cons_append, List.getD_cons_succ, List.getD_cons_zero, BitVec.toNat_ofNat]
    omega
  have hlen : (pesBytes p (pesBody p).length).length = 6 + (pesBody p).length := by
    rw [pesBytes_eq p hfits, List.length_append]
    rfl
  rw [declaredTarget]
  simp only [hread, hlen, if_pos (Nat.le_add_right 6 _), if_neg hnonempty.ne', ge_iff_le]

end Sys2Proof.Machine
end

section
/-! A whole unit in the reassembly machine (45_depacketizer.md R284): what it holds after each packet of a split. -/

namespace Sys2Proof.Machine

variable {kind : Kind} {x : Bytes} {v : UnitValue} {i : Nat}

/-- The bytes of the unit in the first `i` packets of a split. -/
def gathered (kind : Kind) (x : Bytes) (i : Nat) : Bytes :=
  (paddedInput kind x).take (184 * i - (pointerField kind).length)

theorem pointerField_length_le (kind : Kind) : (pointerField kind).length ≤ 1 := by cases kind <;> decide

theorem splitStream_length (kind : Kind) (x : Bytes) :
    (splitStream kind x).length = (pointerField kind).length + x.length := by
  cases kind with
  | psi => exact Nat.add_comm _ _
  | pes => exact (Nat.zero_add _).symm

/-- The first packet carries the pointer field and the unit's first bytes (R262). -/
theorem splitChunk_zero (h : 0 < splitCount kind x) : splitChunk kind x 0 = pointerField kind ++ gathered kind x 1 := by
  have hptr := pointerField_length_le kind
  rw [splitChunk_eq_slice h, slice, carriedStream, List.drop_zero, List.take_append, List.take_of_length_le (by omega)]
  rfl

/-- Every later packet carries the unit's next bytes (R261). -/
theorem gathered_append_splitChunk (hpos : 0 < i) (h : i < splitCount kind x) :
    gathered kind x i ++ splitChunk kind x i = gathered kind x (i + 1) := by
  have hptr := pointerField_length_le kind
  rw [splitChunk_eq_slice h, slice, carriedStream, List.drop_append, List.drop_of_length_le (by omega), List.nil_append,
    gathered, gathered, ← List.take_add]
  congr 1
  omega

/-- Before the last packet the unit is short of its end, and its length field is there. -/
theorem gathered_length (hpos : 0 < i) (h : i < splitCount kind x) :
    6 ≤ (gathered kind x i).length ∧ (gathered kind x i).length < x.length := by
  have hptr := pointerField_length_le kind
  obtain ⟨hlow, -, -⟩ := splitStream_bounds h
  rw [splitStream_length] at hlow
  rw [gathered, paddedInput, List.length_take, List.length_append]
  omega

/-- The packets of a split hold the whole unit and its padding. -/
theorem gathered_splitCount (hx : x ≠ []) : gathered kind x (splitCount kind x) = paddedInput kind x := by
  have hlen := carriedStream_length_le (kind := kind) hx
  rw [carriedStream, List.length_append] at hlen
  exact List.take_of_length_le (by omega)

/-- From its first packet on the unit's target is its length (R288). -/
theorem WholeUnit.target_gathered (hu : WholeUnit kind x v) (hpos : 0 < i) (hi : i ≤ splitCount kind x) :
    declaredTarget kind (gathered kind x i) = .bounded x.length := by
  have hpadded : declaredTarget kind (paddedInput kind x) = .bounded x.length := by
    rw [paddedInput, declaredTarget_append _ _ _ (by rw [hu.target]; nofun), hu.target]
  rcases hi.lt_or_eq with hlt | rfl
  · have hknown : declaredTarget kind (gathered kind x i) ≠ .unknown := fun hunknown => by
      have hshort := length_lt_of_declaredTarget_unknown hunknown
      have hlong := (gathered_length hpos hlt).1
      split at hshort <;> omega
    obtain ⟨more, hmore⟩ : gathered kind x i <+: paddedInput kind x := List.take_prefix _ _
    rw [← hpadded, ← hmore, declaredTarget_append _ _ _ hknown]
  · rw [gathered_splitCount hu.ne_nil, hpadded]

namespace Reassembly

/-- `progress` on an accumulating slot whose target is bounded: it goes on, or delivers the unit from Idle (R291). -/
theorem progress_bounded (p : Params) {pid : Pid} {buf : Bytes} {target : Target} {n : Nat} (q : List CompletedUnit)
    (ev : List Event) (hn : declaredTarget kind buf = .bounded n) (ht : target = .unknown ∨ target = .bounded n) :
    progress p ⟨⟨pid, kind, .accumulating, buf, target⟩, q, ev⟩ =
      if buf.length < n then ⟨⟨pid, kind, .accumulating, buf, .bounded n⟩, q, ev⟩
      else deliver p (buf.take n) ⟨⟨pid, kind, .idle, [], .unknown⟩, q, ev⟩ := by
  have htarget : Slot.withTarget ⟨pid, kind, .accumulating, buf, target⟩ =
      ⟨pid, kind, .accumulating, buf, .bounded n⟩ := by
    rcases ht with rfl | rfl
    · rw [← hn]; rfl
    · rfl
  rw [progress, htarget, advance]
  by_cases hlen : buf.length < n
  · rw [if_pos hlen]
    exact if_neg (Nat.not_le.mpr hlen)
  · rw [if_neg hlen]
    exact if_pos (Nat.not_lt.mp hlen)

/-- A unit that decodes is queued where there is room (R291, R294). -/
theorem deliver_queue_of_room {p : Params} {u : Bytes} {y : Reassembly} (hv : decodeUnit y.slot.kind u = .ok v)
    (hroom : y.queue.length < p.qdepth) : (y.deliver p u).queue = y.queue ++ [⟨y.slot.pid, v⟩] := by
  rcases y.deliver_cases p u with ⟨e, he, -⟩ | ⟨v', -, hfull, -⟩ | ⟨v', hv', -, hd⟩
  · rw [hv] at he
    cases he
  · exact absurd hfull hroom.ne
  · rw [hv] at hv'
    cases hv'
    rw [hd]
    rfl

/-- With a pointer_field of 0 and nothing in progress the section starts at once (R287). -/
theorem startPsi_zero (p : Params) (d : Bytes) {y : Reassembly} (hidle : y.slot.state ≠ .accumulating) :
    y.startPsi p (0x00 :: d) = y.start p d := by
  have hfits : ¬ (0x00 : Byte).toNat > d.length := Nat.not_lt_zero _
  rw [startPsi, if_neg hfits, if_neg hidle]
  rfl

/-- The first packet of a split starts its unit in a slot with nothing in progress (R286, R287). -/
theorem run_splitPacket_zero (p : Params) (pid : Pid) (w : Counter) {y : Reassembly} (hkind : y.slot.kind = kind)
    (hidle : y.slot.state ≠ .accumulating) (h : 0 < splitCount kind x) :
    y.run p (splitPacket kind pid w x 0) .continuous = y.start p (gathered kind x 1) := by
  have hstart : y.run p (splitPacket kind pid w x 0) .continuous = y.startUnit p (splitChunk kind x 0) := rfl
  rw [hstart, splitChunk_zero h, startUnit, hkind]
  cases kind with
  | psi => exact startPsi_zero p _ hidle
  | pes => rfl

/-- A later packet of a split is appended to the unit in progress (R284). -/
theorem run_splitPacket_pos (p : Params) (pid : Pid) (w : Counter) {y : Reassembly}
    (hacc : y.slot.state = .accumulating) (hpos : 0 < i) :
    y.run p (splitPacket kind pid w x i) .continuous = y.append p (splitChunk kind x i) := by
  have hpusi : ¬ (splitPacket kind pid w x i).pusi = 1 := by simp [splitPacket, hpos.ne']
  exact (if_neg hpusi).trans (if_pos hacc)

end Reassembly

/-- What the slot and the queue are after `i` packets of the split of a whole unit, the queue having been `q`: nothing
in progress, the unit in progress, and at the end the unit queued. -/
inductive SplitProgress (kind : Kind) (pid : Pid) (x : Bytes) (v : UnitValue) (q : List CompletedUnit) :
    Nat → Slot → List CompletedUnit → Prop
  | waiting {sl : Slot} (hpid : sl.pid = pid) (hkind : sl.kind = kind) (hidle : sl.state ≠ .accumulating) :
      SplitProgress kind pid x v q 0 sl q
  | gathering {i : Nat} (hpos : 0 < i) (hi : i < splitCount kind x) :
      SplitProgress kind pid x v q i ⟨pid, kind, .accumulating, gathered kind x i, .bounded x.length⟩ q
  | completed : SplitProgress kind pid x v q (splitCount kind x) ⟨pid, kind, .idle, [], .unknown⟩ (q ++ [⟨pid, v⟩])

variable {pid : Pid} {q Q : List CompletedUnit} {sl : Slot} {p : Params}

/-- Once the bytes of one more packet are in the buffer, `progress` leaves the unit in progress or queues it. -/
theorem WholeUnit.progress_gathered (hu : WholeUnit kind x v) (hroom : q.length < p.qdepth) {target : Target}
    (ht : target = .unknown ∨ target = .bounded x.length) (ev : List Event) (hi : i < splitCount kind x)
    {y : Reassembly}
    (hy : y = Reassembly.progress p ⟨⟨pid, kind, .accumulating, gathered kind x (i + 1), target⟩, q, ev⟩) :
    SplitProgress kind pid x v q (i + 1) y.slot y.queue := by
  rw [Reassembly.progress_bounded p q ev (hu.target_gathered (Nat.succ_pos i) hi) ht] at hy
  subst hy
  rcases (show i + 1 ≤ splitCount kind x from hi).lt_or_eq with hlt | hlast
  · rw [if_pos (gathered_length (Nat.succ_pos i) hlt).2]
    exact .gathering (Nat.succ_pos i) hlt
  · have hwhole : gathered kind x (i + 1) = paddedInput kind x := by
      rw [hlast, gathered_splitCount hu.ne_nil]
    have htake : (paddedInput kind x).take x.length = x := List.take_left
    rw [hwhole, if_neg (by rw [paddedInput, List.length_append]; omega), htake, hlast, Reassembly.deliver_slot,
      Reassembly.deliver_queue_of_room hu.decodes hroom]
    exact .completed

/-- The next packet of a split, in sequence, takes the slot and the queue one packet further. -/
theorem SplitProgress.next (h : SplitProgress kind pid x v q i sl Q) (hu : WholeUnit kind x v)
    (hroom : q.length < p.qdepth) (hi : i < splitCount kind x) (w : Counter) :
    SplitProgress kind pid x v q (i + 1)
      (Reassembly.run p (splitPacket kind pid w x i) .continuous ⟨sl, Q, []⟩).slot
      (Reassembly.run p (splitPacket kind pid w x i) .continuous ⟨sl, Q, []⟩).queue := by
  cases h with
  | waiting hpid hkind hidle =>
    rw [Reassembly.run_splitPacket_zero p pid w hkind hidle hi]
    obtain ⟨ev, hstart⟩ := Reassembly.start_eq p (gathered kind x 1) ⟨sl, q, []⟩
    simp only [hpid, hkind] at hstart
    exact hu.progress_gathered hroom (.inl rfl) ev hi hstart
  | gathering hpos _ =>
    rw [Reassembly.run_splitPacket_pos p pid w rfl hpos, Reassembly.append, gathered_append_splitChunk hpos hi]
    exact hu.progress_gathered hroom (.inr rfl) [] hi rfl
  | completed => exact absurd hi (lt_irrefl _)

/-- After the last packet the unit is in the queue and the slot is Idle. -/
theorem SplitProgress.last (h : SplitProgress kind pid x v q (splitCount kind x) sl Q) (hx : x ≠ []) :
    sl = ⟨pid, kind, .idle, [], .unknown⟩ ∧ Q = q ++ [⟨pid, v⟩] := by
  have hpos : 0 < splitCount kind x := by
    have hbounds := splitCount_bounds kind hx
    omega
  generalize hn : splitCount kind x = n at h hpos
  cases h with
  | waiting => exact absurd hpos (lt_irrefl _)
  | gathering _ hi => exact absurd hn hi.ne'
  | completed => exact ⟨rfl, rfl⟩

end Sys2Proof.Machine
end

section
/-! The inverse law of SPLIT and FEED (44_packetizer.md R270): the packets of a split, fed in order. -/

namespace Sys2Proof.Machine

variable {kind : Kind} {pid : Pid} {w : Counter} {x : Bytes} {v : UnitValue} {q : List CompletedUnit} {i : Nat}
  {s : State}

/-- The first counter of a split is expected where the entry is None or the counter before it (R270). -/
theorem inSequence_first {entry : Option Counter} (h : entry = none ∨ entry = some (w - 1)) :
    InSequence entry (w + BitVec.ofNat 4 0) 1 0 := by
  rcases h with rfl | rfl
  · nofun
  · rintro last ⟨⟩
    refine .inr (.inr ⟨rfl, ?_⟩)
    bv_omega

/-- Each later counter of a split is the successor of the one before (R266). -/
theorem inSequence_succ (w : Counter) (i : Nat) :
    InSequence (some (w + BitVec.ofNat 4 i)) (w + BitVec.ofNat 4 (i + 1)) 1 0 := by
  rintro last ⟨⟩
  refine .inr (.inr ⟨rfl, ?_⟩)
  simp only [BitVec.toNat_add, BitVec.toNat_ofNat]
  omega

/-- The block after `i` packets of the split of a whole unit whose first counter is `w`. -/
structure SplitFed (kind : Kind) (pid : Pid) (w : Counter) (x : Bytes) (v : UnitValue) (q : List CompletedUnit)
    (i : Nat) (s : State) : Prop where
  inv : s.Inv
  room : q.length < s.params.qdepth
  sequence : InSequence (s.readR pid) (w + BitVec.ofNat 4 i) 1 0
  progress : ∃ sl, s.slot pid = some sl ∧ SplitProgress kind pid x v q i sl s.Q

/-- A packet of a split is fed to the slot of its PID. -/
theorem feedsOpen_splitPacket {sl : Slot} {b : Bytes} {rest : List HostInput}
    (hb : b = framePacket (splitPacket kind pid w x i)) (hin : s.inputs = feedCommand b :: rest) (hpid : pid ≠ 0x1FFF)
    (hslot : s.slot pid = some sl) : FeedsOpen s (splitPacket kind pid w x i) sl := by
  have hlen : b.length = 188 := hb ▸ framePacket_length_of_fits (packetNeed_splitPacket_le kind pid w x i)
  exact ⟨⟨b, s.operand_eq _ rest hin, hlen, hb ▸ decodePacket_splitPacket kind pid w x i⟩, hpid, rfl, hslot⟩

/-- One step feeds the next packet. -/
theorem SplitFed.step (h : SplitFed kind pid w x v q i s) (hu : WholeUnit kind x v) (hpid : pid ≠ 0x1FFF)
    (hi : i < splitCount kind x) {rest : List HostInput}
    (hin : s.inputs = feedCommand (framePacket (splitPacket kind pid w x i)) :: rest) :
    ∃ t, Machine.step s = .next t ∧ t.inputs = rest ∧ SplitFed kind pid w x v q (i + 1) t := by
  obtain ⟨hinv, hroom, hseq, sl, hslot, hprogress⟩ := h
  have hstep : Machine.step s = exec .feed s := stepRunsDecodedCommand s _ rest .feed hinv.1 hin (decode_encode .feed)
  obtain ⟨-, hcontinuous, -⟩ := ccCheck_spec (s.readR pid) (w + BitVec.ofNat 4 i) 1 0
  obtain ⟨t, hexec, hR, hslot', -, -, -, hparams, hQ, hin', -⟩ :=
    exec_feed_ends hinv (feedsOpen_splitPacket rfl hin hpid hslot) .continuous (hcontinuous hseq)
  refine ⟨t, hstep.trans hexec, by rw [hin', hin]; rfl, exec_inv hinv hexec, hparams ▸ hroom, ?_, _, hslot', ?_⟩
  · exact hR ▸ inSequence_succ w i
  · rw [hQ]
    exact hprogress.next hu hroom hi w

/-- The remaining packets, fed in order, end the split. -/
theorem SplitFed.run (hu : WholeUnit kind x v) (hpid : pid ≠ 0x1FFF) {rest : List HostInput} (m : Nat) :
    ∀ (i : Nat) (s : State), i + m = splitCount kind x → SplitFed kind pid w x v q i s →
      s.inputs = ((List.range' i m).map fun j => feedCommand (framePacket (splitPacket kind pid w x j))) ++ rest →
      ∃ t, Machine.run m s = .next t ∧ t.inputs = rest ∧ SplitFed kind pid w x v q (splitCount kind x) t := by
  induction m with
  | zero =>
    intro i s hm h hin
    exact ⟨s, rfl, hin, hm ▸ h⟩
  | succ m ih =>
    intro i s hm h hin
    obtain ⟨u, hstep, hin', hu'⟩ := h.step hu hpid (by omega) hin
    obtain ⟨t, hrun, ht⟩ := ih (i + 1) u (by omega) hu' hin'
    exact ⟨t, by rw [Machine.run, hstep]; exact hrun, ht⟩

/-- Feeding the packets of a split of a whole unit completes exactly that unit (R270). -/
theorem run_splitPackets (hu : WholeUnit kind x v) {rest : List HostInput} {sl : Slot} (hinv : s.Inv)
    (hin : s.inputs = (splitPackets kind pid w x).map feedCommand ++ rest) (hpid : pid ≠ 0x1FFF)
    (hslot : s.slot pid = some sl) (hkind : sl.kind = kind) (hidle : sl.state ≠ .accumulating)
    (hroom : s.Q.length < s.params.qdepth) (hR : s.readR pid = none ∨ s.readR pid = some (w - 1)) :
    ∃ t, run (splitPackets kind pid w x).length s = .next t ∧ t.Q = s.Q ++ [⟨pid, v⟩] ∧ t.inputs = rest ∧
      t.slot pid = some ⟨pid, kind, .idle, [], .unknown⟩ := by
  have hstart : SplitFed kind pid w x v s.Q 0 s :=
    ⟨hinv, hroom, inSequence_first hR, sl, hslot, .waiting (s.slot_some pid sl hslot).2 hkind hidle⟩
  rw [splitPackets, List.map_map, List.range_eq_range'] at hin
  obtain ⟨t, hrun, hrest, hend⟩ := SplitFed.run hu hpid _ 0 s (Nat.zero_add _) hstart hin
  obtain ⟨sl', hslot', hprogress⟩ := hend.progress
  obtain ⟨rfl, hQ⟩ := hprogress.last hu.ne_nil
  exact ⟨t, by rw [splitPackets_length]; exact hrun, hQ, hrest, hslot'⟩

/-- Settles O58: the bytes of a section are a whole unit. -/
theorem splitThenFeedGivesSection : Obligations.SplitThenFeedGivesSection := by
  intro s0 t0 s pid v x l rest sl hencode hwt hs0 hnext hr hinv hin hpid hslot hkind hidle hroom hR
  obtain rfl := splitPackets_of_answer hs0 hnext hr
  exact run_splitPackets (wholeUnit_encodeSection hencode hwt) hinv hin hpid hslot hkind hidle hroom hR

/-- Settles O59: the bytes of a bounded PES packet are a whole unit. -/
theorem splitThenFeedGivesPes : Obligations.SplitThenFeedGivesPes := by
  intro s0 t0 s pid v x l rest sl hencode hbounded hs0 hnext hr hinv hin hpid hslot hkind hidle hroom hR
  obtain rfl := splitPackets_of_answer hs0 hnext hr
  exact run_splitPackets (wholeUnit_encodePes hencode hbounded) hinv hin hpid hslot hkind hidle hroom hR

end Sys2Proof.Machine
end

section
/-! The words of the depacketizer's commands as numbers, and OPEN, CLOSE, SLOT_STATE, TAKE_COMPLETED
(45_depacketizer.md R281, R282, R298, R300). -/

namespace Sys2Proof.Machine

theorem encode_openPid_toNat (kind : Kind) (pid : Pid) :
    (encode (.openPid kind pid)).toNat = 0x60 * 2 ^ 24 + (bitOfKind kind).toNat * 2 ^ 15 + pid.toNat := by
  simp [encode, assemble_toNat]

theorem encode_closePid_toNat (pid : Pid) : (encode (.closePid pid)).toNat = 0x61 * 2 ^ 24 + pid.toNat := by
  simp [encode, assemble_toNat]

theorem encode_finish_toNat (pid : Pid) : (encode (.finish pid)).toNat = 0x63 * 2 ^ 24 + pid.toNat := by
  simp [encode, assemble_toNat]

theorem encode_slotState_toNat (pid : Pid) : (encode (.slotState pid)).toNat = 0x65 * 2 ^ 24 + pid.toNat := by
  simp [encode, assemble_toNat]

variable {s : State} {pid : Pid} {sl : Slot}

/-- The reader table of a good state is canonical (10_state.md R26). -/
theorem State.Inv.readerTable (h : s.Inv) : tableWf s.R := by
  obtain ⟨-, -, -, hR, -⟩ := h
  exact hR

/-- A free entry is one with valid = 0 (R281). -/
theorem State.hasFree_iff (s : State) : s.hasFree = true ↔ none ∈ s.S := by
  simp [State.hasFree]

/-- OPEN on an open PID writes the PID's own slot (R281). -/
theorem exec_openPid_own (kind : Kind) (h : s.slot pid = some sl) :
    exec (.openPid kind pid) s =
      .next (((s.putSlot pid (some (freshSlot pid kind))).writeR pid none).answer (okResponse .none [])) := by
  rw [exec, execOpen, if_pos (by rw [h]; rfl)]
  rfl

/-- OPEN of a PID without a slot fills the lowest free one (R281). -/
theorem exec_openPid_free (kind : Kind) (h : s.slot pid = none) (hfree : none ∈ s.S) :
    exec (.openPid kind pid) s =
      .next (((s.fillFree (freshSlot pid kind)).writeR pid none).answer (okResponse .none [])) := by
  rw [exec, execOpen, if_neg (by rw [h]; nofun), if_pos (s.hasFree_iff.mpr hfree)]
  rfl

/-- OPEN with neither an own slot nor a free one raises NoFreeSlot (R281). -/
theorem exec_openPid_full (kind : Kind) (h : s.slot pid = none) (hfull : none ∉ s.S) :
    exec (.openPid kind pid) s = .next (s.answer (errorResponse .noFreeSlot)) := by
  rw [exec, execOpen, if_neg (by rw [h]; nofun), if_neg (mt s.hasFree_iff.mp hfull)]
  rfl

/-- The entry `putSlot` replaces is the PID's slot. -/
theorem State.slot_index (h : s.slot pid = some sl) :
    s.S.findIdx (holdsPid pid) < s.S.length ∧ s.S[s.S.findIdx (holdsPid pid)]? = some (some sl) := by
  have hlt := List.findIdx_lt_length.mpr (List.any_eq_true.mp (s.any_of_slot_some pid sl h))
  refine ⟨hlt, ?_⟩
  have hfind : s.S.find? (holdsPid pid) = some (some sl) := Option.join_eq_some_iff.mp h
  simpa [List.find?_eq_getElem?_findIdx] using hfind

/-- The entry `fillFree` replaces is the lowest one that is free. -/
theorem State.free_index (h : none ∈ s.S) :
    s.S.findIdx Option.isNone < s.S.length ∧ s.S[s.S.findIdx Option.isNone]? = some none ∧
      ∀ k < s.S.findIdx Option.isNone, s.S[k]? ≠ some none := by
  have hlt := List.findIdx_lt_length (p := Option.isNone).mpr ⟨none, h, rfl⟩
  refine ⟨hlt, ?_, fun k hk hnone => ?_⟩
  · rw [List.getElem?_eq_getElem hlt, Option.isNone_iff_eq_none.mp (List.findIdx_getElem (w := hlt))]
  · obtain ⟨hlen, hk'⟩ := List.getElem?_eq_some_iff.mp hnone
    have hvalid := List.not_of_lt_findIdx hk
    rw [hk'] at hvalid
    cases hvalid

/-- Settles O40: the entry written is the one `slot_index` or `free_index` finds. -/
theorem openResult : Obligations.OpenResult := by
  refine ⟨fun pid => ⟨wordIs_of_encode_toNat (encode_openPid_toNat .pes pid),
    wordIs_of_encode_toNat (encode_openPid_toNat .psi pid)⟩,
    fun s kind pid hinv => ⟨fun hnone hfull => ?_, fun hslot => ?_⟩⟩
  · exact answersOnly_of_next (exec_openPid_full kind hnone hfull)
  have hR := hinv.readerTable
  cases h : s.slot pid with
  | some sl =>
    obtain ⟨hlt, hentry⟩ := State.slot_index h
    refine ⟨_, _, exec_openPid_own kind h, hlt, rfl, fun _ => hentry, nofun, ?_, ?_,
      fun q hq => ⟨?_, ?_⟩, rfl, rfl, rfl, rfl, rfl⟩
    · exact s.slot_putSlot_same pid sl _ h rfl
    · exact State.readR_writeR_same (s.putSlot pid _) pid none hR
    · exact State.readR_writeR_other (s.putSlot pid _) pid q none hq
    · exact s.slot_putSlot_other pid q sl _ h hq (by rintro w ⟨⟩; rfl)
  | none =>
    have hfree : none ∈ s.S := hslot.resolve_left (absurd h)
    obtain ⟨hlt, hentry, hlowest⟩ := State.free_index hfree
    have hfree' := s.hasFree_iff.mpr hfree
    refine ⟨_, _, exec_openPid_free kind h hfree, hlt, rfl, nofun, fun _ => ⟨hentry, hlowest⟩, ?_, ?_,
      fun q hq => ⟨?_, ?_⟩, rfl, rfl, rfl, rfl, rfl⟩
    · exact s.slot_fillFree_same (freshSlot pid kind) hfree' h
    · exact State.readR_writeR_same (s.fillFree _) pid none hR
    · exact State.readR_writeR_other (s.fillFree _) pid q none hq
    · exact s.slot_fillFree_other (freshSlot pid kind) q hfree' hq

/-- Settles O41: no other entry holds the PID, so it has no slot once its own is released. -/
theorem closeResult : Obligations.CloseResult := by
  refine ⟨fun pid => wordIs_of_encode_toNat (encode_closePid_toNat pid),
    fun s pid hinv => ⟨fun hnone => ?_, fun hslot => ?_⟩⟩
  · exact answersOnly_of_next (r := errorResponse .pidNotOpen) (by rw [exec, execClose, hnone]; rfl)
  obtain ⟨sl, h⟩ := Option.ne_none_iff_exists'.mp hslot
  have hnext : exec (.closePid pid) s =
      .next (((s.putSlot pid none).writeR pid none).answer (okResponse .none [])) := by rw [exec, execClose, h]; rfl
  have hR := hinv.readerTable
  refine ⟨_, hnext, ?_, ?_, fun q hq => ⟨?_, ?_⟩, List.length_set, rfl, rfl, rfl, rfl, rfl⟩
  · exact s.slot_putSlot_none pid sl h hinv.apart
  · exact State.readR_writeR_same (s.putSlot pid none) pid none hR
  · exact State.readR_writeR_other (s.putSlot pid none) pid q none hq
  · exact s.slot_putSlot_other pid q sl none h hq nofun

/-- Settles O42: the answer is `slotStatusOf` of the slot, given from the state it was asked in. -/
theorem slotStateResult : Obligations.SlotStateResult := by
  refine ⟨fun pid => wordIs_of_encode_toNat (encode_slotState_toNat pid), ⟨rfl, rfl, rfl⟩,
    fun s pid => ⟨fun hnone => ?_, fun sl hslot => ?_⟩⟩
  · exact answersOnly_of_next (r := errorResponse .pidNotOpen) (by rw [exec, execSlotState, hnone]; rfl)
  · exact ⟨slotStatusOf sl (s.readR pid), answersOnly_of_complete (by rw [exec, execSlotState, hslot]),
      rfl, rfl, rfl, rfl, rfl⟩

/-- Settles O43: the two cases of the queue are the two branches of the command. -/
theorem takeCompletedResult : Obligations.TakeCompletedResult := by
  refine ⟨wordIs_of_encode_toNat (by decide), fun s => ⟨fun hempty => ?_, fun u rest hq => ?_⟩⟩
  · exact answersOnly_of_next (r := errorResponse .queueEmpty) (by rw [exec, execTakeCompleted, hempty]; rfl)
  · have hnext : exec .takeCompleted s = .next ((s.putQ rest).answer (okResponse (.completedUnit u) [])) := by
      rw [exec, execTakeCompleted, hq]; rfl
    exact ⟨_, hnext, rfl, rfl, rfl, rfl, rfl, rfl, rfl⟩

end Sys2Proof.Machine
end

section
/-! FINISH (45_depacketizer.md R296): what becomes of the unit in progress. -/

namespace Sys2Proof.Machine

namespace Reassembly

variable {p : Params} {x : Reassembly}

/-- With no unit in progress FINISH only makes the slot Idle. -/
theorem finish_of_no_unit (p : Params) (h : x.slot.state ≠ .accumulating) : x.finish p = x.toIdle := by
  rw [finish, if_neg h]

/-- A unit in progress whose end is known is rejected: it is incomplete. -/
theorem finish_of_bounded (p : Params) (h : x.slot.state = .accumulating) (ht : x.slot.target ≠ .unbounded) :
    x.finish p = (x.emit evRejectedIncomplete).toIdle := by
  rw [finish, if_pos h, if_neg ht]

/-- An unbounded unit in progress is delivered. -/
theorem finish_of_unbounded (p : Params) (h : x.slot.state = .accumulating) (ht : x.slot.target = .unbounded) :
    x.finish p = (x.toIdle.deliver p x.slot.buf).toIdle := by
  rw [finish, if_pos h, if_pos ht]

/-- FINISH leaves an Idle slot of the same PID and kind. -/
theorem finish_slot (p : Params) (x : Reassembly) :
    (x.finish p).slot = ⟨x.slot.pid, x.slot.kind, .idle, [], .unknown⟩ := by
  have hgrows := x.finish_grows p
  rw [← hgrows.pid, ← hgrows.kind]
  rfl

end Reassembly

/-- FINISH on an open PID writes back what the reassembly machine leaves. -/
theorem exec_finish_open {s : State} {pid : Pid} {sl : Slot} (h : s.slot pid = some sl) :
    exec (.finish pid) s = .next
      (((s.putSlot pid (some (Reassembly.finish s.params ⟨sl, s.Q, []⟩).slot)).putQ
        (Reassembly.finish s.params ⟨sl, s.Q, []⟩).queue).answer
        (okResponse .none (Reassembly.finish s.params ⟨sl, s.Q, []⟩).events)) := by
  rw [exec, execFinish, h]

/-- Settles O44: the slot and the frame by `finish_slot`, the unit by the three equations of `finish`. -/
theorem finishResult : Obligations.FinishResult := by
  refine ⟨fun pid => wordIs_of_encode_toNat (encode_finish_toNat pid),
    fun s pid => ⟨fun hnone => ?_, fun sl hslot => ?_⟩⟩
  · exact answersOnly_of_next (r := errorResponse .pidNotOpen) (by rw [exec, execFinish, hnone]; rfl)
  obtain ⟨-, rfl⟩ := s.slot_some pid sl hslot
  have hidle := Reassembly.finish_slot s.params ⟨sl, s.Q, []⟩
  refine ⟨_, _, exec_finish_open hslot, ⟨rfl, rfl⟩, ?_, fun q hq => ⟨rfl, ?_⟩, rfl, List.length_set, rfl, rfl,
    fun hnounit => ?_, fun hacc hbounded => ?_, fun hacc hunbounded => ?_⟩
  · rw [hidle]
    exact s.slot_putSlot_same _ sl _ hslot rfl
  · rw [hidle]
    exact s.slot_putSlot_other _ q sl _ hslot hq (by rintro w ⟨⟩; rfl)
  · rw [Reassembly.finish_of_no_unit s.params hnounit]
    exact ⟨rfl, rfl⟩
  · rw [Reassembly.finish_of_bounded s.params hacc hbounded]
    exact ⟨rfl, rfl⟩
  · rw [Reassembly.finish_of_unbounded s.params hacc hunbounded]
    obtain ⟨ev, hev, hdelivered⟩ :=
      Reassembly.deliver_delivered s.params sl.buf (Reassembly.toIdle ⟨sl, s.Q, []⟩)
    rw [Reassembly.toIdle_events, hev]
    exact hdelivered

end Sys2Proof.Machine
end

section
/-! FEED of a packet that decodes (45_depacketizer.md R284, R285): the filters, then the tracker and the machine of its
slot. -/

namespace Sys2Proof.Machine

variable {s : State} {b : Bytes} {p : TsPacket} {sl : Slot}

theorem exec_feed_of_error {e : ErrorStatus} (hb : s.operand = .bytes b) (hlen : b.length = 188)
    (he : decodePacket b = .error e) : exec .feed s = .next (s.answer (errorResponse e)) := by
  rw [exec, execFeed, s.inPacket188_eq b hb hlen, withOperand_some, he]
  rfl

theorem exec_feed_of_ok (hb : s.operand = .bytes b) (hlen : b.length = 188) (hp : decodePacket b = .ok p) :
    exec .feed s = .next (feedPacket p s) := by
  rw [exec, execFeed, s.inPacket188_eq b hb hlen, withOperand_some, hp]

theorem feedPacket_of_nullPid (s : State) (hnull : p.pid = 0x1FFF) :
    feedPacket p s = s.answer (okResponse .none [evFilteredNullPid]) := if_pos hnull

theorem feedPacket_of_tei (s : State) (hnull : p.pid ≠ 0x1FFF) (htei : p.tei = 1) :
    feedPacket p s = s.answer (okResponse .none [evFilteredTransportError]) := by
  rw [feedPacket, if_neg hnull, if_pos htei]

theorem feedPacket_of_closed (hnull : p.pid ≠ 0x1FFF) (htei : p.tei ≠ 1) (hslot : s.slot p.pid = none) :
    feedPacket p s = s.answer (okResponse .none [evNotOpen]) := by
  rw [feedPacket, if_neg hnull, if_neg htei, hslot]

theorem feedPacket_of_open (hnull : p.pid ≠ 0x1FFF) (htei : p.tei ≠ 1) (hslot : s.slot p.pid = some sl) :
    feedPacket p s = feedSlot p sl s := by
  rw [feedPacket, if_neg hnull, if_neg htei, hslot]

/-- Settles O45: FEED shares DECODE_PACKET's decoder, and each filter answers in the state FEED was issued in. -/
theorem feedChecksAndFilters : Obligations.FeedChecksAndFilters := by
  refine ⟨wordIs_of_encode_toNat (by decide), fun s b hb hlen => ?_⟩
  have hdecode := decodePacket_answersOnly hb hlen
  cases h : decodePacket b with
  | error e =>
    rw [h] at hdecode
    exact ⟨e.code_ne_ok, answersOnly_of_next (exec_feed_of_error hb hlen h), hdecode⟩
  | ok p =>
    rw [h] at hdecode
    have hfeed := exec_feed_of_ok hb hlen h
    refine ⟨hdecode, ?_⟩
    split_ifs with hnull htei
    · exact answersOnly_of_next (hfeed.trans (congrArg _ (feedPacket_of_nullPid s hnull)))
    · exact answersOnly_of_next (hfeed.trans (congrArg _ (feedPacket_of_tei s hnull htei)))
    · exact fun hnone => answersOnly_of_next (hfeed.trans (congrArg _ (feedPacket_of_closed hnull htei hnone)))

theorem FeedsOpen.slot (h : FeedsOpen s p sl) : s.slot p.pid = some sl := by
  obtain ⟨-, -, -, hslot⟩ := h
  exact hslot

theorem FeedsOpen.pid (h : FeedsOpen s p sl) : sl.pid = p.pid := (s.slot_some p.pid sl h.slot).2

/-- Settles O46: a repeat writes back the entry and the slot that are there. -/
theorem feedDuplicate : Obligations.FeedDuplicate := by
  intro s p sl hinv hopen hpay hrep
  have hflag : presentBit p.payload = 1 := if_pos hpay
  obtain ⟨hentry, -, hduplicate, -⟩ := ccCheck_spec (s.readR p.pid) p.cc 1 p.af.di
  have hrun : Reassembly.run s.params p .duplicate ⟨sl, s.Q, []⟩ = ⟨sl, s.Q, [evDuplicate]⟩ := rfl
  have hsame : feedSlot p sl s = s.answer (okResponse .none [evDuplicate]) := by
    simp only [feedSlot, hflag, hentry, hduplicate hrep, ← hrep.1, s.writeR_readR p.pid hinv.readerTable, hrun,
      s.putSlot_slot p.pid sl hopen.slot]
    rfl
  exact answersOnly_of_next ((exec_feed_open hopen).trans (congrArg _ hsame))

end Sys2Proof.Machine
end

section
/-! FEED on an open PID by the tracker's verdict (45_depacketizer.md R284, R286, R290, R295, R305). -/

namespace Sys2Proof.Machine

namespace Reassembly

/-- Losing the unit in progress empties the slot and reports the discontinuity first (R286). -/
theorem lose_eq (sl : Slot) (q : List CompletedUnit) :
    lose ⟨sl, q, []⟩ = ⟨⟨sl.pid, sl.kind, .discarding, [], .unknown⟩, q,
      [⟨3, 0⟩] ++ if sl.state = .accumulating then [⟨4, 0⟩] else []⟩ := by
  obtain ⟨hslot, hqueue, hevents⟩ := lose_parts sl q
  calc lose ⟨sl, q, []⟩ = ⟨(lose ⟨sl, q, []⟩).slot, (lose ⟨sl, q, []⟩).queue, (lose ⟨sl, q, []⟩).events⟩ := rfl
    _ = _ := by rw [hslot, hqueue, hevents]; rfl

/-- A packet without a payload passes the machine by (R290). -/
theorem takePayload_of_none {pkt : TsPacket} (p : Params) (x : Reassembly) (h : pkt.payload = none) :
    x.takePayload p pkt = x := by
  rw [takePayload, h]

theorem takePayload_of_start {pkt : TsPacket} {pay : Bytes} (p : Params) (x : Reassembly) (h : pkt.payload = some pay)
    (hpusi : pkt.pusi = 1) : x.takePayload p pkt = x.startUnit p pay := by
  rw [takePayload, h]
  exact if_pos hpusi

theorem takePayload_of_continuation {pkt : TsPacket} {pay : Bytes} (p : Params) (x : Reassembly)
    (h : pkt.payload = some pay) (hpusi : pkt.pusi = 0) : x.takePayload p pkt = x.continueUnit p pay := by
  rw [takePayload, h]
  exact if_neg (by rw [hpusi]; decide)

end Reassembly

variable {s : State} {p : TsPacket} {sl : Slot}

/-- A packet in sequence goes to the machine as it is. -/
theorem feedEnds_inSequence {h : Bit} (hinv : s.Inv) (hopen : FeedsOpen s p sl) (hflag : presentBit p.payload = h)
    (hseq : InSequence (s.readR p.pid) p.cc h p.af.di) {y : Reassembly}
    (hy : Reassembly.takePayload s.params p ⟨sl, s.Q, []⟩ = y) :
    FeedEnds s p.pid (some p.cc) y.slot y.queue y.events := by
  subst hflag hy
  obtain ⟨-, hcontinuous, -, -⟩ := ccCheck_spec (s.readR p.pid) p.cc (presentBit p.payload) p.af.di
  exact exec_feed_ends hinv hopen .continuous (hcontinuous hseq)

/-- A packet out of sequence goes to the machine after the unit in progress is lost (R286). -/
theorem feedEnds_lost {h : Bit} (hinv : s.Inv) (hopen : FeedsOpen s p sl) (hflag : presentBit p.payload = h)
    (hseq : ¬ InSequence (s.readR p.pid) p.cc h p.af.di) (hrep : ¬ Repeated (s.readR p.pid) p.cc h p.af.di)
    {y : Reassembly}
    (hy : Reassembly.takePayload s.params p ⟨⟨p.pid, sl.kind, .discarding, [], .unknown⟩, s.Q,
      [⟨3, 0⟩] ++ if sl.state = .accumulating then [⟨4, 0⟩] else []⟩ = y) :
    FeedEnds s p.pid (some p.cc) y.slot y.queue y.events := by
  subst hflag hy
  obtain ⟨-, -, -, hdiscontinuous⟩ := ccCheck_spec (s.readR p.pid) p.cc (presentBit p.payload) p.af.di
  have hends := exec_feed_ends hinv hopen .discontinuous (hdiscontinuous hseq hrep)
  rwa [Reassembly.run, Reassembly.lose_eq, hopen.pid] at hends

/-- Settles O47: without a payload only the tracker acts; a repeat needs a payload. -/
theorem feedWithoutPayload : Obligations.FeedWithoutPayload := by
  intro s p sl hinv hopen hnone
  have hflag : presentBit p.payload = 0 := by rw [hnone]; rfl
  refine ⟨fun hseq => ?_, fun hseq => ?_⟩
  · exact feedEnds_inSequence hinv hopen hflag hseq (Reassembly.takePayload_of_none _ _ hnone)
  · have hrep : ¬ Repeated (s.readR p.pid) p.cc 0 p.af.di := fun ⟨_, h0, _⟩ => absurd h0 (by decide)
    have hends := feedEnds_lost hinv hopen hflag hseq hrep (Reassembly.takePayload_of_none _ _ hnone)
    split_ifs at hends ⊢ <;> exact hends

/-- Settles O48: after a loss the slot is Discarding, so a continuation is ignored there too (R295). -/
theorem feedIgnoresContinuation : Obligations.FeedIgnoresContinuation := by
  intro s p sl hinv hopen hpay hpusi
  have hflag : presentBit p.payload = 1 := if_pos hpay
  obtain ⟨pay, hpay⟩ := Option.isSome_iff_exists.mp hpay
  refine ⟨fun hidle hseq => ?_, fun hseq hrep => ?_⟩
  · refine feedEnds_inSequence hinv hopen hflag hseq (y := ⟨sl, s.Q, [evIgnored]⟩) ?_
    rw [Reassembly.takePayload_of_continuation _ _ hpay hpusi]
    exact if_neg hidle
  · have hends := feedEnds_lost hinv hopen hflag hseq hrep (Reassembly.takePayload_of_continuation _ _ hpay hpusi)
    split_ifs at hends ⊢ <;> exact hends

end Sys2Proof.Machine
end

section
/-! FEED of a payload that is accumulated (45_depacketizer.md R284, R286 to R288, R291 to R294, R299). -/

namespace Sys2Proof.Machine

namespace Reassembly

variable {p : Params} {x : Reassembly} {pay : Bytes}

/-- Bytes after the length field leave the target as it is declared, so an append is a step of `progress` (R288). -/
theorem append_accumulated (d : Bytes) (hacc : x.slot.state = .accumulating) (hwf : x.slot.wf p) :
    ∃ ev, (x.append p d).events = x.events ++ ev ∧
      Accumulated p x.slot.pid x.slot.kind (x.slot.buf ++ d) x.queue (x.append p d).slot (x.append p d).queue ev := by
  refine progress_accumulated p ⟨{ x.slot with buf := x.slot.buf ++ d }, x.queue, x.events⟩ hacc ?_
  by_cases ht : x.slot.target = .unknown
  · exact .inl ht
  · rw [hwf.target_eq] at ht
    exact .inr (hwf.target_eq.trans (declaredTarget_append _ _ d ht).symm)

/-- The payload is empty or its pointer_field runs past its end (R287). -/
abbrev PointerOverruns (pay : Bytes) : Prop := pay = [] ∨ pay.length < 1 + (byteAt pay 0).toNat

theorem startPsi_of_overrun (p : Params) (x : Reassembly) (h : PointerOverruns pay) :
    x.startPsi p pay = (x.emit evDroppedPointerOverrun).drop := by
  cases pay with
  | nil => rfl
  | cons ptr rest =>
    have hlong : ptr.toNat > rest.length := by
      have hlen : rest.length + 1 < 1 + ptr.toNat := h.resolve_left nofun
      omega
    exact if_pos hlong

/-- The pointed bytes end the section in progress, if there is one, and the new section starts behind them (R287). -/
theorem startPsi_of_fits (p : Params) (x : Reassembly) (h : ¬ PointerOverruns pay) :
    x.startPsi p pay =
      start p (pay.drop (1 + (byteAt pay 0).toNat))
        (if x.slot.state = .accumulating then x.append p ((pay.drop 1).take (byteAt pay 0).toNat) else x) := by
  obtain ⟨hne, hlong⟩ := not_or.mp h
  cases pay with
  | nil => exact absurd rfl hne
  | cons ptr rest =>
    have hfits : ¬ ptr.toNat > rest.length := by
      have hlen : ¬ rest.length + 1 < 1 + ptr.toNat := hlong
      omega
    have hdrop : (ptr :: rest).drop (1 + ptr.toNat) = rest.drop ptr.toNat := by rw [Nat.add_comm]; rfl
    rw [startPsi, if_neg hfits]
    exact congrArg (start p · _) hdrop.symm

end Reassembly

variable {s : State} {p : TsPacket}

/-- Settles O49: the slot of a good state has the target its buffer declares. -/
theorem feedAppends : Obligations.FeedAppends := by
  intro s p sl pay hinv hopen hpay hpusi hacc hseq
  have happend : Reassembly.takePayload s.params p ⟨sl, s.Q, []⟩ = Reassembly.append s.params pay ⟨sl, s.Q, []⟩ :=
    (Reassembly.takePayload_of_continuation _ _ hpay hpusi).trans (if_pos hacc)
  have hends := feedEnds_inSequence hinv hopen (by rw [hpay]; rfl) hseq happend
  obtain ⟨ev, hev, haccumulated⟩ :=
    Reassembly.append_accumulated (x := ⟨sl, s.Q, []⟩) pay hacc (hinv.slot_wf hopen.slot)
  rw [hev] at hends
  rw [hopen.pid] at haccumulated
  exact ⟨_, _, ev, hends, haccumulated⟩

/-- Settles O50: the unit starts in the slot as it is, or in the one the loss has emptied. -/
theorem feedStartsPes : Obligations.FeedStartsPes := by
  intro s p sl pay hinv hopen hpay hpusi hkind hrep lost
  have hstart : ∀ x : Reassembly, x.slot.kind = .pes → x.takePayload s.params p = x.start s.params pay :=
    fun x hx => by rw [Reassembly.takePayload_of_start _ _ hpay hpusi, Reassembly.startUnit, hx]
  have hflag : presentBit p.payload = 1 := by rw [hpay]; rfl
  by_cases hseq : InSequence (s.readR p.pid) p.cc 1 p.af.di
  · have hlost : lost = if sl.state = .accumulating then [⟨4, 1⟩] else [] := if_pos hseq
    have hends := feedEnds_inSequence hinv hopen hflag hseq (hstart _ hkind)
    obtain ⟨ev, hev, haccumulated⟩ := Reassembly.start_accumulated s.params pay ⟨sl, s.Q, []⟩
    rw [hev, List.nil_append] at hends
    rw [hopen.pid, hkind] at haccumulated
    exact ⟨_, _, ev, hlost ▸ hends, haccumulated⟩
  · have hlost : lost = [⟨3, 0⟩] ++ if sl.state = .accumulating then [⟨4, 0⟩] else [] := if_neg hseq
    have hends := feedEnds_lost hinv hopen hflag hseq hrep (hstart _ hkind)
    obtain ⟨ev, hev, haccumulated⟩ :=
      Reassembly.start_accumulated s.params pay ⟨⟨p.pid, sl.kind, .discarding, [], .unknown⟩, s.Q, lost⟩
    rw [← hlost, hev, if_neg nofun, List.append_nil] at hends
    rw [hkind] at haccumulated hends
    exact ⟨_, _, ev, hends, haccumulated⟩

/-- A section starts in a slot with nothing in progress, or its pointer_field overruns (R287). -/
theorem feedEnds_startPsi {st : SlotPhase} {buf pay : Bytes} {target : Target} {lost : List Event} {y : Reassembly}
    (hidle : st ≠ .accumulating)
    (hy : y = Reassembly.startPsi s.params pay ⟨⟨p.pid, .psi, st, buf, target⟩, s.Q, lost⟩)
    (hends : FeedEnds s p.pid (some p.cc) y.slot y.queue y.events) :
    if Reassembly.PointerOverruns pay then
      FeedEnds s p.pid (some p.cc) ⟨p.pid, .psi, .discarding, [], .unknown⟩ s.Q (lost ++ [⟨4, 2⟩])
    else
      ∃ sl' q' ev, FeedEnds s p.pid (some p.cc) sl' q' (lost ++ ev) ∧
        Accumulated s.params p.pid .psi (pay.drop (1 + (byteAt pay 0).toNat)) s.Q sl' q' ev := by
  split_ifs with hover
  · rw [Reassembly.startPsi_of_overrun _ _ hover] at hy
    subst hy
    exact hends
  · rw [Reassembly.startPsi_of_fits _ _ hover, if_neg hidle] at hy
    obtain ⟨ev, hev, haccumulated⟩ := Reassembly.start_accumulated s.params (pay.drop (1 + (byteAt pay 0).toNat))
      ⟨⟨p.pid, .psi, st, buf, target⟩, s.Q, lost⟩
    rw [if_neg hidle, List.append_nil] at hev
    rw [← hy] at hev haccumulated
    exact ⟨_, _, ev, hev ▸ hends, haccumulated⟩

/-- A payload with pusi = 1 goes to the pointer_field of a PSI slot. -/
theorem takePayload_psi {pay : Bytes} (P : Params) (hpay : p.payload = some pay) (hpusi : p.pusi = 1) {x : Reassembly}
    (hkind : x.slot.kind = .psi) : x.takePayload P p = x.startPsi P pay := by
  rw [Reassembly.takePayload_of_start _ _ hpay hpusi, Reassembly.startUnit, hkind]

/-- Settles O51: in sequence the slot has nothing in progress, and after a loss it is Discarding. -/
theorem feedStartsSection : Obligations.FeedStartsSection := by
  intro s p sl pay hinv hopen hpay hpusi hkind hrep hnounit lost n
  have hflag : presentBit p.payload = 1 := by rw [hpay]; rfl
  by_cases hseq : InSequence (s.readR p.pid) p.cc 1 p.af.di
  · have hlost : lost = [] := if_pos hseq
    have hends := feedEnds_inSequence hinv hopen hflag hseq (takePayload_psi s.params hpay hpusi hkind)
    have hidle : sl.state ≠ .accumulating := fun hacc => hnounit hacc hseq
    have hsl : sl = ⟨p.pid, .psi, sl.state, sl.buf, sl.target⟩ := by rw [← hopen.pid, ← hkind]
    exact feedEnds_startPsi hidle (by rw [← hsl, hlost]) hends
  · have hlost : lost = [⟨3, 0⟩] ++ if sl.state = .accumulating then [⟨4, 0⟩] else [] := if_neg hseq
    have hends := feedEnds_lost hinv hopen hflag hseq hrep (takePayload_psi s.params hpay hpusi hkind)
    exact feedEnds_startPsi (st := .discarding) nofun (by rw [hlost, hkind]) hends

/-- Settles O52: the pointed bytes are appended to the section in progress, and the next one starts on the slot and the
queue this leaves (R299). -/
theorem feedPointerTail : Obligations.FeedPointerTail := by
  intro s p sl pay hinv hopen hpay hpusi hkind hacc hseq n
  have hends := feedEnds_inSequence hinv hopen (by rw [hpay]; rfl) hseq (takePayload_psi s.params hpay hpusi hkind)
  split_ifs with hover
  · rw [Reassembly.startPsi_of_overrun _ _ hover] at hends
    have hdropped : sl.emptied .discarding = ⟨p.pid, .psi, .discarding, [], .unknown⟩ := by
      rw [← hopen.pid, ← hkind]
      rfl
    exact hdropped ▸ hends
  · rw [Reassembly.startPsi_of_fits _ _ hover, if_pos hacc] at hends
    obtain ⟨ev₁, hev₁, htail⟩ := Reassembly.append_accumulated (x := ⟨sl, s.Q, []⟩) ((pay.drop 1).take n) hacc
      (hinv.slot_wf hopen.slot)
    have hgrows := Reassembly.append_grows s.params ((pay.drop 1).take n) ⟨sl, s.Q, []⟩
    obtain ⟨ev₂, hev₂, hnext⟩ := Reassembly.start_accumulated s.params (pay.drop (1 + n))
      (Reassembly.append s.params ((pay.drop 1).take n) ⟨sl, s.Q, []⟩)
    rw [hev₁, List.nil_append] at hev₂
    rw [hgrows.pid, hgrows.kind] at hnext
    simp only [hopen.pid, hkind] at htail hnext
    exact ⟨_, _, ev₁, _, _, ev₂, htail, hnext, hev₂ ▸ hends⟩

end Sys2Proof.Machine
end

section
/-! What a FEED does depends on the queue by its length only (45_depacketizer.md R303): a queue in front of the units
the machine has appended is carried along, and takes its length from the room there is. -/

namespace Sys2Proof.Machine

/-- The parameters of a machine that starts with an empty queue where `n` units are queued already. -/
def withQueued (p : Params) (n : Nat) : Params := { p with qdepth := p.qdepth - n }

namespace Reassembly

/-- `x` with the units `q` queued before its own. -/
def behind (q : List CompletedUnit) (x : Reassembly) : Reassembly := { x with queue := q ++ x.queue }

@[simp] theorem behind_slot (q : List CompletedUnit) (x : Reassembly) : (x.behind q).slot = x.slot := rfl
@[simp] theorem behind_queue (q : List CompletedUnit) (x : Reassembly) : (x.behind q).queue = q ++ x.queue := rfl

variable {p : Params} {q : List CompletedUnit} (hq : q.length ≤ p.qdepth)
include hq

theorem deliver_behind (u : Bytes) (x : Reassembly) :
    (x.behind q).deliver p u = (x.deliver (withQueued p q.length) u).behind q := by
  have hroom : (q ++ x.queue).length = p.qdepth ↔ x.queue.length = p.qdepth - q.length := by
    rw [List.length_append]
    omega
  unfold deliver
  rw [behind_slot, behind_queue]
  cases decodeUnit x.slot.kind u with
  | error e => rfl
  | ok v =>
    dsimp only
    rw [apply_ite (behind q)]
    simp only [hroom, List.append_assoc]
    rfl

theorem advance_behind (x : Reassembly) :
    (x.behind q).advance p = (x.advance (withQueued p q.length)).behind q := by
  unfold advance
  rw [behind_slot]
  cases x.slot.target with
  | unknown => rfl
  | unbounded =>
    dsimp only
    rw [apply_ite (behind q)]
    rfl
  | bounded n =>
    dsimp only
    rw [apply_ite (behind q), ← deliver_behind hq]
    rfl

theorem progress_behind (x : Reassembly) :
    (x.behind q).progress p = (x.progress (withQueued p q.length)).behind q :=
  advance_behind hq { x with slot := x.slot.withTarget }

theorem append_behind (d : Bytes) (x : Reassembly) :
    (x.behind q).append p d = (x.append (withQueued p q.length) d).behind q :=
  progress_behind hq { x with slot := { x.slot with buf := x.slot.buf ++ d } }

theorem start_behind (d : Bytes) (x : Reassembly) :
    (x.behind q).start p d = (x.start (withQueued p q.length) d).behind q := by
  unfold start
  rw [← progress_behind hq, behind_slot]
  by_cases hacc : x.slot.state = .accumulating
  · rw [if_pos hacc, if_pos hacc]
    rfl
  · rw [if_neg hacc, if_neg hacc]
    rfl

theorem startPsi_behind (pay : Bytes) (x : Reassembly) :
    (x.behind q).startPsi p pay = (x.startPsi (withQueued p q.length) pay).behind q := by
  by_cases hover : PointerOverruns pay
  · rw [startPsi_of_overrun _ _ hover, startPsi_of_overrun _ _ hover]
    rfl
  · rw [startPsi_of_fits _ _ hover, startPsi_of_fits _ _ hover, ← start_behind hq, append_behind hq]
    congr 1
    exact (apply_ite (behind q) _ _ _).symm

theorem takePayload_behind (pkt : TsPacket) (x : Reassembly) :
    (x.behind q).takePayload p pkt = (x.takePayload (withQueued p q.length) pkt).behind q := by
  unfold takePayload
  cases pkt.payload with
  | none => rfl
  | some pay =>
    dsimp only
    rw [apply_ite (behind q)]
    congr 1
    · unfold startUnit
      rw [behind_slot]
      cases x.slot.kind with
      | psi => exact startPsi_behind hq pay x
      | pes => exact start_behind hq pay x
    · unfold continueUnit
      rw [apply_ite (behind q), ← append_behind hq]
      rfl

theorem run_behind (pkt : TsPacket) (v : Verdict) (x : Reassembly) :
    (x.behind q).run p pkt v = (x.run (withQueued p q.length) pkt v).behind q := by
  cases v with
  | continuous => exact takePayload_behind hq pkt x
  | discontinuous =>
    have hlose : (x.behind q).lose = x.lose.behind q := by
      unfold lose
      rw [apply_ite drop, apply_ite drop, apply_ite (behind q)]
      rfl
    rw [run, run, hlose]
    exact takePayload_behind hq pkt x.lose
  | duplicate => rfl

end Reassembly

variable {s : State} {p : TsPacket} {sl : Slot}

/-- The machine of a FEED as its PID alone makes it: the packet's reader entry, its slot, and the room in the queue. -/
def feedRun (P : Params) (p : TsPacket) (entry : Option Counter) (sl : Slot) (n : Nat) : Reassembly :=
  Reassembly.run (withQueued P n) p (ccCheck entry p.cc (presentBit p.payload) p.af.di).1 ⟨sl, [], []⟩

/-- FEED leaves what `feedRun` gives, its units behind those in the queue. -/
theorem feedSlot_feedRun (hinv : s.Inv) (hslot : s.slot p.pid = some sl) :
    let y := feedRun s.params p (s.readR p.pid) sl s.Q.length
    (feedSlot p sl s).readR p.pid = some p.cc ∧ (feedSlot p sl s).slot p.pid = some y.slot ∧
      (feedSlot p sl s).Q = s.Q ++ y.queue ∧
      (feedSlot p sl s).responses = s.responses ++ [okResponse .none y.events] := by
  obtain ⟨hentry, -⟩ := ccCheck_spec (s.readR p.pid) p.cc (presentBit p.payload) p.af.di
  have hrun : Reassembly.run s.params p (ccCheck (s.readR p.pid) p.cc (presentBit p.payload) p.af.di).1 ⟨sl, s.Q, []⟩ =
      (feedRun s.params p (s.readR p.pid) sl s.Q.length).behind s.Q := by
    rw [feedRun, ← Reassembly.run_behind hinv.queue.1, Reassembly.behind, List.append_nil]
  have hpid : (feedRun s.params p (s.readR p.pid) sl s.Q.length).slot.pid = p.pid :=
    (Reassembly.run_pid ..).trans (s.slot_some p.pid sl hslot).2
  rw [feedSlot, hrun, hentry]
  exact ⟨s.readR_writeR_same p.pid _ hinv.readerTable,
    (s.writeR p.pid (some p.cc)).slot_putSlot_same p.pid sl _ hslot hpid, rfl, rfl⟩

/-- Settles O54: a filtered packet is answered alike in every state, and one that is fed leaves what `feedRun` gives,
which the two states agree on. -/
theorem feedReadsOnlyItsPid : Obligations.FeedReadsOnlyItsPid := by
  intro s s' t t' b p hinv hinv' hb hb' hp hparams hR hslot hlen hnext hnext'
  have h188 : b.length = 188 := by
    have htyped := operandTyped_of_next hnext
    rw [hb] at htyped
    exact of_decide_eq_true htyped
  obtain rfl := Host.Outcome.next.inj ((exec_feed_of_ok hb h188 hp).symm.trans hnext)
  obtain rfl := Host.Outcome.next.inj ((exec_feed_of_ok hb' h188 hp).symm.trans hnext')
  have hfiltered : ∀ r : Response, feedPacket p s = s.answer r → feedPacket p s' = s'.answer r →
      (feedPacket p s).readR p.pid = (feedPacket p s').readR p.pid ∧
        (feedPacket p s).slot p.pid = (feedPacket p s').slot p.pid ∧
        ∃ r l, (feedPacket p s).Q = s.Q ++ l ∧ (feedPacket p s').Q = s'.Q ++ l ∧
          (feedPacket p s).responses = s.responses ++ [r] ∧ (feedPacket p s').responses = s'.responses ++ [r] := by
    intro r h h'
    rw [h, h']
    exact ⟨hR, hslot, r, [], (List.append_nil _).symm, (List.append_nil _).symm, rfl, rfl⟩
  by_cases hnull : p.pid = 0x1FFF
  · exact hfiltered _ (feedPacket_of_nullPid s hnull) (feedPacket_of_nullPid s' hnull)
  by_cases htei : p.tei = 1
  · exact hfiltered _ (feedPacket_of_tei s hnull htei) (feedPacket_of_tei s' hnull htei)
  cases h : s.slot p.pid with
  | none =>
    exact hfiltered _ (feedPacket_of_closed hnull htei h) (feedPacket_of_closed hnull htei (hslot.symm.trans h))
  | some sl =>
    have h' : s'.slot p.pid = some sl := hslot.symm.trans h
    obtain ⟨hentry, hleft, hQ, hresponse⟩ := feedSlot_feedRun hinv h
    obtain ⟨hentry', hleft', hQ', hresponse'⟩ := feedSlot_feedRun hinv' h'
    rw [← hparams, ← hR, ← hlen] at hleft' hQ' hresponse'
    rw [feedPacket_of_open hnull htei h, feedPacket_of_open hnull htei h']
    exact ⟨hentry.trans hentry'.symm, hleft.trans hleft'.symm, _, _, hQ, hQ', hresponse, hresponse'⟩

end Sys2Proof.Machine
end

section
/-! A lost packet (45_depacketizer.md R283, R286, R295, R301): the packets of a split with one interior packet missing,
fed in order. Before the gap the unit is gathered, at the gap it is lost, and after it every packet is ignored. -/

namespace Sys2Proof.Machine

variable {pid : Pid} {w : Counter} {x : Bytes} {v : UnitValue} {q : List CompletedUnit} {i : Nat} {s : State}

/-- Steps taken one run after another. -/
theorem run_add {n m : Nat} {s u : State} (h : run n s = .next u) : run (n + m) s = run m u := by
  induction n generalizing s with
  | zero =>
    cases h
    rw [Nat.zero_add]
  | succ n ih =>
    rw [Nat.succ_add, run]
    rw [run] at h
    cases hstep : step s with
    | next t =>
      rw [hstep] at h
      exact ih h
    | _ =>
      rw [hstep] at h
      cases h

/-- The slot with the unit's bytes of packets 0 to `i` in it. -/
def gatheringSlot (pid : Pid) (x : Bytes) (i : Nat) : Slot :=
  ⟨pid, .psi, .accumulating, gathered .psi x (i + 1), .bounded x.length⟩

/-- The slot after a loss (R286). -/
def lostSlot (pid : Pid) : Slot := ⟨pid, .psi, .discarding, [], .unknown⟩

/-- Packet `i` of a split was fed last, and left `sl` in the slot and `q` in the queue. -/
structure LastFed (pid : Pid) (w : Counter) (i : Nat) (sl : Slot) (q : List CompletedUnit) (s : State) : Prop where
  inv : s.Inv
  entry : s.readR pid = some (w + BitVec.ofNat 4 i)
  slot : s.slot pid = some sl
  queue : s.Q = q

/-- The command that feeds packet `i` of a split. -/
def feedSplit (pid : Pid) (w : Counter) (x : Bytes) (i : Nat) : HostInput :=
  feedCommand (framePacket (splitPacket .psi pid w x i))

/-- One step feeds packet `i`: the machine runs with the tracker's verdict. -/
theorem step_feedSplit {rest : List HostInput} {sl : Slot} (hinv : s.Inv)
    (hin : s.inputs = feedSplit pid w x i :: rest) (hpid : pid ≠ 0x1FFF) (hslot : s.slot pid = some sl)
    {verdict : Verdict} (hverdict : (ccCheck (s.readR pid) (w + BitVec.ofNat 4 i) 1 0).1 = verdict) {y : Reassembly}
    (hy : Reassembly.run s.params (splitPacket .psi pid w x i) verdict ⟨sl, s.Q, []⟩ = y) :
    ∃ t, step s = .next t ∧ t.inputs = rest ∧ LastFed pid w i y.slot y.queue t := by
  subst hy
  have hstep : step s = exec .feed s := stepRunsDecodedCommand s _ rest .feed hinv.1 hin (decode_encode .feed)
  obtain ⟨t, hexec, hR, hslot', -, -, -, -, hQ, hin', -⟩ :=
    exec_feed_ends hinv (feedsOpen_splitPacket rfl hin hpid hslot) verdict hverdict
  exact ⟨t, hstep.trans hexec, by rw [hin', hin]; rfl, exec_inv hinv hexec, hR, hslot', hQ⟩

/-- Packets fed in sequence, the next `m` after packet `i`, when the machine takes `slotAt j` to `slotAt (j + 1)` and
keeps the queue at each of them. -/
theorem LastFed.run {slotAt : Nat → Slot} (hpid : pid ≠ 0x1FFF) {rest : List HostInput} (m : Nat)
    (hnext : ∀ p j, j + 1 ≤ i + m → ∃ ev,
      Reassembly.run p (splitPacket .psi pid w x (j + 1)) .continuous ⟨slotAt j, q, []⟩ = ⟨slotAt (j + 1), q, ev⟩)
    (h : LastFed pid w i (slotAt i) q s) (hin : s.inputs = (List.range' (i + 1) m).map (feedSplit pid w x) ++ rest) :
    ∃ t, Machine.run m s = .next t ∧ t.inputs = rest ∧ LastFed pid w (i + m) (slotAt (i + m)) q t := by
  induction m generalizing i s with
  | zero => exact ⟨s, rfl, hin, h⟩
  | succ m ih =>
    obtain ⟨ev, hrun⟩ := hnext s.params i (by omega)
    obtain ⟨hinv, hentry, hslot, rfl⟩ := h
    obtain ⟨-, hcontinuous, -⟩ := ccCheck_spec (s.readR pid) (w + BitVec.ofNat 4 (i + 1)) 1 0
    obtain ⟨u, hstep, hin', hu⟩ := step_feedSplit hinv hin hpid hslot
      (hcontinuous (hentry ▸ inSequence_succ w i)) hrun
    obtain ⟨t, hrest, ht⟩ := ih (fun p j hj => hnext p j (by omega)) hu hin'
    rw [show i + 1 + m = i + (m + 1) by omega] at ht
    exact ⟨t, by rw [Machine.run, hstep]; exact hrest, ht⟩

namespace Reassembly

/-- Before the last packet `progress` leaves the unit in progress. -/
theorem progress_gathered_short (hu : WholeUnit .psi x v) (p : Params) {target : Target}
    (ht : target = .unknown ∨ target = .bounded x.length) (ev : List Event) (hi : i + 1 < splitCount .psi x) :
    progress p ⟨⟨pid, .psi, .accumulating, gathered .psi x (i + 1), target⟩, q, ev⟩ =
      ⟨gatheringSlot pid x i, q, ev⟩ := by
  rw [progress_bounded p q ev (hu.target_gathered (Nat.succ_pos i) hi.le) ht,
    if_pos (gathered_length (Nat.succ_pos i) hi).2]
  rfl

/-- The first packet of a split that has more starts its unit. -/
theorem run_first_gathers (hu : WholeUnit .psi x v) (p : Params) {sl : Slot} (hpid : sl.pid = pid)
    (hkind : sl.kind = .psi) (hidle : sl.state ≠ .accumulating) (hmore : 1 < splitCount .psi x) :
    ∃ ev, run p (splitPacket .psi pid w x 0) .continuous ⟨sl, q, []⟩ = ⟨gatheringSlot pid x 0, q, ev⟩ := by
  obtain ⟨ev, hstart⟩ := start_eq p (gathered .psi x 1) ⟨sl, q, []⟩
  simp only [hpid, hkind] at hstart
  exact ⟨ev, by
    rw [run_splitPacket_zero p pid w hkind hidle (Nat.zero_lt_of_lt hmore), hstart,
      progress_gathered_short hu p (.inl rfl) ev hmore]⟩

/-- A later packet that is not the last adds its bytes. -/
theorem run_next_gathers (hu : WholeUnit .psi x v) (p : Params) (hmore : i + 2 < splitCount .psi x) :
    run p (splitPacket .psi pid w x (i + 1)) .continuous ⟨gatheringSlot pid x i, q, []⟩ =
      ⟨gatheringSlot pid x (i + 1), q, []⟩ := by
  rw [run_splitPacket_pos p pid w rfl (Nat.succ_pos i), append]
  simp only [gatheringSlot, gathered_append_splitChunk (Nat.succ_pos i) (Nat.lt_of_succ_lt hmore)]
  exact progress_gathered_short hu p (.inr rfl) [] hmore

/-- A packet after the first is ignored in a slot that has lost its unit (R295). -/
theorem takePayload_lost (p : Params) (ev : List Event) :
    takePayload p (splitPacket .psi pid w x (i + 1)) ⟨lostSlot pid, q, ev⟩ = ⟨lostSlot pid, q, ev ++ [evIgnored]⟩ := by
  have hpusi : (splitPacket .psi pid w x (i + 1)).pusi = 0 := by simp [splitPacket]
  rw [takePayload_of_continuation p _ rfl hpusi]
  rfl

theorem run_lost (p : Params) :
    run p (splitPacket .psi pid w x (i + 1)) .continuous ⟨lostSlot pid, q, []⟩ = ⟨lostSlot pid, q, [evIgnored]⟩ := by
  rw [run]
  exact takePayload_lost p []

/-- A packet out of sequence loses the unit being gathered and is ignored (R286, R295). -/
theorem run_gap_loses (p : Params) {j : Nat} :
    ∃ ev, run p (splitPacket .psi pid w x (i + 1)) .discontinuous ⟨gatheringSlot pid x j, q, []⟩ =
      ⟨lostSlot pid, q, ev⟩ := by
  rw [run, lose_eq]
  exact ⟨_, takePayload_lost p _⟩

end Reassembly

/-- Where one packet is missing, the next one's counter is two ahead: out of sequence and no repeat (R174). -/
theorem discontinuous_after_gap (w : Counter) (i : Nat) :
    (ccCheck (some (w + BitVec.ofNat 4 i)) (w + BitVec.ofNat 4 (i + 2)) 1 0).1 = .discontinuous := by
  obtain ⟨-, -, -, hdiscontinuous⟩ := ccCheck_spec (some (w + BitVec.ofNat 4 i)) (w + BitVec.ofNat 4 (i + 2)) 1 0
  refine hdiscontinuous (fun hseq => ?_) fun ⟨hsame, _⟩ => ?_
  · rcases hseq _ rfl with h | ⟨h, -⟩ | ⟨-, h⟩
    · exact absurd h (by decide)
    · exact absurd h (by decide)
    · simp only [BitVec.toNat_add, BitVec.toNat_ofNat] at h
      omega
  · have hnat := congrArg BitVec.toNat (Option.some.inj hsame)
    simp only [BitVec.toNat_add, BitVec.toNat_ofNat] at hnat
    omega

/-- A split is cut at an interior packet: the packets before it, from packet 0 on, and those behind it. -/
theorem splitPackets_cut {l₁ l₂ : List Bytes} {b : Bytes} (h : l₁ ++ [b] ++ l₂ = splitPackets .psi pid w x) :
    splitCount .psi x = l₁.length + 1 + l₂.length ∧
      (l₁ ++ l₂).map feedCommand = (List.range' 0 l₁.length).map (feedSplit pid w x) ++
        (List.range' (l₁.length + 1) l₂.length).map (feedSplit pid w x) := by
  have hcount := congrArg List.length h
  rw [splitPackets_length, List.length_append, List.length_append, List.length_singleton] at hcount
  rw [splitPackets, ← hcount, List.range_eq_range', ← List.range'_append_1, ← List.range'_append_1, List.map_append,
    List.map_append, Nat.zero_add, Nat.zero_add] at h
  obtain ⟨hfront, hback⟩ := List.append_inj h (by simp)
  obtain ⟨hfront, -⟩ := List.append_inj hfront (by simp)
  refine ⟨hcount.symm, ?_⟩
  rw [List.map_append, congrArg (List.map feedCommand) hfront, congrArg (List.map feedCommand) hback, List.map_map,
    List.map_map]
  rfl

/-- Feeding `n + 1` packets, none of them the last, gathers their bytes. -/
theorem gathers_packets (hu : WholeUnit .psi x v) {rest : List HostInput} {sl : Slot} (hinv : s.Inv) (n : Nat)
    (hin : s.inputs = (List.range' 0 (n + 1)).map (feedSplit pid w x) ++ rest) (hmore : n + 1 < splitCount .psi x)
    (hpid : pid ≠ 0x1FFF) (hslot : s.slot pid = some sl) (hkind : sl.kind = .psi) (hidle : sl.state ≠ .accumulating)
    (hR : s.readR pid = none ∨ s.readR pid = some (w - 1)) :
    ∃ t, run (n + 1) s = .next t ∧ t.inputs = rest ∧ LastFed pid w n (gatheringSlot pid x n) s.Q t := by
  obtain ⟨-, hcontinuous, -⟩ := ccCheck_spec (s.readR pid) (w + BitVec.ofNat 4 0) 1 0
  obtain ⟨ev, hrun⟩ := Reassembly.run_first_gathers (w := w) (q := s.Q) hu s.params (s.slot_some pid sl hslot).2
    hkind hidle (by omega)
  obtain ⟨u, hstep, hin', hfirst⟩ := step_feedSplit hinv hin hpid hslot (hcontinuous (inSequence_first hR)) hrun
  obtain ⟨t, hrest, hin'', ht⟩ := LastFed.run (slotAt := gatheringSlot pid x) hpid n
    (fun p j hj => ⟨_, Reassembly.run_next_gathers hu p (by omega)⟩) hfirst hin'
  rw [Nat.zero_add] at ht
  exact ⟨t, by rw [run, hstep]; exact hrest, hin'', ht⟩

/-- The packets behind a gap after packet `i` leave the slot Discarding and the queue as it was. -/
theorem ignores_packets_after_gap {rest : List HostInput} {j : Nat} (n : Nat)
    (h : LastFed pid w i (gatheringSlot pid x j) q s)
    (hin : s.inputs = (List.range' (i + 2) (n + 1)).map (feedSplit pid w x) ++ rest) (hpid : pid ≠ 0x1FFF) :
    ∃ t, run (n + 1) s = .next t ∧ t.inputs = rest ∧ LastFed pid w (i + 2 + n) (lostSlot pid) q t := by
  obtain ⟨hinv, hentry, hslot, rfl⟩ := h
  obtain ⟨ev, hrun⟩ := Reassembly.run_gap_loses (pid := pid) (w := w) (x := x) (q := s.Q) (i := i + 1) s.params (j := j)
  obtain ⟨u, hstep, hin', hlost⟩ :=
    step_feedSplit hinv hin hpid hslot (hentry ▸ discontinuous_after_gap w i) hrun
  obtain ⟨t, hrest, ht⟩ := LastFed.run (slotAt := fun _ => lostSlot pid) hpid n
    (fun p j _ => ⟨_, Reassembly.run_lost p⟩) hlost hin'
  exact ⟨t, by rw [run, hstep]; exact hrest, ht⟩

/-- Settles O60: the packets before the gap are gathered, and those behind it are lost with what was gathered. -/
theorem lostPacketLosesTheSection : Obligations.LostPacketLosesTheSection := by
  intro s0 t0 s pid v x b l₁ l₂ rest sl hencode hwt hs0 hnext hr hne₁ hne₂ hinv hin hpid hslot hkind hidle hR
  obtain ⟨hcount, hfed⟩ := splitPackets_cut (splitPackets_of_answer hs0 hnext hr)
  obtain ⟨n₁, hn₁⟩ := Nat.exists_eq_succ_of_ne_zero (mt List.length_eq_zero_iff.mp hne₁)
  obtain ⟨n₂, hn₂⟩ := Nat.exists_eq_succ_of_ne_zero (mt List.length_eq_zero_iff.mp hne₂)
  rw [hn₁, hn₂] at hcount hfed
  rw [hfed, List.append_assoc] at hin
  obtain ⟨u, hrun, hin', hu⟩ := gathers_packets (wholeUnit_encodeSection hencode hwt) hinv n₁ hin (by omega) hpid hslot
    hkind hidle hR
  obtain ⟨t, hrun', hrest, ht⟩ := ignores_packets_after_gap n₂ hu hin' hpid
  obtain ⟨-, hentry, hslot', hQ⟩ := ht
  have hlen : (l₁ ++ l₂).length = n₁ + 1 + (n₂ + 1) := by rw [List.length_append, hn₁, hn₂]
  refine ⟨t, by rw [hlen, run_add hrun, hrun'], hQ, hrest, hslot', ?_⟩
  rw [hentry, hlen, show n₁ + 2 + n₂ = n₁ + 1 + (n₂ + 1) by omega]

end Sys2Proof.Machine
end

section
/-! The mask-and-match rule (46_control.md R332): the words the opcode table admits are the words that decode. -/

namespace Sys2Proof

/-- A word is its fields at the places R80 gives them. -/
theorem append_wordFields (w : CommandWord) :
    (wordFields w).op ++ (wordFields w).ccv ++ (wordFields w).di ++ (wordFields w).rsv1 ++ (wordFields w).flag ++
      (wordFields w).rsv0 ++ (wordFields w).pid = w := by
  apply BitVec.eq_of_toNat_eq
  have hw := w.isLt
  simp only [toNat_append_eq, wordFields, BitVec.extractLsb'_toNat, Nat.shiftRight_eq_div_pow]
  omega

/-- Every row of the table fixes the reserved bits at 0 (R86). -/
theorem reserved_of_admits {name : String} {op : Byte} {mc : Counter} {md mf : Bit} {mp : Pid} {w : CommandWord}
    (h : (rowOf name op mc md mf mp).admits w = true) : (wordFields w).rsv1 = 0 ∧ (wordFields w).rsv0 = 0 := by
  rw [OpcodeRow.admits, beq_iff_eq, ← append_wordFields w] at h
  have hparts : ((wordFields w).op ++ (wordFields w).ccv ++ (wordFields w).di ++ (wordFields w).rsv1 ++
        (wordFields w).flag ++ (wordFields w).rsv0 ++ (wordFields w).pid) &&&
      ((0xFF : BitVec 8) ++ mc ++ md ++ (0b111 : BitVec 3) ++ mf ++ (0b11 : BitVec 2) ++ mp) =
      op ++ (0 : Counter) ++ (0 : Bit) ++ (0 : BitVec 3) ++ (0 : Bit) ++ (0 : BitVec 2) ++ (0 : Pid) := h
  simp only [BitVec.and_append, append_inj_iff] at hparts
  obtain ⟨⟨⟨⟨-, hrsv1⟩, -⟩, hrsv0⟩, -⟩ := hparts
  exact ⟨BitVec.and_allOnes.symm.trans hrsv1, BitVec.and_allOnes.symm.trans hrsv0⟩

/-- A word a row admits has the row's opcode, its reserved bits are 0, and it sets no field the row forbids (R86). -/
theorem assemble_of_admits {name : String} {op : Byte} {mc : Counter} {md mf : Bit} {mp : Pid} {w : CommandWord}
    (h : (rowOf name op mc md mf mp).admits w = true) :
    ∃ ccv di flag pid, w = assemble op ccv di flag pid ∧ ccv &&& mc = 0 ∧ di &&& md = 0 ∧ flag &&& mf = 0 ∧
      pid &&& mp = 0 := by
  obtain ⟨hrsv1, hrsv0⟩ := reserved_of_admits h
  have hw := assemble_wordFields w hrsv1 hrsv0
  rw [← hw, rowOf_admits, decide_eq_true_iff] at h
  obtain ⟨hop, hforbidden⟩ := h
  rw [hop] at hw
  exact ⟨_, _, _, _, hw.symm, hforbidden⟩

/-- Every word the row admits is the word of some command. -/
def OpcodeRow.Covered (row : OpcodeRow) : Prop := ∀ w : CommandWord, row.admits w = true → ∃ i, encode i = w

theorem rowOf_covered_of_plain {name : String} {op : Byte} {i : Instr} (hi : encode i = assemble op 0 0 0 0) :
    (rowOf name op 15 1 1 0x1FFF).Covered := by
  intro w h
  obtain ⟨ccv, di, flag, pid, rfl, hccv, hdi, hflag, hpid⟩ := assemble_of_admits h
  obtain rfl : ccv = 0 := BitVec.and_allOnes.symm.trans hccv
  obtain rfl : di = 0 := BitVec.and_allOnes.symm.trans hdi
  obtain rfl : flag = 0 := BitVec.and_allOnes.symm.trans hflag
  obtain rfl : pid = 0 := BitVec.and_allOnes.symm.trans hpid
  exact ⟨i, hi⟩

theorem rowOf_covered_of_pid {name : String} {op : Byte} {i : Pid → Instr}
    (hi : ∀ pid, encode (i pid) = assemble op 0 0 0 pid) : (rowOf name op 15 1 1 0).Covered := by
  intro w h
  obtain ⟨ccv, di, flag, pid, rfl, hccv, hdi, hflag, -⟩ := assemble_of_admits h
  obtain rfl : ccv = 0 := BitVec.and_allOnes.symm.trans hccv
  obtain rfl : di = 0 := BitVec.and_allOnes.symm.trans hdi
  obtain rfl : flag = 0 := BitVec.and_allOnes.symm.trans hflag
  exact ⟨i pid, hi pid⟩

theorem rowOf_covered_of_flagPid {name : String} {op : Byte} {i : Bit → Pid → Instr}
    (hi : ∀ flag pid, encode (i flag pid) = assemble op 0 0 flag pid) : (rowOf name op 15 1 0 0).Covered := by
  intro w h
  obtain ⟨ccv, di, flag, pid, rfl, hccv, hdi, -⟩ := assemble_of_admits h
  obtain rfl : ccv = 0 := BitVec.and_allOnes.symm.trans hccv
  obtain rfl : di = 0 := BitVec.and_allOnes.symm.trans hdi
  exact ⟨i flag pid, hi flag pid⟩

/-- SPLIT and OPEN carry a kind in FLAG (10_state.md R41). -/
theorem rowOf_covered_of_kindPid {name : String} {op : Byte} {i : Kind → Pid → Instr}
    (hi : ∀ kind pid, encode (i kind pid) = assemble op 0 0 (bitOfKind kind) pid) :
    (rowOf name op 15 1 0 0).Covered :=
  rowOf_covered_of_flagPid (i := fun flag pid => i (kindOfBit flag) pid) fun flag pid => by
    rw [hi, bitOfKind_kindOfBit]

/-- CC_VALIDATE uses every field. -/
theorem ccValidate_row_covered : (rowOf "CC_VALIDATE" 0x21 0 0 0 0).Covered := by
  intro w h
  obtain ⟨ccv, di, flag, pid, rfl, -⟩ := assemble_of_admits h
  exact ⟨.ccValidate ccv di flag pid, rfl⟩

/-- The rows of R83, in the table's order. -/
theorem opcodeTable_covered : ∀ row ∈ opcodeTable, row.Covered := by
  simp only [opcodeTable_eq, List.forall_mem_cons]
  exact ⟨rowOf_covered_of_plain (i := .nop) rfl, rowOf_covered_of_plain (i := .reset) rfl,
    rowOf_covered_of_plain (i := .decodePacket) rfl, rowOf_covered_of_plain (i := .encodePacket) rfl,
    rowOf_covered_of_flagPid (i := .ccNext) fun _ _ => rfl, ccValidate_row_covered,
    rowOf_covered_of_plain (i := .crc32) rfl, rowOf_covered_of_plain (i := .decodeSection) rfl,
    rowOf_covered_of_plain (i := .encodeSection) rfl, rowOf_covered_of_plain (i := .decodePes) rfl,
    rowOf_covered_of_plain (i := .encodePes) rfl, rowOf_covered_of_kindPid (i := .split) fun _ _ => rfl,
    rowOf_covered_of_kindPid (i := .openPid) fun _ _ => rfl, rowOf_covered_of_pid (i := .closePid) fun _ => rfl,
    rowOf_covered_of_plain (i := .feed) rfl, rowOf_covered_of_pid (i := .finish) fun _ => rfl,
    rowOf_covered_of_plain (i := .takeCompleted) rfl, rowOf_covered_of_pid (i := .slotState) fun _ => rfl, nofun⟩

/-- The word of every command is admitted by the row of its mnemonic and by no other. -/
theorem tableRow_statement (i : Instr) : Laws.TableRow.Statement i := by
  cases i with
  | nop => exact Laws.TableRow.nop
  | reset => exact Laws.TableRow.reset
  | decodePacket => exact Laws.TableRow.decodePacket
  | encodePacket => exact Laws.TableRow.encodePacket
  | ccNext h pid => exact Laws.TableRow.ccNext h pid
  | ccValidate cc di h pid => exact Laws.TableRow.ccValidate cc di h pid
  | crc32 => exact Laws.TableRow.crc32
  | decodeSection => exact Laws.TableRow.decodeSection
  | encodeSection => exact Laws.TableRow.encodeSection
  | decodePes => exact Laws.TableRow.decodePes
  | encodePes => exact Laws.TableRow.encodePes
  | split kind pid => exact Laws.TableRow.split kind pid
  | openPid kind pid => exact Laws.TableRow.openPid kind pid
  | closePid pid => exact Laws.TableRow.closePid pid
  | feed => exact Laws.TableRow.feed
  | finish pid => exact Laws.TableRow.finish pid
  | takeCompleted => exact Laws.TableRow.takeCompleted
  | slotState pid => exact Laws.TableRow.slotState pid

theorem exists_row_admits_encode (i : Instr) : ∃ row ∈ opcodeTable, row.admits (encode i) = true := by
  have hmem : mnemonicOf i ∈ (opcodeTable.filter fun row => row.admits (encode i)).map OpcodeRow.mnemonic := by
    rw [tableRow_statement i]
    exact List.mem_singleton_self _
  obtain ⟨row, hrow, -⟩ := List.mem_map.mp hmem
  exact ⟨row, List.mem_filter.mp hrow⟩

/-- The mask-and-match rule of R332 and the decoder say the same of every word. -/
theorem exists_row_admits_iff (w : CommandWord) :
    (∃ row ∈ opcodeTable, w &&& row.mask = row.pattern) ↔ ∃ i, decode w = .ok i := by
  constructor
  · rintro ⟨row, hrow, hmatch⟩
    obtain ⟨i, hi⟩ := opcodeTable_covered row hrow w (beq_iff_eq.mpr hmatch)
    exact ⟨i, (decode_eq_ok_iff w i).mpr hi⟩
  · rintro ⟨i, hi⟩
    obtain ⟨row, hrow, hadmits⟩ := exists_row_admits_encode i
    rw [(decode_eq_ok_iff w i).mp hi] at hadmits
    exact ⟨row, hrow, beq_iff_eq.mp hadmits⟩

end Sys2Proof
end

section
/-! The claims about control (46_control.md): NOP, RESET and illegal command words. -/

namespace Sys2Proof.Machine

/-- Settles O3: a word is admitted by a row exactly when it decodes, and what does not decode is fetched as illegal. -/
theorem illegalWordsAreAnswered : Obligations.IllegalWordsAreAnswered := by
  intro s c rest hlegal hport
  refine ⟨fun hrow => ?_, fun hnorow => ?_⟩
  · obtain ⟨i, hi⟩ := (exists_row_admits_iff c.word).mp hrow
    exact ⟨i, hi, stepRunsDecodedCommand s c rest i hlegal hport hi⟩
  · cases hd : decode c.word with
    | ok i =>
      obtain ⟨row, hrow, hmatch⟩ := (exists_row_admits_iff c.word).mpr ⟨i, hd⟩
      exact absurd hmatch (hnorow row hrow)
    | error e =>
      refine ⟨s.answer (errorResponse (.illegalCommand c.word)), ?_, ⟨rfl, rfl, rfl, rfl, rfl⟩, ?_, rfl⟩
      · rw [step, fetch_illegal s c rest e hlegal hport hd]
        rfl
      · rw [State.answer_inputs, hport, List.tail_cons]

/-- Every entry of S has valid = 0 in the reset state (10_state.md R44). -/
theorem State.clear_entries (s : State) : ∀ o ∈ s.clear.S, o = none :=
  fun _ ho => List.eq_of_mem_replicate ho

/-- No PID has a slot in the reset state. -/
@[simp] theorem State.clear_slot (s : State) (pid : Pid) : s.clear.slot pid = none :=
  (s.clear.slot_none_iff pid).mpr fun o ho => by rw [s.clear_entries o ho, holdsPid]

/-- Settles O9: the answer is given from the reset state. -/
theorem resetCommandClears : Obligations.ResetCommandClears := by
  refine ⟨wordIs_of_encode_toNat rfl, fun s => ⟨s.clear.answer (okResponse .none []), rfl, fun pid => ?_,
    s.clear_entries, List.length_replicate, rfl, rfl, rfl, rfl⟩⟩
  exact ⟨rfl, rfl, s.clear_slot pid⟩

/-- Settles O14: NOP completes from the state it was issued in. -/
theorem nopDoesNothing : Obligations.NopDoesNothing :=
  ⟨wordIs_of_encode_toNat rfl, fun _ => answersOnly_of_complete rfl⟩

end Sys2Proof.Machine
end

section
/-! The error information a codec raises (60_exceptions.md R352): it reports the values its check failed on. -/

namespace Sys2Proof.Machine

/-- What the information of an error says of the failed check: a stored CRC that differs from the computed one, fewer
bytes supplied than declared, and the one reserved adaptation_field_control value (R352). -/
def ErrorStatus.InfoFits : ErrorStatus → Prop
  | .crcMismatch expected computed => expected ≠ computed
  | .incompletePayload declared supplied => supplied < declared
  | .reservedAdaptationFieldControl afc => afc = 0
  | _ => True

/-- Where a codec raises, its error's information fits the failed check. -/
def ErrorsFit {α : Type} (x : Except ErrorStatus α) : Prop := ∀ e, x = .error e → e.InfoFits

namespace ErrorsFit

variable {α β : Type} {e : ErrorStatus} {x y : Except ErrorStatus α}

theorem ok (v : α) : ErrorsFit (.ok v) := nofun

theorem error (h : e.InfoFits) : ErrorsFit (.error e : Except ErrorStatus α) := by
  rintro _ ⟨⟩
  exact h

/-- A check: it raises its error with the check's failure at hand, or goes on. -/
theorem ite {c : Prop} [Decidable c] (hx : c → ErrorsFit x) (hy : ¬ c → ErrorsFit y) :
    ErrorsFit (if c then x else y) := by
  split
  · exact hx ‹c›
  · exact hy ‹¬ c›

/-- A parser with one error. -/
theorem of_error_eq (hx : ∀ e', x = .error e' → e' = e) (h : e.InfoFits) : ErrorsFit x :=
  fun e' he' => hx e' he' ▸ h

theorem bind {k : α → Except ErrorStatus β} (hx : ErrorsFit x) (hk : ∀ v, ErrorsFit (k v)) :
    ErrorsFit (x.bind k) := by
  cases x with
  | error e => exact .error (hx e rfl)
  | ok v => exact hk v

theorem map {f : α → β} (hx : ErrorsFit x) : ErrorsFit (x.map f) := by
  cases x with
  | error e => exact .error (hx e rfl)
  | ok v => exact .ok (f v)

end ErrorsFit

theorem decodePacket_errorsFit (b : Bytes) : ErrorsFit (decodePacket b) := by
  refine .ite (fun _ => .error trivial) fun _ => .ite (fun hafc => .error hafc) fun _ =>
    .ite (fun _ => .ite (fun _ => .error trivial) fun _ => ?_) fun _ => .ok _
  split
  · rename_i haf
    obtain rfl := decodeAf_error haf
    exact .error trivial
  · exact .ok _

theorem encodePacket_errorsFit (p : TsPacket) : ErrorsFit (encodePacket p) :=
  .ite (fun _ => .error trivial) fun _ =>
    .ite (fun _ => .ite (fun _ => .error trivial) fun _ => .ok _) fun _ =>
    .ite (fun _ => .error trivial) fun _ => .ok _

theorem decodeSection_errorsFit (x : Bytes) : ErrorsFit (decodeSection x) := by
  rw [decodeSection_eq rfl]
  exact .ite (fun hshort => .error hshort) fun _ => .ite (fun _ => .error trivial) fun _ =>
    .ite (fun _ => .error trivial) fun _ => .ite (fun hshort => .error hshort) fun _ =>
    .ite (fun _ => .error trivial) fun _ => .ite (fun hcrc => .error hcrc) fun _ =>
    .of_error_eq (fun _ => dispatchTable_error) trivial

theorem sectionBytes_errorsFit (tid : Byte) (pi : Bit) (ext : BitVec 16) (c : SectionCommon) (data : Bytes) :
    ErrorsFit (sectionBytes tid pi ext c data) :=
  .ite (fun _ => .error trivial) fun _ => .ok _

theorem encodeSection_errorsFit (v : Section) : ErrorsFit (encodeSection v) := by
  cases v with
  | pat => exact sectionBytes_errorsFit _ _ _ _ _
  | pmt => exact sectionBytes_errorsFit _ _ _ _ _
  | other => exact .ite (fun _ => .error trivial) fun _ => sectionBytes_errorsFit _ _ _ _ _

/-- A body too short for the `declared` bytes is incomplete only where bytes are missing (43_pes.md R235). -/
theorem shortBody_infoFits {unb : Bit} {declared supplied : Nat} (h : supplied < declared) :
    (shortBody unb declared supplied).InfoFits := by
  unfold shortBody
  split
  · exact h
  · trivial

theorem tsParse_errorsFit (t : Bytes) (pfx : BitVec 4) : ErrorsFit (tsParse t pfx) :=
  .ite (fun _ => .error trivial) fun _ => .ok _

theorem parseTimestamps_errorsFit (f : BitVec 2) (body : Bytes) : ErrorsFit (parseTimestamps f body) := by
  obtain rfl | rfl | rfl | rfl := ptsDtsFlags_cases f
  · exact .ok _
  · exact .ok _
  · rw [parseTimestamps_pts]
    exact (tsParse_errorsFit _ _).map
  · rw [parseTimestamps_both]
    exact (tsParse_errorsFit _ _).bind fun _ => (tsParse_errorsFit _ _).map

theorem decodePesBody_errorsFit (sid : Byte) (unb : Bit) (body : Bytes) : ErrorsFit (decodePesBody sid unb body) := by
  rw [decodePesBody_eq]
  exact .ite (fun _ => .error (shortBody_infoFits (by omega))) fun _ => .ite (fun _ => .error trivial) fun _ =>
    .ite (fun _ => .error (shortBody_infoFits (by omega))) fun _ => (parseTimestamps_errorsFit _ _).map

theorem decodePesClass_errorsFit (sid : Byte) (unb : Bit) (body : Bytes) : ErrorsFit (decodePesClass sid unb body) :=
  .ite (fun _ => decodePesBody_errorsFit sid unb body) fun _ => .ok _

theorem decodePes_errorsFit (x : Bytes) : ErrorsFit (decodePes x) := by
  rw [decodePes_eq rfl]
  exact .ite (fun hshort => .error hshort) fun _ => .ite (fun _ => .error trivial) fun _ =>
    .ite (fun hshort => .error hshort.2) fun _ => decodePesClass_errorsFit _ _ _

theorem encodePes_errorsFit (p : PesPacket) : ErrorsFit (encodePes p) := by
  rw [encodePes_eq rfl]
  exact .ite (fun _ => .error trivial) fun _ => .ite (fun _ => .error trivial) fun _ =>
    .ite (fun _ => .error trivial) fun _ => .ite (fun _ => .error trivial) fun _ => .ok _

end Sys2Proof.Machine
end

section
/-! The events a FEED or FINISH emits (60_exceptions.md R357), counted through the reassembly machine. -/

namespace Sys2Proof.Machine

/-- How many of the events are UnitCompleted (R357). -/
def completions (ev : List Event) : Nat := (ev.filter fun e => e.kind == 5).length

theorem completions_append (a b : List Event) : completions (a ++ b) = completions a + completions b := by
  simp [completions]

theorem completions_singleton_le (e : Event) : completions [e] ≤ 1 := List.length_filter_le _ [e]

/-- From `x` to `y` at most `n` events are emitted, at most `c` of them UnitCompleted. -/
def Reassembly.Emits (n c : Nat) (x y : Reassembly) : Prop :=
  ∃ ev, y.events = x.events ++ ev ∧ ev.length ≤ n ∧ completions ev ≤ c

namespace Reassembly

variable {p : Params} {n m c d : Nat} {x y z : Reassembly}

/-- A step that emits nothing. -/
theorem Emits.of_eq (h : y.events = x.events) : x.Emits 0 0 y :=
  ⟨[], by rw [h, List.append_nil], Nat.le_refl 0, Nat.le_refl 0⟩

/-- A step that emits one event. -/
theorem Emits.of_append {e : Event} (h : y.events = x.events ++ [e]) : x.Emits 1 1 y :=
  ⟨[e], h, Nat.le_refl 1, completions_singleton_le e⟩

theorem Emits.trans (hxy : x.Emits n c y) (hyz : y.Emits m d z) : x.Emits (n + m) (c + d) z := by
  obtain ⟨a, ha, han, hac⟩ := hxy
  obtain ⟨b, hb, hbm, hbd⟩ := hyz
  refine ⟨a ++ b, by rw [hb, ha, List.append_assoc], ?_, ?_⟩
  · rw [List.length_append]
    exact Nat.add_le_add han hbm
  · rw [completions_append]
    exact Nat.add_le_add hac hbd

theorem Emits.mono (h : x.Emits n c y) (hn : n ≤ m) (hc : c ≤ d) : x.Emits m d y := by
  obtain ⟨ev, hev, hevn, hevc⟩ := h
  exact ⟨ev, hev, hevn.trans hn, hevc.trans hc⟩

/-- The bounds on the events of a command, which starts with none. -/
theorem Emits.bounds (h : x.Emits n c y) (hx : x.events = []) :
    y.events.length ≤ n ∧ completions y.events ≤ c := by
  obtain ⟨ev, hev, hlen, hcompleted⟩ := h
  rw [hx, List.nil_append] at hev
  exact ⟨hev ▸ hlen, hev ▸ hcompleted⟩

theorem deliver_emits (p : Params) (u : Bytes) (x : Reassembly) : x.Emits 1 1 (x.deliver p u) := by
  obtain ⟨e, h⟩ := x.deliver_events p u
  exact .of_append h

theorem advance_emits (p : Params) (x : Reassembly) : x.Emits 1 1 (x.advance p) := by
  rcases x.advance_cases p with ⟨-, h⟩ | ⟨-, -, h⟩ | ⟨k, -, -, h⟩
  · rw [h]
    exact (Emits.of_eq rfl).mono (by decide) (by decide)
  · rw [h]
    exact .of_append rfl
  · rw [h]
    have hidle : x.Emits 0 0 x.toIdle := .of_eq rfl
    exact hidle.trans (x.toIdle.deliver_emits p (x.slot.buf.take k))

theorem progress_emits (p : Params) (x : Reassembly) : x.Emits 1 1 (x.progress p) := by
  have htarget : x.Emits 0 0 { x with slot := x.slot.withTarget } := .of_eq rfl
  exact htarget.trans (advance_emits p _)

theorem append_emits (p : Params) (b : Bytes) (x : Reassembly) : x.Emits 1 1 (x.append p b) := by
  have hbuf : x.Emits 0 0 { x with slot := { x.slot with buf := x.slot.buf ++ b } } := .of_eq rfl
  exact hbuf.trans (progress_emits p _)

/-- A unit that starts with none in progress. -/
theorem start_emits_of_no_unit (p : Params) (b : Bytes) (h : x.slot.state ≠ .accumulating) :
    x.Emits 1 1 (x.start p b) := by
  have hfresh : x.Emits 0 0 { x with slot := { x.slot with state := .accumulating, buf := b, target := .unknown } } :=
    .of_eq rfl
  rw [start, if_neg h]
  exact hfresh.trans (progress_emits p _)

/-- A unit that starts: EarlyStart may stand before it (45_depacketizer.md R286). -/
theorem start_emits (p : Params) (b : Bytes) (x : Reassembly) : x.Emits 2 1 (x.start p b) := by
  by_cases h : x.slot.state = .accumulating
  · have hearly : x.Emits 1 0
        ⟨⟨x.slot.pid, x.slot.kind, .accumulating, b, .unknown⟩, x.queue, x.events ++ [evDroppedEarlyStart]⟩ :=
      ⟨[evDroppedEarlyStart], rfl, by decide, by decide⟩
    rw [start, if_pos h]
    exact hearly.trans (progress_emits p _)
  · exact (start_emits_of_no_unit p b h).mono (by decide) (by decide)

/-- The payload of one packet: a pointer tail emits one event, and the unit behind it two (R287). -/
theorem PayloadStep.emits (h : PayloadStep p x y) : x.Emits 3 2 y := by
  cases h with
  | kept => exact (Emits.of_eq rfl).mono (by decide) (by decide)
  | ignored => exact (Emits.of_append rfl).mono (by decide) (by decide)
  | overrun => exact (Emits.of_append (e := evDroppedPointerOverrun) rfl).mono (by decide) (by decide)
  | started b => exact (x.start_emits p b).mono (by decide) (by decide)
  | appended b => exact (x.append_emits p b).mono (by decide) (by decide)
  | tailed a b => exact (x.append_emits p a).trans (start_emits p b _)

/-- With no unit in progress nothing is appended, and a start drops nothing. -/
theorem PayloadStep.emits_of_no_unit (h : PayloadStep p x y) (hx : x.slot.state ≠ .accumulating) : x.Emits 1 1 y := by
  cases h with
  | kept => exact (Emits.of_eq rfl).mono (by decide) (by decide)
  | ignored => exact .of_append rfl
  | overrun => exact .of_append (e := evDroppedPointerOverrun) rfl
  | started b => exact start_emits_of_no_unit p b hx
  | appended b hacc => exact absurd hacc hx
  | tailed a b hacc => exact absurd hacc hx

/-- A loss emits Discontinuity, and UnitDropped for a unit in progress (R286). -/
theorem lose_emits (x : Reassembly) : x.Emits 2 0 x.lose := by
  unfold lose
  split
  · exact ⟨[evDiscontinuity, evDroppedDiscontinuity], by simp, by decide, by decide⟩
  · exact ⟨[evDiscontinuity], by simp, by decide, by decide⟩

/-- A loss leaves no unit in progress, so the payload behind it emits at most one event more. -/
theorem run_emits (p : Params) (pkt : TsPacket) (v : Verdict) (x : Reassembly) : x.Emits 3 2 (x.run p pkt v) := by
  cases v with
  | continuous => exact (x.takePayload_step p pkt).emits
  | discontinuous =>
    have hlost : x.lose.slot.state ≠ .accumulating := by
      rw [lose_slot, Slot.emptied_state]
      decide
    exact (x.lose_emits.trans ((x.lose.takePayload_step p pkt).emits_of_no_unit hlost)).mono (by decide) (by decide)
  | duplicate => exact (Emits.of_append rfl).mono (by decide) (by decide)

theorem finish_emits (p : Params) (x : Reassembly) : x.Emits 1 1 (x.finish p) := by
  by_cases hacc : x.slot.state = .accumulating
  · by_cases ht : x.slot.target = .unbounded
    · rw [finish_of_unbounded p hacc ht]
      have hidle : x.Emits 0 0 x.toIdle := .of_eq rfl
      exact (hidle.trans (x.toIdle.deliver_emits p x.slot.buf)).trans (.of_eq rfl)
    · rw [finish_of_bounded p hacc ht]
      exact .of_append (e := evRejectedIncomplete) rfl
  · rw [finish_of_no_unit p hacc]
    exact (Emits.of_eq rfl).mono (by decide) (by decide)

end Reassembly

end Sys2Proof.Machine
end

section
/-! What every command can answer, said once for all 18 commands (60_exceptions.md R351, R352, R357): the inversion
lemma the claims about statuses and events are read off. -/

namespace Sys2Proof.Machine

/-- The responses a command can give. -/
inductive Answer : Instr → Response → Prop
  | ok {i : Instr} (out : Output) : Answer i (okResponse out [])
  | raised {i : Instr} {e : ErrorStatus} (fits : e.InfoFits) : Answer i (errorResponse e)
  | filtered (ev : Event) : Answer .feed (okResponse .none [ev])
  | fed (p : Params) (pkt : TsPacket) (v : Verdict) (sl : Slot) (q : List CompletedUnit) :
      Answer .feed (okResponse .none (Reassembly.run p pkt v ⟨sl, q, []⟩).events)
  | finished (pid : Pid) (p : Params) (sl : Slot) (q : List CompletedUnit) :
      Answer (.finish pid) (okResponse .none (Reassembly.finish p ⟨sl, q, []⟩).events)

/-- `i` was answered in `s` with one of its responses. -/
def Responds (i : Instr) (s t : State) : Prop := ∃ r, t.responses = s.responses ++ [r] ∧ Answer i r

variable {i : Instr} {s t : State}

theorem responds_of_complete {u : State} {out : Output} (h : complete u out = .next t)
    (hu : u.responses = s.responses) : Responds i s t := by
  rw [complete_next u t out h]
  exact ⟨_, congrArg (· ++ _) hu, .ok out⟩

theorem responds_of_raise {e : ErrorStatus} (h : raise e s = .next t) (fits : e.InfoFits) : Responds i s t := by
  rw [(raise_next e s t h).1]
  exact ⟨_, rfl, .raised fits⟩

/-- A command that is its codec on the typed IN operand. -/
theorem responds_of_codec {α β : Type} {o : Option α} {out : β → Output} {codec : α → Except ErrorStatus β}
    (h : withOperand o (fun v => .next (s.answer (resultResponse out (codec v)))) = .next t)
    (fits : ∀ v, ErrorsFit (codec v)) : Responds i s t := by
  obtain ⟨v, -, hv⟩ := withOperand_next _ _ _ h
  cases hv
  cases hc : codec v with
  | error e => exact ⟨_, rfl, .raised (fits v e hc)⟩
  | ok w => exact ⟨_, rfl, .ok (out w)⟩

theorem execCcNext_responds {h : Bit} {pid : Pid} (he : execCcNext h pid s = .next t) :
    Responds (.ccNext h pid) s t := by
  unfold execCcNext at he
  split at he
  · exact responds_of_complete he rfl
  · exact responds_of_complete he rfl

theorem execCrc32_responds (h : execCrc32 s = .next t) : Responds .crc32 s t := by
  obtain ⟨_, -, hx⟩ := withOperand_next _ _ _ h
  exact responds_of_complete hx rfl

theorem execSplit_responds {kind : Kind} {pid : Pid} (h : execSplit kind pid s = .next t) :
    Responds (.split kind pid) s t := by
  obtain ⟨_, -, hx⟩ := withOperand_next _ _ _ h
  exact responds_of_complete hx rfl

theorem execOpen_responds {kind : Kind} {pid : Pid} (h : execOpen kind pid s = .next t) :
    Responds (.openPid kind pid) s t := by
  unfold execOpen at h
  split at h
  · exact responds_of_complete h rfl
  · split at h
    · exact responds_of_complete h rfl
    · exact responds_of_raise h trivial

theorem execClose_responds {pid : Pid} (h : execClose pid s = .next t) : Responds (.closePid pid) s t := by
  unfold execClose at h
  split at h
  · exact responds_of_raise h trivial
  · exact responds_of_complete h rfl

/-- A packet that decodes is filtered, not open, or runs the machine of its slot (45_depacketizer.md R285). -/
theorem feedPacket_responds (p : TsPacket) (s : State) : Responds .feed s (feedPacket p s) := by
  unfold feedPacket
  split
  · exact ⟨_, rfl, .filtered _⟩
  · split
    · exact ⟨_, rfl, .filtered _⟩
    · split
      · exact ⟨_, rfl, .filtered _⟩
      · exact ⟨_, rfl, .fed ..⟩

theorem execFeed_responds (h : execFeed s = .next t) : Responds .feed s t := by
  obtain ⟨b, -, hb⟩ := withOperand_next _ _ _ h
  cases hd : decodePacket b with
  | error e =>
    simp only [hd] at hb
    exact responds_of_raise hb (decodePacket_errorsFit b e hd)
  | ok p =>
    simp only [hd] at hb
    cases hb
    exact feedPacket_responds p s

theorem execFinish_responds {pid : Pid} (h : execFinish pid s = .next t) : Responds (.finish pid) s t := by
  unfold execFinish at h
  split at h
  · exact responds_of_raise h trivial
  · cases h
    exact ⟨_, rfl, .finished ..⟩

theorem execTakeCompleted_responds (h : execTakeCompleted s = .next t) : Responds .takeCompleted s t := by
  unfold execTakeCompleted at h
  split at h
  · exact responds_of_raise h trivial
  · exact responds_of_complete h rfl

theorem execSlotState_responds {pid : Pid} (h : execSlotState pid s = .next t) : Responds (.slotState pid) s t := by
  unfold execSlotState at h
  split at h
  · exact responds_of_raise h trivial
  · exact responds_of_complete h rfl

/-- Every command that completes is answered with one of its responses. -/
theorem exec_responds (h : exec i s = .next t) : Responds i s t := by
  cases i with
  | nop => exact responds_of_complete h rfl
  | reset => exact responds_of_complete h rfl
  | decodePacket => exact responds_of_codec h decodePacket_errorsFit
  | encodePacket => exact responds_of_codec h encodePacket_errorsFit
  | ccNext => exact execCcNext_responds h
  | ccValidate => exact responds_of_complete h rfl
  | crc32 => exact execCrc32_responds h
  | decodeSection => exact responds_of_codec h decodeSection_errorsFit
  | encodeSection => exact responds_of_codec h encodeSection_errorsFit
  | decodePes => exact responds_of_codec h decodePes_errorsFit
  | encodePes => exact responds_of_codec h encodePes_errorsFit
  | split => exact execSplit_responds h
  | openPid => exact execOpen_responds h
  | closePid => exact execClose_responds h
  | feed => exact execFeed_responds h
  | finish => exact execFinish_responds h
  | takeCompleted => exact execTakeCompleted_responds h
  | slotState => exact execSlotState_responds h

/-- The response a command appended is one of its responses. -/
theorem answer_of_exec {r : Response} (h : exec i s = .next t) (hr : t.responses = s.responses ++ [r]) :
    Answer i r := by
  obtain ⟨r', hr', ha⟩ := exec_responds h
  obtain rfl : r' = r := by simpa [hr] using hr'.symm
  exact ha

/-- A response is OK or carries an error whose information fits. -/
theorem Answer.ok_or_error {r : Response} (h : Answer i r) :
    r.status = 0x00 ∨ ∃ e : ErrorStatus, e.InfoFits ∧ r = errorResponse e := by
  cases h with
  | raised fits => exact .inr ⟨_, fits, rfl⟩
  | ok | filtered | fed | finished => exact .inl rfl

/-- The same of a step, which answers an illegal word too and nothing else that is no command (46_control.md R332). -/
theorem step_ok_or_error {r : Response} (h : step s = .next t) (hr : t.responses = s.responses ++ [r]) :
    r.status = 0x00 ∨ ∃ e : ErrorStatus, e.InfoFits ∧ r = errorResponse e := by
  rcases step_cases h with rfl | rfl | ⟨w, rfl⟩ | ⟨i, hi⟩
  · simp at hr
  · simp at hr
  · obtain rfl : errorResponse (.illegalCommand w) = r := by simpa using hr
    exact .inr ⟨.illegalCommand w, trivial, rfl⟩
  · exact (answer_of_exec hi hr).ok_or_error

end Sys2Proof.Machine
end

section
/-! The claims about statuses, events and a port without a command (60_exceptions.md R351 to R369). -/

namespace Sys2Proof.Machine

/-- Settles O12: the codes and information types are a table over the errors; for three of them the check that failed
says more. -/
theorem statusesAndTheirInformation : Obligations.StatusesAndTheirInformation := by
  intro s t r hstep hr
  obtain hok | ⟨e, fits, rfl⟩ := step_ok_or_error hstep hr
  · exact .inl hok
  · cases e with
    | crcMismatch | incompletePayload | reservedAdaptationFieldControl =>
      simpa [errorResponse, ErrorStatus.code, ErrorStatus.info, ErrorStatus.InfoFits] using fits
    | _ => simp [errorResponse, ErrorStatus.code, ErrorStatus.info]

/-- Settles O56: only the reassembly machine emits more than one event; `run_emits` and `finish_emits` count them. -/
theorem eventBounds : Obligations.EventBounds := by
  intro i s t r hexec hr
  cases answer_of_exec hexec hr with
  | ok out => simp [okResponse]
  | raised => simp [errorResponse]
  | filtered ev => exact ⟨by simp [okResponse], (completions_singleton_le ev).trans (by decide), by simp, by simp⟩
  | fed p pkt v sl q =>
    obtain ⟨hlen, hcompleted⟩ := (Reassembly.run_emits p pkt v ⟨sl, q, []⟩).bounds rfl
    exact ⟨hlen, hcompleted, by simp, by simp⟩
  | finished pid p sl q =>
    obtain ⟨hlen, hcompleted⟩ := (Reassembly.finish_emits p ⟨sl, q, []⟩).bounds rfl
    exact ⟨hlen.trans (by decide), hcompleted.trans (by decide), fun _ => hlen, by simp⟩

/-- Settles O10: the reset input leaves the state RESET answers from, and no response. -/
theorem portWithoutCommand : Obligations.PortWithoutCommand := by
  intro s hlegal
  refine ⟨fun hport => ?_, fun rest hport => ⟨s.clear.consume, s.clear.answer (okResponse .none []), ?_, rfl,
    ⟨rfl, rfl, rfl, rfl, rfl⟩, fun pid => ⟨rfl, rfl, s.clear_slot pid⟩, rfl, ?_, rfl⟩⟩
  · rw [step, fetch_idle s hlegal hport]
  · rw [step, fetch_resetInput s rest hlegal hport]
    rfl
  · rw [State.consume_inputs, State.clear_inputs, hport, List.tail_cons]

end Sys2Proof.Machine
end
